-- ==== Sys2Proof/Word.lean ====
section
/-! DEFINITION. The word types of the HUFF codec core and the fixed-length table its internal
tables are made of (00_scope.md rule R7, 10_state.md rules R21 to R23). -/

namespace Sys2Proof

/-- One byte of `IBUF`, `OBUF`, the header or a command code (R7, R66). -/
abbrev Byte := BitVec 8

/-- A frequency count, 32 bits (R5 `FREQ_W`, R22). -/
abbrev Count := BitVec 32

/-- A node weight or a symbol counter, 40 bits (R6 `WEIGHT_W`, R21, R23). -/
abbrev Weight := BitVec 40

/-- A node id, 9 bits: bit 8 tells leaf (0) from internal (1) (R23, R96). -/
abbrev NodeId := BitVec 9

/-- A code: the edge labels from the root to a leaf, first transmitted bit first, `true` for 1
(R8, R95). -/
abbrev Code := List Bool

/-- An internal table of exactly `n` entries. It is a list with its length, so that two tables are
compared entry by entry and read by plain recursion. -/
structure Table (α : Type) (n : Nat) where
  rows : List α
  len : rows.length = n
  deriving DecidableEq, Repr

/-- The table with the same entry everywhere. -/
def Table.fill {α : Type} (n : Nat) (a : α) : Table α n :=
  ⟨List.replicate n a, List.length_replicate⟩

/-- The table whose entry `i` is `f i`. -/
def Table.tabulate {α : Type} {n : Nat} (f : Fin n → α) : Table α n :=
  ⟨(List.finRange n).map f, by simp⟩

/-- Entry `i` of a table, `i` below its length. -/
def Table.get {α : Type} {n : Nat} (t : Table α n) (i : Nat) (h : i < n) : α :=
  t.rows[i]'(by rw [t.len]; exact h)

/-- Entry `i` of a table, none outside it. -/
def Table.get? {α : Type} {n : Nat} (t : Table α n) (i : Nat) : Option α :=
  t.rows[i]?

/-- The table with entry `i` replaced (nothing changes when `i` is outside it). -/
def Table.set {α : Type} {n : Nat} (t : Table α n) (i : Nat) (a : α) : Table α n :=
  ⟨t.rows.set i a, by rw [List.length_set]; exact t.len⟩

end Sys2Proof
end

