-- ==== Sys2Proof/Config.lean ====
section
/-! DEFINITION. What this implementation fixes: the parameters of 00_scope.md rules R5 and R6, and
the free values of 93_implementation_defined.md U8. The open capacities `IBUF_CAP` and `OBUF_CAP`
(U13) are arguments of the model: they stand in `State`, so that every statement about all states
is a statement about all capacities (log 1). -/

namespace Sys2Proof.Config

/-- `FREQ_ENTRIES` = `ALPHABET` (R5): one entry per byte value. -/
abbrev freqEntries : Nat := 256

/-- `HDR_BYTES` (R5): 256 counts of four bytes. -/
def hdrBytes : Nat := 1024

/-- `STREAM_OFF` (R5): the container offset of the first bitstream byte. -/
def streamOff : Nat := 1024

/-- `LEFT_BIT` (R5): the code bit of an edge to a left child. -/
def leftBit : Bool := false

/-- `RIGHT_BIT` (R5): the code bit of an edge to a right child. -/
def rightBit : Bool := true

/-- `SINGLE_CODE` (R5): the code of the only symbol when the root is a leaf. -/
def singleCode : Code := [false]

/-- `MAX_NODES` (R6): node ids 0 to 510. -/
abbrev maxNodes : Nat := 511

/-- The number of internal ids, 256 to 510 (R6, R23). -/
abbrev maxInternal : Nat := 255

/-- `MAX_CODE_LEN` (R6, C4). -/
def maxCodeLen : Nat := 255

/-- `ZERO_FREQ_POLICY` (R6, D1). The other policy's trees are described nowhere, so it has no
constructor (U1: refuse to instantiate any other value). -/
inductive ZeroFreqPolicy where
  | exclude
  deriving DecidableEq, Repr

/-- `TIE_BREAK` (R6, D2, U2). -/
inductive TieBreak where
  | weightThenId
  deriving DecidableEq, Repr

/-- `BIT_ORDER` (R6, D3, U3). -/
inductive BitOrder where
  | msbFirst
  deriving DecidableEq, Repr

/-- `HDR_BYTE_ORDER` (R6, D4, U4). -/
inductive ByteOrder where
  | bigEndian
  deriving DecidableEq, Repr

/-- The configuration record of R6: every parameter the source leaves to the implementation. -/
structure Parameters where
  /-- `ZERO_FREQ_POLICY` (D1). -/
  zeroFreqPolicy : ZeroFreqPolicy
  /-- `TIE_BREAK` (D2). -/
  tieBreak : TieBreak
  /-- `BIT_ORDER` (D3). -/
  bitOrder : BitOrder
  /-- `HDR_BYTE_ORDER` (D4). -/
  hdrByteOrder : ByteOrder
  /-- `PAD_BIT` (D5): what the packer pads the last byte with; the unpacker never reads it. -/
  padBit : Bool
  /-- `EMPTY_STREAM_BYTES` (D6): the length of the bitstream section of an empty input. -/
  emptyStreamBytes : Nat
  /-- `WEIGHT_W` (D9), the width of `Weight`. -/
  weightW : Nat
  /-- `NODE_ID_W` (D9), the width of `NodeId`. -/
  nodeIdW : Nat
  /-- `MAX_NODES` (D9). -/
  maxNodes : Nat
  /-- `MAX_CODE_LEN` (D9). -/
  maxCodeLen : Nat
  /-- `IN_LEN_W` (D8), the width of `IN_LEN`. -/
  inLenW : Nat
  /-- `IBUF_CAP` (D26), open. -/
  ibufCap : Nat
  /-- `OBUF_CAP` (D26), open. -/
  obufCap : Nat
  deriving DecidableEq, Repr

/-- The record of this hardware (R6): the values R6 gives, the two open ones being arguments of the
model. -/
def parameters (ibufCap obufCap : Nat) : Parameters where
  zeroFreqPolicy := .exclude
  tieBreak := .weightThenId
  bitOrder := .msbFirst
  hdrByteOrder := .bigEndian
  padBit := false
  emptyStreamBytes := 0
  weightW := 40
  nodeIdW := 9
  maxNodes := maxNodes
  maxCodeLen := maxCodeLen
  inLenW := 32
  ibufCap := ibufCap
  obufCap := obufCap

/-- FREE VALUE (log 3). The byte an `IBUF` address holds that the host has not written since the
`r`-th assertion of `RST`: some byte, the same at every read (R42, U8 (b), C12). -/
opaque ibufByte (r : Nat) (addr : Nat) : Byte

/-- FREE VALUE (logs 5 and 7). The byte the `k`-th unspecified host read returns (R42, R267,
U8 (a)). -/
opaque freeByte (k : Nat) : Byte

/-- FREE VALUE (log 13). The stale bits `ROOT` holds while no run has written it, after the `r`-th
assertion of `RST` (R40, R42, U8 (c)). -/
opaque staleRoot (r : Nat) : NodeId

/-- FREE VALUE (log 13). The stale bits `CUR` holds while no run has written it, after the `r`-th
assertion of `RST` (R40, R42, U8 (c)). -/
opaque staleCur (r : Nat) : NodeId

end Sys2Proof.Config
end

