-- ==== Sys2Proof/Machine/State.lean ====
section
/-! DEFINITION. The state of the block (10_state.md), the turns that drive it, the reasons a step can
stop, and the state after reset (10 rule R40, 70 rule R261). -/

namespace Sys2Proof.Machine

/-- `RUN` (10 R25). -/
inductive Run where
  | idle
  | busy
  | done
  | error
  deriving DecidableEq, Repr

/-- `MODE` (10 R27): 0 = the last accepted command was `ENCODE`, 1 = `DECODE`. -/
inductive Mode where
  | encode
  | decode
  deriving DecidableEq, Repr

/-- `ROOT_KIND` (10 R21). -/
inductive RootKind where
  | none
  | empty
  | leaf
  | internal
  deriving DecidableEq, Repr

/-- The error of `ERR` (60 R231). The codes 9 to 15 are never written and are no values here
(U11). -/
inductive ErrKind where
  | none
  | inputUnavailable
  | outputUnwritable
  | malformedContainer
  | streamTruncated
  | streamCorrupt
  | internalConsistency
  | badCommand
  | countOverflow
  deriving DecidableEq, Repr

/-- `PHASE` (10 R25): 4 bits, the codes 9 to 15 reserved, which a state can hold and the sequencer
refuses (30 R104). -/
abbrev Phase := BitVec 4

/-- `P_NONE`: not running. -/
abbrev Phase.pNone : Phase := 0#4
/-- `P_FC`: the Frequency Counter scans `IBUF`. -/
abbrev Phase.pFc : Phase := 1#4
/-- `P_TBI`: the Tree Builder is about to insert the leaves. -/
abbrev Phase.pTbi : Phase := 2#4
/-- `P_TBM`: the Tree Builder merges. -/
abbrev Phase.pTbm : Phase := 3#4
/-- `P_CG`: the code table is about to be derived. -/
abbrev Phase.pCg : Phase := 4#4
/-- `P_WRH`: the header is about to be written. -/
abbrev Phase.pWrh : Phase := 5#4
/-- `P_BP`: the Bit Packer packs. -/
abbrev Phase.pBp : Phase := 6#4
/-- `P_RDH`: the header is about to be read. -/
abbrev Phase.pRdh : Phase := 7#4
/-- `P_BU`: the Bit Unpacker walks. -/
abbrev Phase.pBu : Phase := 8#4

/-- The contents of a byte buffer: the bytes that have been written, addresses strictly rising. An
unlisted address has not been written since reset and holds no value of the model's choosing (10
R42). -/
abbrev Memory := List Host.Cell

/-- What the host or the platform can do (40 R133, 70 R265). The host port of `OBUF` is read-only,
so there is no move that writes it. A register access is a 32-bit word at a byte offset of the
window (10 R28). -/
inductive HostMove where
  /-- Write a word to the register at a byte offset; offset 0 is `CMD`. -/
  | writeReg (off : Nat) (data : BitVec 32)
  /-- Read the register at a byte offset. -/
  | readReg (off : Nat)
  /-- Write one byte of `IBUF`. -/
  | writeIbuf (addr : Nat) (data : Byte)
  /-- Read one byte of `IBUF`. -/
  | readIbuf (addr : Nat)
  /-- Read one byte of `OBUF`. -/
  | readObuf (addr : Nat)
  /-- Assert the reset input `RST` (70 R260). -/
  | reset
  deriving DecidableEq, Repr

/-- Whose turn it is: the core's, or the host's with the move it makes (40 R133, R134). -/
inductive Turn where
  | core
  | host (m : HostMove)
  deriving DecidableEq, Repr

/-- The state of the block, and of the host in front of it. Every field down to `obufCap` is the
spec's; the last four are the model's own. -/
structure State where
  /-- `RUN` (R25). -/
  run : Run
  /-- `PHASE` (R25). -/
  phase : Phase
  /-- `MODE` (R27). -/
  mode : Mode
  /-- `ROOT_KIND` (R21, R27). -/
  rootKind : RootKind
  /-- `ERR` (R31). -/
  err : ErrKind
  /-- `ERR_INFO` (R32). -/
  errInfo : BitVec 64
  /-- `IN_LEN` (R33). -/
  inLen : BitVec 32
  /-- `IN_POS` (R21). -/
  inPos : BitVec 32
  /-- `OUT_POS` (R21). -/
  outPos : BitVec 64
  /-- `NINT` (R21). -/
  nint : BitVec 9
  /-- `ROOT` (R21); `none` while unwritten (R40, R41), when it holds stale bits (log 13). -/
  root : Option NodeId
  /-- `CUR` (R21); `none` while unwritten (R40, R41), when it holds stale bits (log 13). -/
  cur : Option NodeId
  /-- `ACC` (R21, R37). -/
  acc : BitVec 8
  /-- `NACC` (R21, R37). -/
  nacc : BitVec 3
  /-- `TOTAL_BITS` (R21). -/
  totalBits : BitVec 40
  /-- `BITPOS` (R21). -/
  bitPos : BitVec 3
  /-- `EMITTED` (R21). -/
  emitted : Weight
  /-- `N` (R21), the target symbol count. -/
  nsym : Weight
  /-- `FREQ[0..255]` (R22). -/
  freq : Table Count Config.freqEntries
  /-- `NODE_W[0..510]` (R23); an entry is `none` while unwritten (R40, R41; log 2). -/
  nodeW : Table (Option Weight) Config.maxNodes
  /-- `NODE_L[256..510]` (R23), entry `j` the left child of node `256 + j`. -/
  nodeL : Table (Option NodeId) Config.maxInternal
  /-- `NODE_R[256..510]` (R23), entry `j` the right child of node `256 + j`. -/
  nodeR : Table (Option NodeId) Config.maxInternal
  /-- `PQ` (R24), a set of node ids, as its members in rising order. -/
  pq : List NodeId
  /-- `CODE[0..255]` (R36). -/
  code : Table (Option Code) Config.freqEntries
  /-- `IBUF` (20 R60). -/
  ibuf : Memory
  /-- `OBUF` (20 R60). -/
  obuf : Memory
  /-- `IBUF_CAP` (00 R6, U13), an argument of the model: no step changes it (log 1). -/
  ibufCap : Nat
  /-- `OBUF_CAP` (00 R6, U13), an argument of the model: no step changes it (log 1). -/
  obufCap : Nat
  /-- The model's own: the turns to come; when none is listed it is the core's turn (log 4). -/
  schedule : List Turn
  /-- The model's own: what the last host read returned, a byte zero-extended (log 6). -/
  hostData : BitVec 32
  /-- The model's own: the number of unspecified bytes host reads have returned (log 5). -/
  freeReads : Nat
  /-- The model's own: the number of times `RST` was asserted (log 3). -/
  resets : Nat
  deriving DecidableEq, Repr

/-- Why the machine stops with a fault. All but `hostInputAddress` are met in no run: the
spec says that no operation performs such a read (10 R42, U8 (c)) or gives it no effect (log 10). -/
inductive Fault where
  /-- Raised by extract-min (`TB.MERGE`, `TB.FIN`) on a `PQ` member whose `NODE_W` entry is unwritten
  (U8 (c)). Safe: the hardware goes on with stale bits. -/
  | unwrittenWeight (id : NodeId)
  /-- Raised by `CG.GEN` on an internal node whose child entry is unwritten, or on id 511 (U8 (c)).
  Safe. -/
  | unwrittenChild (id : NodeId)
  /-- Raised by `TB.MERGE` when the new node's id would exceed 510 (10 R23, 30 R96). Safe. -/
  | nodeMemoryFull
  /-- Raised by extract-min in `TB.MERGE` when `PQ` is empty: the query is used only when it is not
  (42 R161). Safe. -/
  | emptyQueue
  /-- Raised by `CG.GEN` when a path from the root passes more than 255 internal nodes, so that the
  traversal of rule R181 would not end: the node tables hold a cycle. A stuck state. Safe. -/
  | traversalDoesNotEnd
  /-- Raised by `FC.CNT`, `BP.SYM`, `CC.RDH`, `BU.BIT` on a core read of `IBUF` at or above `IN_LEN`
  (00 R9) or `IBUF_CAP` (20 R60). Safe. -/
  | inputAddress (addr : Nat)
  /-- Raised by a host access to `IBUF` at or above `IBUF_CAP`, an address that does not exist (20
  R60). Safe. -/
  | hostInputAddress (addr : Nat)
  deriving DecidableEq, Repr

/-- Why the machine refuses. -/
inductive Refusal where
  /-- Raised by no arm: every operation has its meaning. Safe. -/
  | notModelled (mnemonic : String)
  /-- Raised by a core turn when the dispatch byte matches no operation (30 R104, U11: refuse, do not
  step). Safe: such a state is never reached. -/
  | reservedDispatch (sel : Byte)
  /-- Raised by a core turn when the dispatch byte matches but no guard of its operations holds (30
  R104). Safe: such a state is never reached. -/
  | noGuardHolds (sel : Byte)
  /-- Raised by a register access that is not at a multiple of 4: no move of the model (20 R65, U9).
  Safe: what the platform does is its own. -/
  | registerAccess (off : Nat)
  deriving DecidableEq, Repr

/-- The three outcomes of a step of this machine. -/
abbrev Result := Host.Outcome State Fault Refusal

/-- The state after reset of a block with the given capacities (10 R40, 70 R261). -/
def State.resetWith (ibufCap obufCap : Nat) : State where
  run := .idle
  phase := Phase.pNone
  mode := .encode
  rootKind := .none
  err := .none
  errInfo := 0#64
  inLen := 0#32
  inPos := 0#32
  outPos := 0#64
  nint := 0#9
  root := none
  cur := none
  acc := 0#8
  nacc := 0#3
  totalBits := 0#40
  bitPos := 0#3
  emitted := 0#40
  nsym := 0#40
  freq := Table.fill Config.freqEntries 0#32
  nodeW := Table.fill Config.maxNodes none
  nodeL := Table.fill Config.maxInternal none
  nodeR := Table.fill Config.maxInternal none
  pq := []
  code := Table.fill Config.freqEntries none
  ibuf := []
  obuf := []
  ibufCap := ibufCap
  obufCap := obufCap
  schedule := []
  hostData := 0#32
  freeReads := 0
  resets := 0

/-- The state after reset. The capacities are open in the spec (D26); these are those of its test
vectors, 2^20 (log 1). -/
def State.reset : State := State.resetWith 1048576 1048576

end Sys2Proof.Machine
end

