-- ==== Sys2Proof/Machine/Ops.lean ====
section
/-! DEFINITION. The named operations over buffers, tables and registers that the meanings share:
reads and writes of a byte buffer, error entry (60_exceptions.md rule R240), `OutByte` (00_scope.md
rule R9), `InitWork` (10_state.md rule R41), node fields (R23) and extract-min (42_tree_builder.md
rule R161). -/

namespace Sys2Proof.Machine

/-- The configuration record of the block a state is of (00 R6): its two open fields are the
arguments the state holds. -/
def State.config (s : State) : Config.Parameters := Config.parameters s.ibufCap s.obufCap

/-- The byte written last at an address, `none` where nothing has been written since reset. -/
def Memory.read : Memory → Nat → Option Byte
  | [], _ => none
  | (a', b') :: rest, a => if a = a' then some b' else Memory.read rest a

/-- The buffer with one byte written; the addresses stay strictly rising. -/
def Memory.write : Memory → Nat → Byte → Memory
  | [], a, b => [(a, b)]
  | (a', b') :: rest, a, b =>
    if a < a' then (a, b) :: (a', b') :: rest
    else if a = a' then (a, b) :: rest
    else (a', b') :: Memory.write rest a b

/-- The canonical form of a buffer: addresses strictly rising. An unlisted address holds no value
the model names, so no entry can equal what an unlisted address reads as (log 3). -/
abbrev Memory.wf (m : Memory) : Prop := m.Pairwise fun x y => x.1 < y.1

/-- How far an operation has come: it goes on from a state, or it has ended the step (by `raise`, R9,
or by a fault of the model). -/
inductive Flow where
  | cont (s : State)
  | halt (r : Result)
  deriving Repr

/-- Go on with the rest of the operation, unless it has ended. -/
def Flow.andThen (f : Flow) (k : State → Flow) : Flow :=
  match f with
  | .cont s => k s
  | .halt r => .halt r

/-- The outcome of the step: the state reached, or how the operation ended before. -/
def Flow.finish (f : Flow) : Result :=
  match f with
  | .cont s => .next s
  | .halt r => r

/-- Error entry `raise E(info)` (R240): these four registers and nothing else. -/
def raise (e : ErrKind) (info : BitVec 64) (s : State) : State :=
  { s with err := e, errInfo := info, run := .error, phase := Phase.pNone }

/-- `OutByte(v)` (R9): append one byte to `OBUF`, or raise `OutputUnwritable(OUT_POS)` when the
buffer is full (R233). -/
def outByte (v : Byte) (s : State) : Flow :=
  if s.outPos.toNat = s.obufCap then .halt (.next (raise .outputUnwritable s.outPos s))
  else .cont { s with obuf := s.obuf.write s.outPos.toNat v, outPos := s.outPos + 1#64 }

/-- `OutByte` of each byte in turn. -/
def outBytes : List Byte → State → Flow
  | [], s => .cont s
  | v :: vs, s => (outByte v s).andThen (outBytes vs)

/-- `InitWork()` (R41): every working register and table as after reset; `IN_LEN`, `IBUF` and `OBUF`
are left as they are. -/
def initWork (s : State) : State :=
  { s with
    inPos := 0#32, outPos := 0#64, nint := 0#9, rootKind := .none
    acc := 0#8, nacc := 0#3, totalBits := 0#40, bitPos := 0#3, emitted := 0#40, nsym := 0#40
    freq := Table.fill Config.freqEntries 0#32
    code := Table.fill Config.freqEntries none
    pq := []
    root := none, cur := none
    nodeW := Table.fill Config.maxNodes none
    nodeL := Table.fill Config.maxInternal none
    nodeR := Table.fill Config.maxInternal none
    err := .none, errInfo := 0#64 }

/-- Bit 8 of a node id is 0: the node is a leaf (R23, R96). -/
def isLeaf (id : NodeId) : Bool := !id.getLsbD 8

/-- The byte value of a leaf: bits 7:0 of its id (R23). -/
def leafByte (id : NodeId) : Byte := id.setWidth 8

/-- The node id of the leaf of a byte value (R23). -/
def leafId (b : Byte) : NodeId := b.setWidth 9

/-- What a read of `ROOT` gives: the id last written, or the stale bits of an unwritten register (10
R42, U8 (c); log 13). -/
def State.rootId (s : State) : NodeId := s.root.getD (Config.staleRoot s.resets)

/-- What a read of `CUR` gives: the id last written, or the stale bits of an unwritten register (10
R42, U8 (c); log 13). -/
def State.curId (s : State) : NodeId := s.cur.getD (Config.staleCur s.resets)

/-- `NODE_W[id]`, `none` while unwritten and for id 511 (R23). -/
def State.weight (s : State) (id : NodeId) : Option Weight :=
  (s.nodeW.get? id.toNat).join

/-- `NODE_L[id]`, `none` while unwritten and where there is no such entry (R23). -/
def State.leftChild (s : State) (id : NodeId) : Option NodeId :=
  if isLeaf id then none else (s.nodeL.get? (id.toNat - 256)).join

/-- `NODE_R[id]`, `none` while unwritten and where there is no such entry (R23). -/
def State.rightChild (s : State) (id : NodeId) : Option NodeId :=
  if isLeaf id then none else (s.nodeR.get? (id.toNat - 256)).join

/-- The order of extraction (R161, 00 R6 `TIE_BREAK`): keys `(weight, id)` compared
lexicographically, unsigned. -/
def keyLt (tie : Config.TieBreak) (wa : Weight) (a : NodeId) (wb : Weight) (b : NodeId) : Bool :=
  match tie with
  | .weightThenId => wa.ult wb || (wa == wb && a.ult b)

/-- The member with the least key among `best` and the list (R161). Each comparison reads the
weights of the two ids it compares. -/
def leastMember (s : State) (best : NodeId) : List NodeId → Except Fault NodeId
  | [] => .ok best
  | id :: rest =>
    match s.weight best with
    | none => .error (.unwrittenWeight best)
    | some wb =>
      match s.weight id with
      | none => .error (.unwrittenWeight id)
      | some wi => leastMember s (if keyLt s.config.tieBreak wi id wb best then id else best) rest

/-- `extract_min()` (R161): the member of `PQ` with the least key, and `PQ` without it. -/
def extractMin (s : State) : Except Fault (NodeId × List NodeId) :=
  match s.pq with
  | [] => .error .emptyQueue
  | id :: rest =>
    match leastMember s id rest with
    | .error f => .error f
    | .ok m => .ok (m, s.pq.erase m)

/-- `PQ + {id}` (R24): the set with one more member, in rising order. -/
def insertMember (id : NodeId) : List NodeId → List NodeId
  | [] => [id]
  | x :: xs => if id.ult x then id :: x :: xs else if id = x then x :: xs else x :: insertMember id xs

/-- A byte value as an index of a table of 256 entries. -/
def byteEntry {α : Type} (t : Table α Config.freqEntries) (b : Byte) : α :=
  t.get b.toNat b.isLt

end Sys2Proof.Machine
end

