-- ==== Sys2Proof/Machine/Operands.lean ====
section
/-! DEFINITION. The operand forms (40_commands_and_sequencing.md rule R145): the loads from `IBUF`,
the extraction of a stream bit (30_encoding.md rule R100), and the assembly of header counts (R99,
20_memory.md rule R62). -/

namespace Sys2Proof.Machine

/-- The byte `IBUF[addr]` holds: the one written last, or, where the host has written none since
reset, some byte, the same at every read (10 R42, U8 (b); log 3). -/
def State.inputByte (s : State) (addr : Nat) : Byte :=
  match s.ibuf.read addr with
  | some b => b
  | none => Config.ibufByte s.resets addr

/-- A core load `IBUF[addr]`, defined for `addr < IN_LEN` only (00 R9) and for addresses of the
buffer (20 R60). -/
def loadInput (s : State) (addr : Nat) : Except Fault Byte :=
  if addr < s.inLen.toNat ∧ addr < s.ibufCap then .ok (s.inputByte addr)
  else .error (.inputAddress addr)

/-- The position in a byte of its stream bit `i`, 0 the first transmitted (R63, 00 R6 `BIT_ORDER`). -/
def bitPlace (order : Config.BitOrder) (i : BitVec 3) : Nat :=
  match order with
  | .msbFirst => 7 - i.toNat

/-- The next bit of the stream: bit `BITPOS` of the byte in stream order (R63, R100). -/
def streamBit (order : Config.BitOrder) (b : Byte) (bitPos : BitVec 3) : Bool :=
  b.getLsbD (bitPlace order bitPos)

/-- The count whose four bytes stand in a buffer in this order (R62, 00 R6 `HDR_BYTE_ORDER`). -/
def countOfBytes (order : Config.ByteOrder) (b0 b1 b2 b3 : Byte) : Count :=
  match order with
  | .bigEndian => b0 ++ b1 ++ b2 ++ b3

/-- The count at header entry `i`: the four bytes at `4i` (R62, R99). -/
def headerCount (s : State) (i : Nat) : Count :=
  countOfBytes s.config.hdrByteOrder (s.inputByte (4 * i)) (s.inputByte (4 * i + 1))
    (s.inputByte (4 * i + 2)) (s.inputByte (4 * i + 3))

/-- The four bytes of a count in the order they are stored (R62, 00 R6 `HDR_BYTE_ORDER`). -/
def countBytes (order : Config.ByteOrder) (c : Count) : List Byte :=
  match order with
  | .bigEndian => [c.extractLsb' 24 8, c.extractLsb' 16 8, c.extractLsb' 8 8, c.extractLsb' 0 8]

/-- The 1024 bytes of the header of a frequency table (R91). -/
def headerBytes (order : Config.ByteOrder) (freq : Table Count Config.freqEntries) : List Byte :=
  freq.rows.flatMap (countBytes order)

/-- The sum of the frequency table in 40 bits (R99). -/
def sumCounts (freq : Table Count Config.freqEntries) : Weight :=
  freq.rows.foldl (fun acc c => acc + c.setWidth 40) 0#40

/-- Bit `i` of the packer's accumulator replaced (44 R191 `ACC[7 - NACC] <- bit`). -/
def setBit (acc : Byte) (i : Nat) (b : Bool) : Byte :=
  if b then acc ||| (1#8 <<< i) else acc &&& ~~~(1#8 <<< i)

end Sys2Proof.Machine
end

