-- ==== Sys2Proof/Syntax.lean ====
section
/-! DEFINITION. The operations of the block (30_encoding.md rules R90, R101 and R102): five of
format `CMD`, selected by the code the host writes to `CMD`, and thirteen of format `PHASE`,
selected by the dispatch byte and a guard. There is no other operation. -/

namespace Sys2Proof

/-- The 18 operations. The six rows of the opcode table that bear the name `CMD.RSVD` are one
operation (R102); its code is its operand. -/
inductive Instr where
  /-- `CMD.NOP` (40 R135). -/
  | cmdNop
  /-- `CMD.ENCODE` (40 R136). -/
  | cmdEncode
  /-- `CMD.DECODE` (40 R137). -/
  | cmdDecode
  /-- `CMD.CLEAR` (40 R138). -/
  | cmdClear
  /-- `CMD.RSVD` with a reserved code, 0x04 to 0xFF (40 R139). -/
  | cmdRsvd (code : Byte)
  /-- `FC.CNT` (41 R151). -/
  | fcCnt
  /-- `FC.END` (41 R152). -/
  | fcEnd
  /-- `TB.INIT` (42 R162). -/
  | tbInit
  /-- `TB.MERGE` (42 R163). -/
  | tbMerge
  /-- `TB.FIN` (42 R164). -/
  | tbFin
  /-- `CG.GEN` (43 R181). -/
  | cgGen
  /-- `CC.WRH` (46 R216). -/
  | ccWrh
  /-- `BP.SYM` (44 R191). -/
  | bpSym
  /-- `BP.FLUSH` (44 R192). -/
  | bpFlush
  /-- `CC.RDH` (46 R217). -/
  | ccRdh
  /-- `BU.DONE` (45 R201). -/
  | buDone
  /-- `BU.RUN` (45 R202). -/
  | buRun
  /-- `BU.BIT` (45 R203). -/
  | buBit
  deriving DecidableEq, Repr

end Sys2Proof
end

