-- ==== Sys2Proof/WellFormed.lean ====
section
/-! DEFINITION. Which terms of `Instr` are operations of the block. The one field is the code of
`CMD.RSVD`, which must be a reserved one (30_encoding.md rules R101 and R103). -/

namespace Sys2Proof

/-- A term of `Instr` is well formed when its command code, if it carries one, is one of the
reserved codes 0x04 to 0xFF (R103). -/
def wellFormed (i : Instr) : Bool :=
  match i with
  | .cmdRsvd code => decide (4 ≤ code.toNat)
  | .cmdNop | .cmdEncode | .cmdDecode | .cmdClear => true
  | .fcCnt | .fcEnd | .tbInit | .tbMerge | .tbFin | .cgGen => true
  | .ccWrh | .bpSym | .bpFlush | .ccRdh | .buDone | .buRun | .buBit => true

end Sys2Proof
end

