-- ==== Sys2Proof/Decode.lean ====
section
/-! DEFINITION. The decoder and the encoder of operation selections (30_encoding.md rules R90, R97,
R98, R101 to R104). A selection is what picks one operation: the 32-bit word written to `CMD`, or
the dispatch byte `SEL` together with what the guards of rule R102 compare. -/

namespace Sys2Proof

/-- What the guards of rule R102 look at, as the comparisons they make: `IN_POS` with `IN_LEN`,
`|PQ|` with 2, `EMITTED` with `N`, `ROOT_KIND` with `LEAF`. -/
structure Guards where
  /-- `IN_POS` compared with `IN_LEN`. -/
  inPos : Ordering
  /-- `|PQ| >= 2`. -/
  pqMany : Bool
  /-- `EMITTED` compared with `N`. -/
  emitted : Ordering
  /-- `ROOT_KIND = LEAF`. -/
  rootLeaf : Bool
  deriving DecidableEq, Repr

/-- The guards with no bit set: `IN_POS = IN_LEN`, `|PQ| <= 1`, `EMITTED = N`, the root no leaf.
They are the guards of the reset state, and those of a dispatch byte given alone (log 8). -/
def Guards.none : Guards :=
  { inPos := .eq, pqMany := false, emitted := .eq, rootLeaf := false }

/-- One selection of an operation, of one of the two formats (R90). -/
inductive Selection where
  /-- Format `CMD`: the word written to `CMD` (R97). -/
  | command (word : BitVec 32)
  /-- Format `PHASE`: the dispatch byte and the guards (R98). -/
  | phase (sel : Byte) (g : Guards)
  deriving DecidableEq, Repr

/-- Why a selection picks no operation (R104, U11). -/
inductive DecodeError where
  /-- The dispatch byte matches no row of rule R102. -/
  | reservedDispatch (sel : Byte)
  /-- The dispatch byte matches, but no guard of its rows holds. -/
  | noGuardHolds (sel : Byte)
  deriving DecidableEq, Repr

/-- The command code: bits 7:0 of the word, bits 31:8 ignored (R97). -/
def commandCode (word : BitVec 32) : Byte := word.setWidth 8

/-- The operation a command code selects (R101). -/
def decodeCommand (code : Byte) : Instr :=
  if code = 0x00#8 then .cmdNop
  else if code = 0x01#8 then .cmdEncode
  else if code = 0x02#8 then .cmdDecode
  else if code = 0x03#8 then .cmdClear
  else .cmdRsvd code

/-- The mask of a dispatch byte: `MODE` and bit 3 are dropped (R98). -/
def selMask : Byte := 0xF3#8

/-- The operation picked by the comparison of `IN_POS` with `IN_LEN`: `more` below, `done` at the
end. A cursor beyond `IN_LEN` picks none (R26: it never passes `IN_LEN`). -/
def decodeCursor (sel : Byte) (g : Guards) (more done : Instr) : Except DecodeError Instr :=
  match g.inPos with
  | .lt => .ok more
  | .eq => .ok done
  | .gt => .error (.noGuardHolds sel)

/-- The three-way split of phase `P_BU` (R102). -/
def decodeUnpacker (sel : Byte) (g : Guards) : Except DecodeError Instr :=
  match g.emitted with
  | .eq => .ok .buDone
  | .lt => .ok (if g.rootLeaf then .buRun else .buBit)
  | .gt => .error (.noGuardHolds sel)

/-- The operation a dispatch byte and the guards select (R98, R102). -/
def decodePhase (sel : Byte) (g : Guards) : Except DecodeError Instr :=
  if sel &&& selMask = 0x11#8 then decodeCursor sel g .fcCnt .fcEnd
  else if sel &&& selMask = 0x21#8 then .ok .tbInit
  else if sel &&& selMask = 0x31#8 then .ok (if g.pqMany then .tbMerge else .tbFin)
  else if sel &&& selMask = 0x41#8 then .ok .cgGen
  else if sel &&& selMask = 0x51#8 then .ok .ccWrh
  else if sel &&& selMask = 0x61#8 then decodeCursor sel g .bpSym .bpFlush
  else if sel &&& selMask = 0x71#8 then .ok .ccRdh
  else if sel &&& selMask = 0x81#8 then decodeUnpacker sel g
  else .error (.reservedDispatch sel)

/-- The decoder, total on every selection (R90). -/
def decode (x : Selection) : Except DecodeError Instr :=
  match x with
  | .command word => .ok (decodeCommand (commandCode word))
  | .phase sel g => decodePhase sel g

/-- The word of a command code, the ignored bits 31:8 given by `ignored` (R97). -/
def commandWord (ignored : BitVec 24) (code : Byte) : BitVec 32 := ignored ++ code

/-- The dispatch byte `{PHASE, 0, MODE, RUN = BUSY}` of a match value, `MODE` given by `mode`
(R98). -/
def dispatchByte (mode : Bool) (row : Byte) : Byte :=
  if mode then row ||| 0x04#8 else row

/-- The encoder: a selection of operation `i` (R101, R102). What the selection leaves free is given
by `ignored` (bits 31:8 of a command word), `mode` (the `MODE` bit of a dispatch byte) and `g` (the
guards the operation's row does not look at). -/
def encodeWith (ignored : BitVec 24) (mode : Bool) (g : Guards) (i : Instr) : Selection :=
  match i with
  | .cmdNop => .command (commandWord ignored 0x00#8)
  | .cmdEncode => .command (commandWord ignored 0x01#8)
  | .cmdDecode => .command (commandWord ignored 0x02#8)
  | .cmdClear => .command (commandWord ignored 0x03#8)
  | .cmdRsvd code => .command (commandWord ignored code)
  | .fcCnt => .phase (dispatchByte mode 0x11#8) { g with inPos := .lt }
  | .fcEnd => .phase (dispatchByte mode 0x11#8) { g with inPos := .eq }
  | .tbInit => .phase (dispatchByte mode 0x21#8) g
  | .tbMerge => .phase (dispatchByte mode 0x31#8) { g with pqMany := true }
  | .tbFin => .phase (dispatchByte mode 0x31#8) { g with pqMany := false }
  | .cgGen => .phase (dispatchByte mode 0x41#8) g
  | .ccWrh => .phase (dispatchByte mode 0x51#8) g
  | .bpSym => .phase (dispatchByte mode 0x61#8) { g with inPos := .lt }
  | .bpFlush => .phase (dispatchByte mode 0x61#8) { g with inPos := .eq }
  | .ccRdh => .phase (dispatchByte mode 0x71#8) g
  | .buDone => .phase (dispatchByte mode 0x81#8) { g with emitted := .eq }
  | .buRun => .phase (dispatchByte mode 0x81#8) { g with emitted := .lt, rootLeaf := true }
  | .buBit => .phase (dispatchByte mode 0x81#8) { g with emitted := .lt, rootLeaf := false }

/-- The encoder with everything a selection leaves free at zero. -/
def encode (i : Instr) : Selection := encodeWith 0#24 false Guards.none i

/-- The selection an opcode-table word stands for: 32 bits are a command word, 8 bits a dispatch
byte with no guard bit set (log 8); no row has another width (R102). -/
def tableSelection (nbits w : Nat) : Option Selection :=
  if nbits = 32 then some (.command (BitVec.ofNat 32 w))
  else if nbits = 8 then some (.phase (BitVec.ofNat 8 w) Guards.none)
  else none

/-- The operation the decoder reads from an opcode-table word. -/
def decodeTableWord (nbits w : Nat) : Option Instr :=
  match tableSelection nbits w with
  | none => none
  | some x =>
    match decode x with
    | .ok i => some i
    | .error _ => none

end Sys2Proof
end

