-- ==== Sys2Proof/Machine/BitPacker.lean ====
section
/-! DEFINITION. The Bit Packer (44_bit_packer.md). -/

namespace Sys2Proof.Machine

/-- The bit placed at the highest free position of `ACC` (R191). -/
def placeBit (bit : Bool) (s : State) : State :=
  { s with acc := setBit s.acc (bitPlace s.config.bitOrder s.nacc) bit, totalBits := s.totalBits + 1#40 }

/-- `OutByte(ACC)`, after which the accumulator is cleared (R191, R192). -/
def emitAcc (s : State) : Flow :=
  (outByte s.acc s).andThen fun s1 => .cont { s1 with acc := 0#8, nacc := 0#3 }

/-- One turn of the loop of `BP.SYM` (R191): a bit is placed; a full accumulator is written out. -/
def packBit (bit : Bool) (s : State) : Flow :=
  if s.nacc = 7#3 then emitAcc (placeBit bit s)
  else .cont { placeBit bit s with nacc := s.nacc + 1#3 }

/-- The loop of `BP.SYM` over the bits of a code (R191). -/
def packBits : Code → State → Flow
  | [], s => .cont s
  | bit :: bits, s => (packBit bit s).andThen (packBits bits)

/-- `BP.SYM` (R191): append the code of the byte at the cursor; `InternalConsistency(IN_POS)` when it
has none (60 R237). -/
def execBpSym (s : State) : Result :=
  match loadInput s s.inPos.toNat with
  | .error f => .fault f
  | .ok b =>
    match byteEntry s.code b with
    | none => .next (raise .internalConsistency (s.inPos.setWidth 64) s)
    | some bits =>
      ((packBits bits s).andThen fun s1 => .cont { s1 with inPos := s1.inPos + 1#32 }).finish

/-- The partial byte padded (R192, 00 R6 `PAD_BIT`): the low `8 - NACC` bits of `ACC`, which are 0,
take the pad bit. -/
def padAcc (s : State) : State :=
  if s.config.padBit then { s with acc := s.acc ||| (0xFF#8 >>> s.nacc.toNat) } else s

/-- The write of the partial byte by `BP.FLUSH`, if there is one (R192). Where no bit is left over,
as with an empty input (00 R6 `EMPTY_STREAM_BYTES` = 0), nothing is written. -/
def flushAcc (s : State) : Flow :=
  if s.nacc = 0#3 then .cont s else emitAcc (padAcc s)

/-- `BP.FLUSH` (R192): the end of an encode run. -/
def execBpFlush (s : State) : Result :=
  ((flushAcc s).andThen fun s1 => .cont { s1 with run := .done, phase := Phase.pNone }).finish

end Sys2Proof.Machine
end

