-- ==== Sys2Proof/Machine/BitUnpacker.lean ====
section
/-! DEFINITION. The Bit Unpacker / Tree Walker (45_bit_unpacker.md). -/

namespace Sys2Proof.Machine

/-- `BU.DONE` (R201): the end of a decode run. -/
def execBuDone (s : State) : Result :=
  .next { s with run := .done, phase := Phase.pNone }

/-- `BU.RUN` (R202): the tree is a single leaf; emit it, consuming no bit. -/
def execBuRun (s : State) : Result :=
  ((outByte (leafByte s.rootId) s).andThen fun s1 =>
    .cont { s1 with emitted := s1.emitted + 1#40 }).finish

/-- Consume the bit at the cursor (R203): the next bit of the byte, or the first of the next one. -/
def advanceBit (s : State) : State :=
  if s.bitPos = 7#3 then { s with bitPos := 0#3, inPos := s.inPos + 1#32 }
  else { s with bitPos := s.bitPos + 1#3 }

/-- The child of a node a bit selects: left for 0, right for 1 (R203). -/
def State.child (s : State) (bit : Bool) (id : NodeId) : Option NodeId :=
  if bit = Config.leftBit then s.leftChild id else s.rightChild id

/-- Back to the root after a symbol, which is counted (R203). -/
def countSymbol (s : State) : State :=
  { s with cur := some s.rootId, emitted := s.emitted + 1#40 }

/-- Move to a child (R203): at a leaf, emit its byte, count the symbol and go back to the root. -/
def moveTo (child : NodeId) (s : State) : Flow :=
  if isLeaf child then
    (outByte (leafByte child) { s with cur := some child }).andThen fun s1 => .cont (countSymbol s1)
  else .cont { s with cur := some child }

/-- The walk along a bit already consumed (R203): the child it selects is entered;
`StreamCorrupt(IN_POS)` when there is no such child (60 R236). -/
def walkBit (bit : Bool) (s : State) : Result :=
  match s.child bit s.curId with
  | none => .next (raise .streamCorrupt (s.inPos.setWidth 64) s)
  | some child => (moveTo child s).finish

/-- `BU.BIT` (R203), its errors in the order of rule 60 R242. -/
def execBuBit (s : State) : Result :=
  if s.rootKind ≠ .internal then .next (raise .streamCorrupt (s.inPos.setWidth 64) s)
  else if s.inPos = s.inLen then .next (raise .streamTruncated (s.inPos.setWidth 64) s)
  else
    match loadInput s s.inPos.toNat with
    | .error f => .fault f
    | .ok b => walkBit (streamBit s.config.bitOrder b s.bitPos) (advanceBit s)

end Sys2Proof.Machine
end

