-- ==== Sys2Proof/Machine/CodeTable.lean ====
section
/-! DEFINITION. The Code Table Generator (43_code_table_generator.md). -/

namespace Sys2Proof.Machine

/-- `visit(n, p)` of rule R181: record the accumulated path at a leaf; at an internal node visit the
left child, then the right one. `fuel` bounds the internal nodes on a path: a tree of this block
has at most 255 (42 R169), and a longer path runs into a cycle, where the traversal would not end. -/
def visit (s : State) (fuel : Nat) (n : NodeId) (p : Code)
    (t : Table (Option Code) Config.freqEntries) : Except Fault (Table (Option Code) Config.freqEntries) :=
  if isLeaf n then .ok (t.set (leafByte n).toNat (some p))
  else
    match fuel with
    | 0 => .error .traversalDoesNotEnd
    | fuel + 1 =>
      match s.leftChild n with
      | none => .error (.unwrittenChild n)
      | some l =>
        match visit s fuel l (p ++ [Config.leftBit]) t with
        | .error f => .error f
        | .ok t1 =>
          match s.rightChild n with
          | none => .error (.unwrittenChild n)
          | some r => visit s fuel r (p ++ [Config.rightBit]) t1

/-- The code table of the tree under the root (R181). -/
def codeTable (s : State) : Except Fault (Table (Option Code) Config.freqEntries) :=
  match s.rootKind with
  | .leaf => .ok (s.code.set (leafByte s.rootId).toNat (some Config.singleCode))
  | .internal => visit s Config.maxInternal s.rootId [] s.code
  | .empty | .none => .ok s.code

/-- `CG.GEN` (R181). -/
def execCgGen (s : State) : Result :=
  match codeTable s with
  | .error f => .fault f
  | .ok t => .next { s with code := t, phase := Phase.pWrh }

end Sys2Proof.Machine
end

