-- ==== Sys2Proof/Machine/Command.lean ====
section
/-! DEFINITION. The five commands (40_commands_and_sequencing.md rules R135 to R140). Each meaning
holds its column of the acceptance table of rule R140: a command the run state does not accept is
dropped, and changes nothing. -/

namespace Sys2Proof.Machine

/-- The test of the declared length by `CMD.ENCODE` and `CMD.DECODE` (R136, R137): either
`InputUnavailable(IN_LEN)` (60 R232) or the run's first phase. -/
def admitRun (first : Phase) (s : State) : State :=
  if s.ibufCap < s.inLen.toNat then raise .inputUnavailable (s.inLen.setWidth 64) s
  else { s with run := .busy, phase := first }

/-- The common body of `CMD.ENCODE` and `CMD.DECODE` (R136, R137): fresh working state, the mode,
then the test of the declared length. -/
def startRun (mode : Mode) (first : Phase) (s : State) : State :=
  admitRun first { initWork s with mode := mode }

/-- `CMD.NOP` (R135): nothing, in any run state. -/
def execCmdNop (s : State) : Result := .next s

/-- `CMD.ENCODE` (R136), accepted in `IDLE`. -/
def execCmdEncode (s : State) : Result :=
  match s.run with
  | .idle => .next (startRun .encode Phase.pFc s)
  | .busy | .done | .error => .next s

/-- `CMD.DECODE` (R137), accepted in `IDLE`. -/
def execCmdDecode (s : State) : Result :=
  match s.run with
  | .idle => .next (startRun .decode Phase.pRdh s)
  | .busy | .done | .error => .next s

/-- `CMD.CLEAR` (R138, R243): from `DONE` or `ERROR` back to `IDLE` with fresh working state. It
stands for the return from an error. -/
def execCmdClear (s : State) : Result :=
  match s.run with
  | .done | .error => .next { initWork s with run := .idle, phase := Phase.pNone }
  | .idle | .busy => .next s

/-- `CMD.RSVD` (R139): in `IDLE`, `raise BadCommand(code)` (60 R238). -/
def execCmdRsvd (code : Byte) (s : State) : Result :=
  match s.run with
  | .idle => .next (raise .badCommand (code.setWidth 64) s)
  | .busy | .done | .error => .next s

end Sys2Proof.Machine
end

