-- ==== Sys2Proof/Machine/Container.lean ====
section
/-! DEFINITION. The Container Codec (46_container_codec.md). -/

namespace Sys2Proof.Machine

/-- `CC.WRH` (R216): append the 256 counts, four bytes each, most significant first. -/
def execCcWrh (s : State) : Result :=
  ((outBytes (headerBytes s.config.hdrByteOrder s.freq) s).andThen fun s1 => .cont { s1 with phase := Phase.pBp }).finish

/-- The frequency table of the header in `IBUF` (R217). -/
def headerCounts (s : State) : Table Count Config.freqEntries :=
  Table.tabulate fun i => headerCount s i.val

/-- `CC.RDH` (R217): load the 256 counts and their sum; `MalformedContainer(IN_LEN)` when the header
is short (60 R234). -/
def execCcRdh (s : State) : Result :=
  if s.inLen.toNat < Config.hdrBytes then
    .next (raise .malformedContainer (s.inLen.setWidth 64) s)
  else if s.ibufCap < Config.hdrBytes then .fault (.inputAddress s.ibufCap)
  else
    .next { s with
      freq := headerCounts s
      nsym := sumCounts (headerCounts s)
      inPos := BitVec.ofNat 32 Config.streamOff
      bitPos := 0#3
      phase := Phase.pTbi }

end Sys2Proof.Machine
end

