-- ==== Sys2Proof/Machine/FrequencyCounter.lean ====
section
/-! DEFINITION. The Frequency Counter (41_frequency_counter.md). -/

namespace Sys2Proof.Machine

/-- `FC.CNT` (R151): count the byte at the cursor; `CountOverflow(IN_POS)` when its count is already
the greatest (60 R239). -/
def execFcCnt (s : State) : Result :=
  match loadInput s s.inPos.toNat with
  | .error f => .fault f
  | .ok b =>
    if byteEntry s.freq b = 0xFFFFFFFF#32 then
      .next (raise .countOverflow (s.inPos.setWidth 64) s)
    else
      .next { s with
        freq := s.freq.set b.toNat (byteEntry s.freq b + 1#32)
        inPos := s.inPos + 1#32 }

/-- `FC.END` (R152): the symbol count of an encode run is `IN_LEN`; the cursor is rewound. -/
def execFcEnd (s : State) : Result :=
  .next { s with nsym := s.inLen.setWidth 40, inPos := 0#32, phase := Phase.pTbi }

end Sys2Proof.Machine
end

