-- ==== Sys2Proof/Machine/TreeBuilder.lean ====
section
/-! DEFINITION. The Huffman Tree Builder (42_tree_builder.md rules R160 to R164), the same in an
encode and in a decode run. -/

namespace Sys2Proof.Machine

/-- Whether a byte value of this count gets a leaf (R160, 00 R6 `ZERO_FREQ_POLICY`). -/
def hasLeaf (policy : Config.ZeroFreqPolicy) (c : Count) : Bool :=
  match policy with
  | .exclude => decide (c ≠ 0#32)

/-- The leaves of a frequency table (R160): the ids of the byte values that get one, rising. -/
def leavesOf (policy : Config.ZeroFreqPolicy) (freq : Table Count Config.freqEntries) : List NodeId :=
  ((List.finRange 256).filter fun i => hasLeaf policy (freq.get i.val i.isLt)).map fun i =>
    BitVec.ofNat 9 i.val

/-- `NODE_W` after the leaves are inserted (R162): the entry of each leaf is its count zero-extended
to 40 bits, every other entry is left as it is. -/
def leafWeights (s : State) : Table (Option Weight) Config.maxNodes :=
  Table.tabulate fun i =>
    if h : i.val < 256 then
      if hasLeaf s.config.zeroFreqPolicy (s.freq.get i.val h) then some ((s.freq.get i.val h).setWidth 40)
      else s.nodeW.get i.val i.isLt
    else s.nodeW.get i.val i.isLt

/-- `TB.INIT` (R162). -/
def execTbInit (s : State) : Result :=
  .next { s with
    nodeW := leafWeights s
    pq := leavesOf s.config.zeroFreqPolicy s.freq
    nint := 0#9
    phase := Phase.pTbm }

/-- Make the internal node `256 + NINT` over the two extracted nodes (R163): left child `a`, right
child `b`, weight `w`; it joins `PQ`. -/
def makeNode (a b : NodeId) (w : Weight) (pq : List NodeId) (s : State) : State :=
  { s with
    nodeW := s.nodeW.set (256 + s.nint.toNat) (some w)
    nodeL := s.nodeL.set s.nint.toNat (some a)
    nodeR := s.nodeR.set s.nint.toNat (some b)
    pq := insertMember (BitVec.ofNat 9 (256 + s.nint.toNat)) pq
    nint := s.nint + 1#9 }

/-- `TB.MERGE` (R163): the two least keys become the children of a new internal node. -/
def execTbMerge (s : State) : Result :=
  match extractMin s with
  | .error f => .fault f
  | .ok (a, pq1) =>
    match extractMin { s with pq := pq1 } with
    | .error f => .fault f
    | .ok (b, pq2) =>
      if s.config.maxNodes ≤ 256 + s.nint.toNat then .fault .nodeMemoryFull
      else
        match s.weight a with
        | none => .fault (.unwrittenWeight a)
        | some wa =>
          match s.weight b with
          | none => .fault (.unwrittenWeight b)
          | some wb => .next (makeNode a b (wa + wb) pq2 s)

/-- The phase after the tree is built: the Code Table Generator in an encode run, the Bit Unpacker in
a decode run (R164). -/
def phaseAfterTree (m : Mode) : Phase :=
  match m with
  | .encode => Phase.pCg
  | .decode => Phase.pBu

/-- `TB.FIN` (R164): record the root, and what kind of node it is. -/
def execTbFin (s : State) : Result :=
  match s.pq with
  | [] => .next { s with rootKind := .empty, pq := [], phase := phaseAfterTree s.mode }
  | _ :: _ =>
    match extractMin s with
    | .error f => .fault f
    | .ok (r, _) =>
      .next { s with
        root := some r
        cur := some r
        rootKind := if isLeaf r then .leaf else .internal
        pq := []
        phase := phaseAfterTree s.mode }

end Sys2Proof.Machine
end

