-- ==== Sys2Proof/Machine/Dispatch.lean ====
section
/-! DEFINITION. One arm per operation: the meaning of each (30_encoding.md rules R101 and R102). -/

namespace Sys2Proof.Machine

/-- What each operation does, whenever it is selected. -/
def exec (i : Instr) (s : State) : Host.Outcome State Fault Refusal :=
  match i with
  | .cmdNop => Sys2Proof.Machine.execCmdNop s
  | .cmdEncode => Sys2Proof.Machine.execCmdEncode s
  | .cmdDecode => Sys2Proof.Machine.execCmdDecode s
  | .cmdClear => Sys2Proof.Machine.execCmdClear s
  | .cmdRsvd code => Sys2Proof.Machine.execCmdRsvd code s
  | .fcCnt => Sys2Proof.Machine.execFcCnt s
  | .fcEnd => Sys2Proof.Machine.execFcEnd s
  | .tbInit => Sys2Proof.Machine.execTbInit s
  | .tbMerge => Sys2Proof.Machine.execTbMerge s
  | .tbFin => Sys2Proof.Machine.execTbFin s
  | .cgGen => Sys2Proof.Machine.execCgGen s
  | .ccWrh => Sys2Proof.Machine.execCcWrh s
  | .bpSym => Sys2Proof.Machine.execBpSym s
  | .bpFlush => Sys2Proof.Machine.execBpFlush s
  | .ccRdh => Sys2Proof.Machine.execCcRdh s
  | .buDone => Sys2Proof.Machine.execBuDone s
  | .buRun => Sys2Proof.Machine.execBuRun s
  | .buBit => Sys2Proof.Machine.execBuBit s

end Sys2Proof.Machine
end

