-- ==== Sys2Proof/Machine/Flags.lean ====
section
/-! DEFINITION. The status fields, the views of them the host reads (10_state.md rules R27 to R35),
the dispatch byte and the guards of operation selection (30_encoding.md rules R98 and R102). -/

namespace Sys2Proof.Machine

/-- The code of `RUN` (R25). -/
def runCode (r : Run) : BitVec 2 :=
  match r with
  | .idle => 0#2
  | .busy => 1#2
  | .done => 2#2
  | .error => 3#2

/-- The run state of a code (R25). -/
def runOfCode (c : BitVec 2) : Run :=
  if c = 0#2 then .idle else if c = 1#2 then .busy else if c = 2#2 then .done else .error

/-- The bit `MODE` (R27). -/
def modeBit (m : Mode) : BitVec 1 :=
  match m with
  | .encode => 0#1
  | .decode => 1#1

/-- The mode of a bit (R27). -/
def modeOfBit (b : Bool) : Mode := if b then .decode else .encode

/-- The code of `ROOT_KIND` (R21). -/
def rootKindCode (k : RootKind) : BitVec 2 :=
  match k with
  | .none => 0#2
  | .empty => 1#2
  | .leaf => 2#2
  | .internal => 3#2

/-- The error code (60 R231). -/
def errCode (e : ErrKind) : BitVec 4 :=
  match e with
  | .none => 0#4
  | .inputUnavailable => 1#4
  | .outputUnwritable => 2#4
  | .malformedContainer => 3#4
  | .streamTruncated => 4#4
  | .streamCorrupt => 5#4
  | .internalConsistency => 6#4
  | .badCommand => 7#4
  | .countOverflow => 8#4

/-- `STATUS` (R30): bits 9:8 `ROOT_KIND`, 7:4 `PHASE`, 3 zero, 2 `MODE`, 1:0 `RUN`, the rest zero. -/
def State.status (s : State) : BitVec 32 :=
  0#22 ++ rootKindCode s.rootKind ++ s.phase ++ 0#1 ++ modeBit s.mode ++ runCode s.run

/-- The dispatch byte `SEL = STATUS[7:0]` (R98). -/
def State.sel (s : State) : Byte := s.status.setWidth 8

/-- `OUT_LEN` (R34): `OUT_POS` when the run is done, else 0. -/
def State.outLen (s : State) : BitVec 64 := if s.run = .done then s.outPos else 0#64

/-- `NSYM` (R35): `N` zero-extended. -/
def State.nsymView (s : State) : BitVec 64 := s.nsym.setWidth 64

/-- The comparison of two registers of equal width, unsigned (40 R143). -/
def compareRegs {w : Nat} (a b : BitVec w) : Ordering :=
  if a.ult b then .lt else if a = b then .eq else .gt

/-- The guards of rule R102 in a state. -/
def State.guards (s : State) : Guards where
  inPos := compareRegs s.inPos s.inLen
  pqMany := decide (2 ≤ s.pq.length)
  emitted := compareRegs s.emitted s.nsym
  rootLeaf := decide (s.rootKind = .leaf)

/-- What a read of the register at an aligned byte offset of the window returns (R28 to R35). `CMD`
reads 0, and so does the window at 0x28 and above. -/
def State.readRegister (s : State) (off : Nat) : BitVec 32 :=
  if off = 0x04 then s.status
  else if off = 0x08 then (errCode s.err).setWidth 32
  else if off = 0x0C then s.errInfo.extractLsb' 0 32
  else if off = 0x10 then s.errInfo.extractLsb' 32 32
  else if off = 0x14 then s.inLen
  else if off = 0x18 then s.outLen.extractLsb' 0 32
  else if off = 0x1C then s.outLen.extractLsb' 32 32
  else if off = 0x20 then s.nsymView.extractLsb' 0 32
  else if off = 0x24 then s.nsymView.extractLsb' 32 32
  else 0#32

/-- A write of a register other than `CMD` at an aligned byte offset (R28): only `IN_LEN` takes it,
and not while the core owns it (70 R266). -/
def State.writeRegister (s : State) (off : Nat) (data : BitVec 32) : State :=
  if off = 0x14 then (if s.run = .busy then s else { s with inLen := data }) else s

end Sys2Proof.Machine
end

