-- ==== Sys2Proof/Machine/Sequencer.lean ====
section
/-! DEFINITION. The selection and execution of one operation (40_commands_and_sequencing.md rule
R133), by the dispatch byte and the guards or by a command word. -/

namespace Sys2Proof.Machine

/-- Execute the operation a selection picks, or refuse where it picks none (30 R104). -/
def execSelection (x : Selection) (s : State) : Result :=
  match decode x with
  | .ok i => exec i s
  | .error (.reservedDispatch b) => .refused (.reservedDispatch b)
  | .error (.noGuardHolds b) => .refused (.noGuardHolds b)

/-- What selects the next core operation: the dispatch byte and the guards of the state (30 R98). -/
def State.selection (s : State) : Selection := .phase s.sel s.guards

/-- A core turn (R133): while `RUN = BUSY` the selected operation is executed; else no core step is
enabled and all state is retained (30 R104, 60 R251). -/
def coreTurn (s : State) : Result :=
  match s.run with
  | .busy => execSelection s.selection s
  | .idle | .done | .error => .next s

end Sys2Proof.Machine
end

