-- ==== Sys2Proof/Machine/HostPort.lean ====
section
/-! DEFINITION. The host moves (40_commands_and_sequencing.md rule R133, 70_reset_and_hazards.md
rules R260 to R269). -/

namespace Sys2Proof.Machine

/-- A register write (10 R28): offset 0 is `CMD`, whose write is a command (R29); an access that is
not at a multiple of 4 is no move of the model (U9). -/
def hostWriteReg (off : Nat) (data : BitVec 32) (s : State) : Result :=
  if off % 4 ≠ 0 then .refused (.registerAccess off)
  else if off = 0 then execSelection (.command data) s
  else .next (s.writeRegister off data)

/-- A register read (10 R28): the value goes to the host and nothing changes in the block. -/
def hostReadReg (off : Nat) (s : State) : Result :=
  if off % 4 ≠ 0 then .refused (.registerAccess off)
  else .next { s with hostData := s.readRegister off }

/-- A write of an `IBUF` byte (20 R60): discarded while the core owns the buffer (70 R266). -/
def hostWriteIbuf (addr : Nat) (data : Byte) (s : State) : Result :=
  if s.run = .busy then .next s
  else if s.ibufCap ≤ addr then .fault (.hostInputAddress addr)
  else .next { s with ibuf := s.ibuf.write addr data }

/-- An unspecified byte for the host, a fresh one each time (10 R42, U8; log 5). -/
def hostFreeByte (s : State) : State :=
  { s with hostData := (Config.freeByte s.freeReads).setWidth 32, freeReads := s.freeReads + 1 }

/-- A read of an `IBUF` byte (20 R60: while `RUN` is not `BUSY`). While `BUSY` the spec states no
value: an unspecified byte (log 7). -/
def hostReadIbuf (addr : Nat) (s : State) : Result :=
  if s.ibufCap ≤ addr then .fault (.hostInputAddress addr)
  else if s.run = .busy then .next (hostFreeByte s)
  else .next { s with hostData := (s.inputByte addr).setWidth 32 }

/-- A read of an `OBUF` byte (70 R267): defined in `DONE` below `OUT_LEN`, elsewhere an unspecified
byte and no fault (U8 (a)). -/
def hostReadObuf (addr : Nat) (s : State) : Result :=
  if addr < s.outLen.toNat then
    match s.obuf.read addr with
    | some b => .next { s with hostData := b.setWidth 32 }
    | none => .next (hostFreeByte s)
  else .next (hostFreeByte s)

/-- Assertion of `RST` (70 R260, R261), in any state: every register and table as rule 10 R40 has
it, the contents of `IBUF` and `OBUF` forgotten. The capacities are fixed; the turns to come and
what the host has read are not the block's. -/
def hostReset (s : State) : State :=
  { State.resetWith s.ibufCap s.obufCap with
    schedule := s.schedule
    hostData := s.hostData
    freeReads := s.freeReads
    resets := s.resets + 1 }

/-- One host move (R133). -/
def hostMove (m : HostMove) (s : State) : Result :=
  match m with
  | .writeReg off data => hostWriteReg off data s
  | .readReg off => hostReadReg off s
  | .writeIbuf addr data => hostWriteIbuf addr data s
  | .readIbuf addr => hostReadIbuf addr s
  | .readObuf addr => hostReadObuf addr s
  | .reset => .next (hostReset s)

/-- One turn: the core's or the host's. -/
def takeTurn (t : Turn) (s : State) : Result :=
  match t with
  | .core => coreTurn s
  | .host m => hostMove m s

/-- Whose turn it is: the first of the schedule, the core's when none is listed (log 4). -/
def State.turn (s : State) : Turn :=
  match s.schedule with
  | [] => .core
  | t :: _ => t

/-- The state with its first turn taken off the schedule. -/
def State.popTurn (s : State) : State := { s with schedule := s.schedule.tail }

/-- The registers and tables a dispatch byte and clear guards stand in (log 8): the three fields of
the byte, and the operands of the guards so that none of their bits is set. -/
def State.withSel (s : State) (sel : Byte) : State :=
  { s with
    run := runOfCode (sel.extractLsb' 0 2)
    mode := modeOfBit (sel.getLsbD 2)
    phase := sel.extractLsb' 4 4
    inPos := s.inLen
    pq := s.pq.take 1
    emitted := s.nsym
    rootKind := if s.rootKind = .leaf then .none else s.rootKind }

/-- The state with an opcode-table word placed where the next step takes its operation from: a
command word as the host's next move, a dispatch byte in the registers it is read from, the core's
turn being next (log 8). -/
def State.placeWord (s : State) (nbits w : Nat) : State :=
  match tableSelection nbits w with
  | some (.command word) => { s with schedule := .host (.writeReg 0 word) :: s.schedule }
  | some (.phase sel _) => { s.withSel sel with schedule := .core :: s.schedule }
  | none => s

end Sys2Proof.Machine
end

