-- ==== Sys2Proof/Machine/Step.lean ====
section
/-! DEFINITION. One step of the machine: one turn of the schedule (40_commands_and_sequencing.md rule
R133). -/

namespace Sys2Proof.Machine

/-- One step: the first turn is taken off the schedule and made. -/
def step (s : State) : Host.Outcome State Fault Refusal := takeTurn s.turn s.popTurn

/-- The state in which the very next step runs the operation of an opcode-table word (log 8). -/
def State.withFetchWord (s : State) (nbits w : Nat) : State := s.placeWord nbits w

end Sys2Proof.Machine
end

