-- ==== Sys2Proof/Safety.lean ====
section
/-! DEFINITION. The terms claims about the block are stated in: the table of operations (30_encoding.md
rules R101 and R102), the phase graph (40 rule R132), the invariants of the machine and of a run (10
rules R25 to R43), paths in the tree (43 rule R180) and the variant of a run (40 rule R142). -/

namespace Sys2Proof.Machine

/-! ### The table of operations -/

/-- The match value of a `PHASE`-format operation (R102). -/
def rowMatch (i : Instr) : Option Byte :=
  match i with
  | .fcCnt | .fcEnd => some 0x11#8
  | .tbInit => some 0x21#8
  | .tbMerge | .tbFin => some 0x31#8
  | .cgGen => some 0x41#8
  | .ccWrh => some 0x51#8
  | .bpSym | .bpFlush => some 0x61#8
  | .ccRdh => some 0x71#8
  | .buDone | .buRun | .buBit => some 0x81#8
  | .cmdNop | .cmdEncode | .cmdDecode | .cmdClear | .cmdRsvd _ => none

/-- The guard of a `PHASE`-format operation (R102). -/
def rowGuard (i : Instr) (g : Guards) : Prop :=
  match i with
  | .fcCnt | .bpSym => g.inPos = .lt
  | .fcEnd | .bpFlush => g.inPos = .eq
  | .tbMerge => g.pqMany = true
  | .tbFin => g.pqMany = false
  | .buDone => g.emitted = .eq
  | .buRun => g.emitted = .lt ∧ g.rootLeaf = true
  | .buBit => g.emitted = .lt ∧ g.rootLeaf = false
  | .tbInit | .cgGen | .ccWrh | .ccRdh => True
  | .cmdNop | .cmdEncode | .cmdDecode | .cmdClear | .cmdRsvd _ => False

/-- The command code of a `CMD`-format operation (R101). -/
def rowCode (i : Instr) : Option Byte :=
  match i with
  | .cmdNop => some 0x00#8
  | .cmdEncode => some 0x01#8
  | .cmdDecode => some 0x02#8
  | .cmdClear => some 0x03#8
  | .cmdRsvd code => some code
  | .fcCnt | .fcEnd | .tbInit | .tbMerge | .tbFin | .cgGen | .ccWrh | .bpSym | .bpFlush => none
  | .ccRdh | .buDone | .buRun | .buBit => none

/-- The selection is one of the operation's row: bits 7:0 of the command word are its code, or the
dispatch byte under the mask 0xF3 is its match value and its guard holds. -/
def RowSelects (i : Instr) (x : Selection) : Prop :=
  match x with
  | .command word => rowCode i = some (word.extractLsb' 0 8)
  | .phase sel g => rowMatch i = some (sel &&& 0xF3#8) ∧ rowGuard i g

/-- The operation is a command (format `CMD`). -/
def isCommand (i : Instr) : Bool := (rowCode i).isSome

/-- The table of rule R140: the run states in which a command acts. -/
def commandActs (i : Instr) (r : Run) : Bool :=
  match i with
  | .cmdEncode | .cmdDecode | .cmdRsvd _ => decide (r = .idle)
  | .cmdClear => decide (r = .done) || decide (r = .error)
  | .cmdNop => false
  | .fcCnt | .fcEnd | .tbInit | .tbMerge | .tbFin | .cgGen | .ccWrh | .bpSym | .bpFlush => false
  | .ccRdh | .buDone | .buRun | .buBit => false

/-! ### The phase graph -/

/-- The transitions of (`RUN`, `PHASE`) an operation makes from `BUSY` (R132): which operation, from
which phase, in which `MODE`, to what. -/
inductive CoreEdge : Instr → Phase → Mode → Run → Phase → Prop where
  | fcCnt (m : Mode) : CoreEdge .fcCnt Phase.pFc m .busy Phase.pFc
  | fcEnd (m : Mode) : CoreEdge .fcEnd Phase.pFc m .busy Phase.pTbi
  | ccRdh (m : Mode) : CoreEdge .ccRdh Phase.pRdh m .busy Phase.pTbi
  | tbInit (m : Mode) : CoreEdge .tbInit Phase.pTbi m .busy Phase.pTbm
  | tbMerge (m : Mode) : CoreEdge .tbMerge Phase.pTbm m .busy Phase.pTbm
  | tbFinEncode : CoreEdge .tbFin Phase.pTbm .encode .busy Phase.pCg
  | tbFinDecode : CoreEdge .tbFin Phase.pTbm .decode .busy Phase.pBu
  | cgGen (m : Mode) : CoreEdge .cgGen Phase.pCg m .busy Phase.pWrh
  | ccWrh (m : Mode) : CoreEdge .ccWrh Phase.pWrh m .busy Phase.pBp
  | bpSym (m : Mode) : CoreEdge .bpSym Phase.pBp m .busy Phase.pBp
  | bpFlush (m : Mode) : CoreEdge .bpFlush Phase.pBp m .done Phase.pNone
  | buRun (m : Mode) : CoreEdge .buRun Phase.pBu m .busy Phase.pBu
  | buBit (m : Mode) : CoreEdge .buBit Phase.pBu m .busy Phase.pBu
  | buDone (m : Mode) : CoreEdge .buDone Phase.pBu m .done Phase.pNone
  | raises (i : Instr) (p : Phase) (m : Mode) : CoreEdge i p m .error Phase.pNone

/-- The run states in which a command code acts (R140). -/
def codeActs (code : Byte) (r : Run) : Bool :=
  if code = 0x00#8 then false
  else if code = 0x03#8 then decide (r = .done) || decide (r = .error)
  else decide (r = .idle)

/-- The host moves that change (`RUN`, `PHASE`) in a run state: a reset, and a write of `CMD` with a
code that acts (R132, R140). -/
def moveActs (m : HostMove) (r : Run) : Bool :=
  match m with
  | .reset => true
  | .writeReg off w => decide (off = 0) && codeActs (w.extractLsb' 0 8) r
  | .readReg _ | .writeIbuf _ _ | .readIbuf _ | .readObuf _ => false

/-- The transitions of (`RUN`, `PHASE`) a host move makes (R132): which move, from where, to where. -/
inductive HostEdge : HostMove → Run → Phase → Run → Phase → Prop where
  | encode (w : BitVec 32) (p : Phase) : w.extractLsb' 0 8 = 0x01#8 →
      HostEdge (.writeReg 0 w) .idle p .busy Phase.pFc
  | decode (w : BitVec 32) (p : Phase) : w.extractLsb' 0 8 = 0x02#8 →
      HostEdge (.writeReg 0 w) .idle p .busy Phase.pRdh
  | commandRaises (w : BitVec 32) (p : Phase) : codeActs (w.extractLsb' 0 8) .idle = true →
      HostEdge (.writeReg 0 w) .idle p .error Phase.pNone
  | clear (w : BitVec 32) (r : Run) (p : Phase) : w.extractLsb' 0 8 = 0x03#8 →
      r = .done ∨ r = .error → HostEdge (.writeReg 0 w) r p .idle Phase.pNone
  | reset (r : Run) (p : Phase) : HostEdge .reset r p .idle Phase.pNone
  | stays (m : HostMove) (r : Run) (p : Phase) : moveActs m r = false → HostEdge m r p r p

/-! ### The invariant of the machine -/

/-- The mode a phase is entered with (R132); `P_TBI` and `P_TBM` belong to both. -/
def PhaseMode (p : Phase) (m : Mode) : Prop :=
  (p = Phase.pFc ∨ p = Phase.pCg ∨ p = Phase.pWrh ∨ p = Phase.pBp → m = .encode) ∧
    (p = Phase.pRdh ∨ p = Phase.pBu → m = .decode)

/-- What holds between any two steps, whatever the host does. -/
structure MachineInv (s : State) : Prop where
  /-- `IBUF` is in canonical form, and every byte of it lies below `IBUF_CAP` (20 R60). -/
  ibufWf : s.ibuf.wf
  ibufBelow : ∀ c ∈ s.ibuf, c.1 < s.ibufCap
  /-- `OBUF` is in canonical form, and every byte of it lies below `OBUF_CAP` (20 R60). -/
  obufWf : s.obuf.wf
  obufBelow : ∀ c ∈ s.obuf, c.1 < s.obufCap
  /-- `PQ` is a set of ids: its members in rising order (10 R24). -/
  pqRising : s.pq.Pairwise fun a b => a.toNat < b.toNat
  /-- `PHASE` is `P_NONE` exactly when `RUN` is not `BUSY`, and no reserved code (10 R25). -/
  phaseNone : s.phase = Phase.pNone ↔ s.run ≠ .busy
  phaseNamed : s.phase.toNat ≤ 8
  /-- `ERR` is nonzero exactly when `RUN = ERROR` (10 R31), and `ERR_INFO` is 0 when it is 0 (R32). -/
  errExactly : s.err ≠ .none ↔ s.run = .error
  errInfoZero : s.err = .none → s.errInfo = 0#64
  /-- `OUT_POS` never exceeds `OBUF_CAP` (10 R21). -/
  outPosBound : s.outPos.toNat ≤ s.obufCap
  /-- Every byte below `OUT_POS` has been written (10 R39 (c), 20 R73). -/
  obufFilled : ∀ a, a < s.outPos.toNat → ∃ b, s.obuf.read a = some b
  /-- In a run the cursor never passes `IN_LEN`, and the input fits `IBUF` (10 R26, 40 R136). -/
  busyCursor : s.run = .busy → s.inPos.toNat ≤ s.inLen.toNat
  busyFits : s.run = .busy → s.inLen.toNat ≤ s.ibufCap
  /-- A phase of one kind of run is entered in that mode only (40 R132). -/
  busyMode : s.run = .busy → PhaseMode s.phase s.mode
  /-- Symbols are emitted in `P_BU` only, and never more than `N` (10 R21, 45 R201). -/
  busyUnemitted : s.run = .busy → s.phase ≠ Phase.pBu → s.emitted = 0#40
  busyEmitted : s.run = .busy → s.emitted.toNat ≤ s.nsym.toNat

/-! ### The tree and its paths -/

/-- The sum of `FREQ` as a natural number (10 R22). -/
def freqSum (s : State) : Nat := (s.freq.rows.map BitVec.toNat).sum

/-- `k`: the number of nonzero entries of `FREQ` (00 R12). -/
def symbolCount (s : State) : Nat := s.freq.rows.countP fun c => decide (c ≠ 0#32)

/-- How often a byte value occurs among the first `k` bytes of `IBUF` (41 R150). -/
def inputCount (s : State) (k : Nat) (v : Byte) : Nat :=
  (List.range k).countP fun i => decide (s.inputByte i = v)

/-- A node of the tree under construction: a leaf with a nonzero count, or one of the first `j`
internal nodes (42 R160, 10 R23). -/
def Made (s : State) (j : Nat) (id : NodeId) : Prop :=
  (isLeaf id = true ∧ byteEntry s.freq (leafByte id) ≠ 0#32) ∨
    (256 ≤ id.toNat ∧ id.toNat < 256 + j)

/-- `c` is one of the two children of `id` (10 R23). -/
def IsChild (s : State) (id c : NodeId) : Prop :=
  s.leftChild id = some c ∨ s.rightChild id = some c

/-- The node table below `NINT` (10 R23, R43 (b)): each leaf made by `TB.INIT` has its weight, and
each internal node has two children made before it and a weight equal to the sum of theirs. -/
structure NodeTable (s : State) : Prop where
  nintBound : s.nint.toNat ≤ 255
  leafWeight : ∀ b : Byte, byteEntry s.freq b ≠ 0#32 →
    s.weight (leafId b) = some ((byteEntry s.freq b).setWidth 40)
  inner : ∀ id : NodeId, 256 ≤ id.toNat → id.toNat < 256 + s.nint.toNat →
    ∃ l r wl wr, s.leftChild id = some l ∧ s.rightChild id = some r ∧
      Made s (id.toNat - 256) l ∧ Made s (id.toNat - 256) r ∧
      s.weight l = some wl ∧ s.weight r = some wr ∧ s.weight id = some (wl + wr)

/-- The sum of the weights of the members of `PQ`, as a natural number (10 R43 (c)). -/
def queueWeight (s : State) : Nat :=
  (s.pq.map fun id => ((s.weight id).getD 0#40).toNat).sum

/-- The forest of phase `P_TBM` (10 R24, R43 (c)): the members of `PQ` are its roots. -/
structure Forest (s : State) : Prop extends NodeTable s where
  members : ∀ id ∈ s.pq, Made s s.nint.toNat id
  count : s.pq.length + s.nint.toNat = symbolCount s
  total : queueWeight s = freqSum s
  roots : ∀ id, Made s s.nint.toNat id →
    id ∈ s.pq ∨ ∃ p : NodeId, 256 ≤ p.toNat ∧ p.toNat < 256 + s.nint.toNat ∧ IsChild s p id

/-- The tree after `TB.FIN` (42 R164, R165, R169; 10 R43 (d)). -/
structure Tree (s : State) : Prop extends NodeTable s where
  kind : s.rootKind ≠ .none
  empty : s.rootKind = .empty → ∀ b : Byte, byteEntry s.freq b = 0#32
  leaf : s.rootKind = .leaf → ∃ r, s.root = some r ∧ isLeaf r = true ∧
    ∀ b : Byte, byteEntry s.freq b ≠ 0#32 ↔ b = leafByte r
  internal : s.rootKind = .internal → ∃ r, s.root = some r ∧ isLeaf r = false ∧
    Made s s.nint.toNat r ∧
    ∀ id, Made s s.nint.toNat id →
      id = r ∨ ∃ p : NodeId, 256 ≤ p.toNat ∧ p.toNat < 256 + s.nint.toNat ∧ IsChild s p id
  rootWeight : s.rootKind ≠ .empty → ∃ r w, s.root = some r ∧
    s.weight r = some w ∧ w.toNat = freqSum s

/-- The node reached from `id` along a sequence of edge labels, 0 left and 1 right, `none` where an
edge is missing (30 R95, 43 R180). -/
def follow (s : State) : NodeId → Code → Option NodeId
  | id, [] => some id
  | id, bit :: p =>
    match (if bit then s.rightChild id else s.leftChild id) with
    | none => none
    | some c => follow s c p

/-- The key of `a` is less than the key of `b` in the order of rule 42 R161: first by weight, then by
id, as unsigned numbers. -/
def KeyLess (s : State) (a b : NodeId) : Prop :=
  ∃ wa wb, s.weight a = some wa ∧ s.weight b = some wb ∧
    (wa.toNat < wb.toNat ∨ (wa.toNat = wb.toNat ∧ a.toNat < b.toNat))

/-! ### What `InitWork` leaves -/

/-- The working registers and tables have the values of rules R40 and R41: what `InitWork` and reset
leave. -/
structure WorkCleared (t : State) : Prop where
  inPos : t.inPos = 0#32
  outPos : t.outPos = 0#64
  nint : t.nint = 0#9
  rootKind : t.rootKind = .none
  acc : t.acc = 0#8
  nacc : t.nacc = 0#3
  totalBits : t.totalBits = 0#40
  bitPos : t.bitPos = 0#3
  emitted : t.emitted = 0#40
  nsym : t.nsym = 0#40
  freq : ∀ b : Byte, byteEntry t.freq b = 0#32
  code : ∀ b : Byte, byteEntry t.code b = none
  pq : t.pq = []
  root : t.root = none
  cur : t.cur = none
  weights : ∀ id : NodeId, t.weight id = none
  lefts : ∀ id : NodeId, t.leftChild id = none
  rights : ∀ id : NodeId, t.rightChild id = none

/-- `IN_LEN`, `IBUF`, `OBUF`, the capacities and the model's own fields are as they were (R41). -/
def BuffersKept (s t : State) : Prop :=
  t.inLen = s.inLen ∧ t.ibuf = s.ibuf ∧ t.obuf = s.obuf ∧ t.ibufCap = s.ibufCap ∧
    t.obufCap = s.obufCap ∧ t.schedule = s.schedule ∧ t.hostData = s.hostData ∧
    t.freeReads = s.freeReads ∧ t.resets = s.resets

/-! ### The packer's bits -/

/-- The bits held in `ACC`, oldest first: `ACC[7 : 8 - NACC]` (10 R37). -/
def accBits (s : State) : List Bool :=
  (List.range s.nacc.toNat).map fun i => s.acc.getLsbD (7 - i)

/-- `ACC[7 - NACC : 0]` are 0 (10 R37). -/
def AccClear (s : State) : Prop := ∀ i, i < 8 - s.nacc.toNat → s.acc.getLsbD i = false

/-! ### The invariant of a run -/

/-- The count table of an encode run, once the whole input has been scanned (41 R150). -/
def InputCounted (s : State) : Prop :=
  s.mode = .encode → ∀ v : Byte, (byteEntry s.freq v).toNat = inputCount s s.inLen.toNat v

/-- No byte has been packed and none written (10 R41). -/
def OutputFresh (s : State) : Prop :=
  s.outPos = 0#64 ∧ s.acc = 0#8 ∧ s.nacc = 0#3 ∧ s.totalBits = 0#40

/-- Every `CODE` entry is none (10 R41). -/
def CodeFresh (s : State) : Prop := ∀ b : Byte, byteEntry s.code b = none

/-- `CODE` holds a code of 1 to 255 bits exactly for the byte values that occur (43 R181 (d), R182
(a)). -/
def CodeComplete (s : State) : Prop :=
  ∀ b : Byte, (byteEntry s.freq b = 0#32 → byteEntry s.code b = none) ∧
    (byteEntry s.freq b ≠ 0#32 →
      ∃ p, byteEntry s.code b = some p ∧ 1 ≤ p.length ∧ p.length ≤ Config.maxCodeLen)

/-- What holds in each phase of a run (10 R37, R38, R43). -/
structure PhaseInv (s : State) : Prop where
  fc : s.phase = Phase.pFc → OutputFresh s ∧ CodeFresh s ∧ freqSum s = s.inPos.toNat ∧
    ∀ v : Byte, (byteEntry s.freq v).toNat = inputCount s s.inPos.toNat v
  rdh : s.phase = Phase.pRdh → OutputFresh s ∧ CodeFresh s
  tbi : s.phase = Phase.pTbi → OutputFresh s ∧ CodeFresh s ∧ InputCounted s ∧
    s.nsym.toNat = freqSum s ∧ (s.mode = .encode → s.inPos = 0#32)
  tbm : s.phase = Phase.pTbm → OutputFresh s ∧ CodeFresh s ∧ InputCounted s ∧
    s.nsym.toNat = freqSum s ∧ (s.mode = .encode → s.inPos = 0#32) ∧ Forest s
  cg : s.phase = Phase.pCg → OutputFresh s ∧ CodeFresh s ∧ InputCounted s ∧
    s.nsym.toNat = freqSum s ∧ s.inPos = 0#32 ∧ Tree s
  wrh : s.phase = Phase.pWrh → OutputFresh s ∧ CodeComplete s ∧ InputCounted s ∧
    s.nsym.toNat = freqSum s ∧ s.inPos = 0#32 ∧ Tree s
  bp : s.phase = Phase.pBp → CodeComplete s ∧ InputCounted s ∧
    s.nsym.toNat = freqSum s ∧ Tree s ∧ AccClear s ∧
    s.totalBits.toNat ≤ 255 * s.inPos.toNat ∧
    s.totalBits.toNat % 8 = s.nacc.toNat ∧
    s.outPos.toNat = Config.streamOff + s.totalBits.toNat / 8
  bu : s.phase = Phase.pBu → CodeFresh s ∧ s.nsym.toNat = freqSum s ∧ Tree s ∧
    s.outPos.toNat = s.emitted.toNat ∧
    (s.rootKind = .internal → ∃ c, s.cur = some c ∧ isLeaf c = false ∧ Made s s.nint.toNat c)

/-- The invariant of the machine with what holds in the phase of a run. -/
structure RunInv (s : State) : Prop extends MachineInv s where
  busyPhase : s.run = .busy → PhaseInv s

/-- The errors the spec keeps guards for although no input reaches them (U17, 60 R236, R237, R239). -/
def Unreachable (e : ErrKind) : Prop :=
  e = .streamCorrupt ∨ e = .internalConsistency ∨ e = .countOverflow

/-! ### The variant of a run -/

/-- The phases still to come (40 R132). -/
def phaseRank (p : Phase) : Nat :=
  if p = Phase.pFc then 7 else if p = Phase.pRdh then 7 else if p = Phase.pTbi then 6
  else if p = Phase.pTbm then 5 else if p = Phase.pCg then 4 else if p = Phase.pWrh then 3
  else if p = Phase.pBp then 2 else if p = Phase.pBu then 1 else 0

/-- The first count of what is left within a phase (40 R142). -/
def phaseLeft (s : State) : Nat :=
  if s.phase = Phase.pFc ∨ s.phase = Phase.pBp then s.inLen.toNat - s.inPos.toNat
  else if s.phase = Phase.pTbm then s.pq.length
  else if s.phase = Phase.pBu then s.nsym.toNat - s.emitted.toNat
  else 0

/-- The number of unread bits, the second count of phase `P_BU` (40 R142). -/
def unreadBits (s : State) : Nat :=
  if s.phase = Phase.pBu then 8 * (s.inLen.toNat - s.inPos.toNat) - s.bitPos.toNat else 0

/-- The variant of rule R142 is less in `t` than in `s`, in lexicographic order. -/
def VariantLess (t s : State) : Prop :=
  phaseRank t.phase < phaseRank s.phase ∨
    (phaseRank t.phase = phaseRank s.phase ∧
      (phaseLeft t < phaseLeft s ∨ (phaseLeft t = phaseLeft s ∧ unreadBits t < unreadBits s)))

/-- The two outcomes agree in everything but the contents of `OBUF`. -/
def SameButObuf (r q : Result) : Prop :=
  match r, q with
  | .next s, .next t => { s with obuf := t.obuf } = t
  | .fault f, .fault g => f = g
  | .refused f, .refused g => f = g
  | _, _ => False

/-- The two outcomes agree in everything but the contents of `IBUF`. -/
def SameButIbuf (r q : Result) : Prop :=
  match r, q with
  | .next s, .next t => { s with ibuf := t.ibuf } = t
  | .fault f, .fault g => f = g
  | .refused f, .refused g => f = g
  | _, _ => False

/-- The two states agree in everything but the contents of `IBUF` at or above `IN_LEN`. -/
def SameInput (s t : State) : Prop :=
  { s with ibuf := t.ibuf } = t ∧ ∀ a, a < s.inLen.toNat → s.inputByte a = t.inputByte a

end Sys2Proof.Machine
end

