-- ==== Sys2Proof/Certificates/Slice0/Obligations.lean ====
section
/-! DEFINITION. The statements about the HUFF codec core, for the provers. Each docstring names the
rules of the spec it formalises; `NN Rn` is rule Rn of the file spec/NN. -/

open Sys2Proof Sys2Proof.Machine

/-! ### Encodings -/

/-- 30 R97, R98, R101, R102: every operation, with its code at every value the encoding admits and
whatever stands in the bits and guards its row ignores, is decoded from its own selection. -/
def Obligations.DecodeEncodeRoundTrip : Prop :=
  ∀ (i : Instr) (ignored : BitVec 24) (mode : Bool) (g : Guards),
    wellFormed i = true → decode (encodeWith ignored mode g i) = .ok i

/-- 30 R101, R102: a selection decodes to an operation exactly when it is one of that operation's row:
bits 7:0 of a command word against the codes, a dispatch byte under the mask 0xF3 and the guard
against the match values. So no selection belongs to two rows, and no reserved one to any. -/
def Obligations.DecodeIsTheOperationTable : Prop :=
  ∀ (x : Selection) (i : Instr), decode x = .ok i ↔ (wellFormed i = true ∧ RowSelects i x)

/-- Words written out from the encodings of 30 R101 and R102. -/
def Obligations.TableWordsDecode : Prop :=
  decodeTableWord 32 0xFFFFFF01 = some .cmdEncode ∧
  decodeTableWord 32 0x00001280 = some (.cmdRsvd 0x80#8) ∧
  decode (.phase 0x15#8 { Guards.none with inPos := .lt }) = .ok .fcCnt ∧
  decode (.phase 0x35#8 { Guards.none with pqMany := true }) = .ok .tbMerge ∧
  decode (.phase 0x41#8 Guards.none) = .ok .cgGen ∧
  decode (.phase 0x61#8 Guards.none) = .ok .bpFlush ∧
  decode (.phase 0x75#8 Guards.none) = .ok .ccRdh ∧
  decode (.phase 0x85#8 { Guards.none with emitted := .lt }) = .ok .buBit ∧
  decode (.phase 0x91#8 Guards.none) = .error (.reservedDispatch 0x91#8)

/-- 30 R98: whenever `RUN = BUSY` exactly one operation is selected, and it is of format `PHASE`. -/
def Obligations.BusySelectsExactlyOneOperation : Prop :=
  ∀ s : State, MachineInv s → s.run = .busy →
    ∃ i, decode s.selection = .ok i ∧ isCommand i = false ∧
      ∀ k, rowMatch k = some (s.sel &&& 0xF3#8) → rowGuard k s.guards → k = i

/-! ### The step -/

/-- 40 R133: a core turn with `RUN = BUSY` is the execution of the selected operation. The step takes
the turn off the schedule (the model's own, log 4). -/
def Obligations.CoreTurnRunsTheSelectedOperation : Prop :=
  ∀ (s : State) (i : Instr), s.turn = .core → s.run = .busy → decode s.selection = .ok i →
    step s = exec i { s with schedule := s.schedule.tail }

/-- 10 R29, 40 R133: a write of `CMD` is the execution of the command its word selects. -/
def Obligations.CommandWriteRunsTheCommand : Prop :=
  ∀ (s : State) (w : BitVec 32) (rest : List Turn),
    s.schedule = .host (.writeReg 0 w) :: rest →
      ∃ i, decode (.command w) = .ok i ∧ isCommand i = true ∧ step s = exec i { s with schedule := rest }

/-- 30 R104: when `RUN` is not `BUSY` no core operation is selected and the core does nothing; a busy
state with a reserved dispatch value is refused, not stepped. That a busy state whose dispatch byte
matches but where no guard holds is refused too, as `noGuardHolds`, is the model's choice (log 10,
DEDUCED), and so is the turn taken off the schedule (log 4, DESIGN CHOICE). -/
def Obligations.CoreTurnWithoutAnOperation : Prop :=
  ∀ s : State, s.turn = .core →
    (s.run ≠ .busy → step s = .next { s with schedule := s.schedule.tail }) ∧
    (s.run = .busy → (∀ i, decode s.selection ≠ .ok i) →
      step s = .refused (.reservedDispatch s.sel) ∨ step s = .refused (.noGuardHolds s.sel))

/-! ### Commands -/

/-- 40 R135, R140: a command in a run state in which it does not act changes nothing at all; in one in
which it acts it completes and leaves that run state. `NOP` acts in none. -/
def Obligations.CommandsActOnlyWhereAccepted : Prop :=
  ∀ (i : Instr) (s : State), isCommand i = true →
    (commandActs i s.run = false → exec i s = .next s) ∧
    (commandActs i s.run = true → ∃ t, exec i s = .next t ∧ t.run ≠ s.run)

/-- 40 R136, 10 R41: `ENCODE` in `IDLE` with an input that fits. -/
def Obligations.EncodeStartsARun : Prop :=
  ∀ s : State, s.run = .idle → s.inLen.toNat ≤ s.ibufCap →
    ∃ t, exec .cmdEncode s = .next t ∧ t.run = .busy ∧ t.phase = Phase.pFc ∧ t.mode = .encode ∧
      t.err = .none ∧ t.errInfo = 0#64 ∧ WorkCleared t ∧ BuffersKept s t

/-- 40 R137, 10 R41: `DECODE` in `IDLE` with an input that fits. -/
def Obligations.DecodeStartsARun : Prop :=
  ∀ s : State, s.run = .idle → s.inLen.toNat ≤ s.ibufCap →
    ∃ t, exec .cmdDecode s = .next t ∧ t.run = .busy ∧ t.phase = Phase.pRdh ∧ t.mode = .decode ∧
      t.err = .none ∧ t.errInfo = 0#64 ∧ WorkCleared t ∧ BuffersKept s t

/-- 60 R232, R240: `ENCODE` or `DECODE` with `IN_LEN > IBUF_CAP` raises `InputUnavailable(IN_LEN)`
after `InitWork` and the write of `MODE`. -/
def Obligations.StartRaisesInputUnavailable : Prop :=
  ∀ s : State, s.run = .idle → s.ibufCap < s.inLen.toNat →
    (∃ t, exec .cmdEncode s = .next t ∧ t.mode = .encode ∧ t.run = .error ∧ t.phase = Phase.pNone ∧
      t.err = .inputUnavailable ∧ t.errInfo.toNat = s.inLen.toNat ∧ WorkCleared t ∧ BuffersKept s t) ∧
    (∃ t, exec .cmdDecode s = .next t ∧ t.mode = .decode ∧ t.run = .error ∧ t.phase = Phase.pNone ∧
      t.err = .inputUnavailable ∧ t.errInfo.toNat = s.inLen.toNat ∧ WorkCleared t ∧ BuffersKept s t)

/-- 40 R138, 60 R243: `CLEAR` in `DONE` or `ERROR`. -/
def Obligations.ClearReturnsToIdle : Prop :=
  ∀ s : State, s.run = .done ∨ s.run = .error →
    ∃ t, exec .cmdClear s = .next t ∧ t.run = .idle ∧ t.phase = Phase.pNone ∧ t.mode = s.mode ∧
      t.err = .none ∧ t.errInfo = 0#64 ∧ t.outLen = 0#64 ∧ WorkCleared t ∧ BuffersKept s t

/-- 40 R139, 60 R238: a reserved code in `IDLE` raises `BadCommand(code)` and touches nothing else. -/
def Obligations.ReservedCommandRaisesBadCommand : Prop :=
  ∀ (s : State) (code : Byte), s.run = .idle → 4 ≤ code.toNat →
    exec (.cmdRsvd code) s = .next { s with
      err := .badCommand, errInfo := code.setWidth 64, run := .error, phase := Phase.pNone }

/-- 10 R41, 70 R262: what an accepted command leaves depends on nothing an earlier run computed:
only on `IN_LEN`, the buffers and the capacities. -/
def Obligations.RunsStartFresh : Prop :=
  ∀ s u : State, s.run = .idle → u.run = .idle → BuffersKept s u →
    exec .cmdEncode s = exec .cmdEncode u ∧ exec .cmdDecode s = exec .cmdDecode u

/-! ### Frequency Counter -/

/-- 41 R151: `FC.CNT` counts the byte at the cursor and changes nothing else. -/
def Obligations.FcCntCountsTheByte : Prop :=
  ∀ s : State, s.inPos.toNat < s.inLen.toNat → s.inPos.toNat < s.ibufCap →
    byteEntry s.freq (s.inputByte s.inPos.toNat) ≠ 0xFFFFFFFF#32 →
    ∃ t, exec .fcCnt s = .next t ∧
      (∀ v : Byte, (byteEntry t.freq v).toNat =
        (byteEntry s.freq v).toNat + (if v = s.inputByte s.inPos.toNat then 1 else 0)) ∧
      t.inPos.toNat = s.inPos.toNat + 1 ∧
      t = { s with freq := t.freq, inPos := t.inPos }

/-- 60 R239, 41 R151: the count to increment is already `2^32 - 1`. -/
def Obligations.FcCntRaisesCountOverflow : Prop :=
  ∀ s : State, s.inPos.toNat < s.inLen.toNat → s.inPos.toNat < s.ibufCap →
    byteEntry s.freq (s.inputByte s.inPos.toNat) = 0xFFFFFFFF#32 →
    exec .fcCnt s = .next { s with
      err := .countOverflow, errInfo := s.inPos.setWidth 64, run := .error, phase := Phase.pNone }

/-- 41 R152, 45 R201: `FC.END` and `BU.DONE` complete in every state; after `BU.DONE` `OUT_LEN` reads
`OUT_POS`. -/
def Obligations.FcEndAndBuDoneComplete : Prop :=
  ∀ s : State,
    exec .fcEnd s = .next { s with
      nsym := s.inLen.setWidth 40, inPos := 0#32, phase := Phase.pTbi } ∧
    ∃ t, exec .buDone s = .next t ∧ t = { s with run := .done, phase := Phase.pNone } ∧
      t.outLen = s.outPos

/-! ### Tree Builder -/

/-- 42 R160, R162: `TB.INIT` makes exactly the leaves of nonzero count members of `PQ`, with their
counts as weights. -/
def Obligations.TbInitInsertsTheLeaves : Prop :=
  ∀ s : State, ∃ t, exec .tbInit s = .next t ∧
    (∀ id : NodeId, id ∈ t.pq ↔
      (isLeaf id = true ∧ byteEntry s.freq (leafByte id) ≠ 0#32)) ∧
    (t.pq.Pairwise fun a b => a.toNat < b.toNat) ∧
    (∀ b : Byte, byteEntry s.freq b ≠ 0#32 →
      ∃ w, t.weight (leafId b) = some w ∧ w.toNat = (byteEntry s.freq b).toNat) ∧
    (∀ id : NodeId, isLeaf id = false ∨ byteEntry s.freq (leafByte id) = 0#32 →
      t.weight id = s.weight id) ∧
    t = { s with nodeW := t.nodeW, pq := t.pq, nint := 0#9, phase := Phase.pTbm }

/-- 42 R161, R163: `TB.MERGE` joins the two members with the least keys, the first extracted as the
left child, into node `256 + NINT`. -/
def Obligations.TbMergeJoinsTheTwoLeast : Prop :=
  ∀ s : State, (s.pq.Pairwise fun a b => a.toNat < b.toNat) →
    (∀ id ∈ s.pq, ∃ w, s.weight id = some w) → 2 ≤ s.pq.length → s.nint.toNat ≤ 254 →
    ∃ (a b i : NodeId) (wa wb : Weight) (t : State), exec .tbMerge s = .next t ∧
      a ∈ s.pq ∧ b ∈ s.pq ∧ a ≠ b ∧ i.toNat = 256 + s.nint.toNat ∧
      (∀ c ∈ s.pq, c ≠ a → KeyLess s a c) ∧
      (∀ c ∈ s.pq, c ≠ a → c ≠ b → KeyLess s b c) ∧
      s.weight a = some wa ∧ s.weight b = some wb ∧
      t.weight i = some (wa + wb) ∧ t.leftChild i = some a ∧ t.rightChild i = some b ∧
      (∀ c, c ∈ t.pq ↔ (c = i ∨ (c ∈ s.pq ∧ c ≠ a ∧ c ≠ b))) ∧
      (t.pq.Pairwise fun a b => a.toNat < b.toNat) ∧
      (∀ c, c ≠ i → t.weight c = s.weight c ∧ t.leftChild c = s.leftChild c ∧
        t.rightChild c = s.rightChild c) ∧
      t.nint.toNat = s.nint.toNat + 1 ∧
      t = { s with nodeW := t.nodeW, nodeL := t.nodeL, nodeR := t.nodeR, pq := t.pq, nint := t.nint }

/-- 42 R164: `TB.FIN` on an empty `PQ`, and on one with one member. -/
def Obligations.TbFinRecordsTheRoot : Prop :=
  ∀ s : State,
    (s.pq = [] → exec .tbFin s = .next { s with
      rootKind := .empty
      phase := if s.mode = .encode then Phase.pCg else Phase.pBu }) ∧
    (∀ r : NodeId, s.pq = [r] → exec .tbFin s = .next { s with
      root := some r
      cur := some r
      rootKind := if r.toNat < 256 then .leaf else .internal
      pq := []
      phase := if s.mode = .encode then Phase.pCg else Phase.pBu })

/-! ### Code Table Generator -/

/-- 43 R181 (a), (b): a single-leaf root gets the code `0`, an empty tree no code. `rootId` is what a
read of `ROOT` gives: the id written last, or some id while `ROOT` is unwritten (log 13). -/
def Obligations.CgGenDegenerateTrees : Prop :=
  ∀ s : State,
    (s.rootKind = .empty → exec .cgGen s = .next { s with phase := Phase.pWrh }) ∧
    (∀ b : Byte, s.rootKind = .leaf → b = leafByte s.rootId →
      ∃ t, exec .cgGen s = .next t ∧ byteEntry t.code b = some [false] ∧
        (∀ v : Byte, v ≠ b → byteEntry t.code v = byteEntry s.code v) ∧
        t = { s with code := t.code, phase := Phase.pWrh })

/-- 43 R180, R181 (d): on a tree, `CG.GEN` completes and gives a code of 1 to 255 bits exactly to the
byte values that occur. -/
def Obligations.CgGenCodesExactlyTheSymbols : Prop :=
  ∀ s : State, Tree s → CodeFresh s →
    ∃ t, exec .cgGen s = .next t ∧ CodeComplete t ∧
      t = { s with code := t.code, phase := Phase.pWrh }

/-- 30 R95, 43 R180: each code of a tree with an internal root is the sequence of edge labels from the
root to the leaf of its byte value. -/
def Obligations.CgGenCodesAreRootToLeafPaths : Prop :=
  ∀ (s t : State) (r : NodeId), s.rootKind = .internal → s.root = some r → CodeFresh s →
    exec .cgGen s = .next t →
    ∀ (b : Byte) (p : Code), byteEntry t.code b = some p → follow s r p = some (leafId b)

/-- 43 R182 (b), 30 R106: no code is a prefix of another one. -/
def Obligations.CgGenCodesArePrefixFree : Prop :=
  ∀ s t : State, CodeFresh s → exec .cgGen s = .next t →
    ∀ (b c : Byte) (p q : Code), b ≠ c → byteEntry t.code b = some p → byteEntry t.code c = some q →
      ¬ p <+: q

/-! ### Container Codec -/

/-- 46 R216, 20 R62: `CC.WRH` appends the 256 counts, each as four bytes, most significant first. -/
def Obligations.CcWrhAppendsTheHeader : Prop :=
  ∀ s : State, s.outPos.toNat + 1024 ≤ s.obufCap → s.obufCap < 2 ^ 64 →
    ∃ t, exec .ccWrh s = .next t ∧
      (∀ b : Byte,
        t.obuf.read (s.outPos.toNat + 4 * b.toNat) = some ((byteEntry s.freq b).extractLsb' 24 8) ∧
        t.obuf.read (s.outPos.toNat + 4 * b.toNat + 1) = some ((byteEntry s.freq b).extractLsb' 16 8) ∧
        t.obuf.read (s.outPos.toNat + 4 * b.toNat + 2) = some ((byteEntry s.freq b).extractLsb' 8 8) ∧
        t.obuf.read (s.outPos.toNat + 4 * b.toNat + 3) = some ((byteEntry s.freq b).extractLsb' 0 8)) ∧
      (∀ a, a < s.outPos.toNat ∨ s.outPos.toNat + 1024 ≤ a → t.obuf.read a = s.obuf.read a) ∧
      t.outPos.toNat = s.outPos.toNat + 1024 ∧
      t = { s with obuf := t.obuf, outPos := t.outPos, phase := Phase.pBp }

/-- 46 R216, 60 R233: `CC.WRH` into a buffer with no room for the header writes what fits, then raises
`OutputUnwritable(OBUF_CAP)`. -/
def Obligations.CcWrhRaisesWhenFull : Prop :=
  ∀ s : State, s.outPos.toNat ≤ s.obufCap → s.obufCap < s.outPos.toNat + 1024 → s.obufCap < 2 ^ 64 →
    ∃ t, exec .ccWrh s = .next t ∧
      t.err = .outputUnwritable ∧ t.errInfo.toNat = s.obufCap ∧ t.outPos.toNat = s.obufCap ∧
      (∀ k, s.outPos.toNat + k < s.obufCap →
        t.obuf.read (s.outPos.toNat + k) = (headerBytes s.config.hdrByteOrder s.freq)[k]?) ∧
      (∀ a, a < s.outPos.toNat ∨ s.obufCap ≤ a → t.obuf.read a = s.obuf.read a) ∧
      t = { s with
        obuf := t.obuf, outPos := t.outPos, err := t.err, errInfo := t.errInfo
        run := .error, phase := Phase.pNone }

/-- 46 R217, 30 R99: `CC.RDH` loads the 256 big-endian counts and their sum, which cannot wrap. -/
def Obligations.CcRdhLoadsTheHeader : Prop :=
  ∀ s : State, 1024 ≤ s.inLen.toNat → 1024 ≤ s.ibufCap →
    ∃ t, exec .ccRdh s = .next t ∧
      (∀ b : Byte, (byteEntry t.freq b).toNat =
        (s.inputByte (4 * b.toNat)).toNat * 2 ^ 24 + (s.inputByte (4 * b.toNat + 1)).toNat * 2 ^ 16 +
          (s.inputByte (4 * b.toNat + 2)).toNat * 2 ^ 8 + (s.inputByte (4 * b.toNat + 3)).toNat) ∧
      t.nsym.toNat = freqSum t ∧
      t = { s with
        freq := t.freq, nsym := t.nsym, inPos := 1024#32, bitPos := 0#3, phase := Phase.pTbi }

/-- 60 R234, 46 R217: a container shorter than the header. -/
def Obligations.CcRdhRaisesMalformedContainer : Prop :=
  ∀ s : State, s.inLen.toNat < 1024 →
    exec .ccRdh s = .next { s with
      err := .malformedContainer, errInfo := s.inLen.setWidth 64, run := .error, phase := Phase.pNone }

/-! ### Bit Packer -/

/-- 44 R191, 20 R63, 30 R93: `BP.SYM` appends the bits of the code after those held in `ACC`, writes
each eight of them as a byte, the first in bit 7, and keeps the rest in `ACC`. -/
def Obligations.BpSymAppendsTheCode : Prop :=
  ∀ (s : State) (p : Code), s.inPos.toNat < s.inLen.toNat → s.inPos.toNat < s.ibufCap →
    byteEntry s.code (s.inputByte s.inPos.toNat) = some p →
    s.outPos.toNat + (s.nacc.toNat + p.length) / 8 ≤ s.obufCap → s.obufCap < 2 ^ 64 →
    ∃ t, exec .bpSym s = .next t ∧
      t.nacc.toNat = (s.nacc.toNat + p.length) % 8 ∧
      accBits t = (accBits s ++ p).drop (8 * ((s.nacc.toNat + p.length) / 8)) ∧
      (AccClear s → AccClear t) ∧
      (∀ k, k < (s.nacc.toNat + p.length) / 8 →
        ∃ v, t.obuf.read (s.outPos.toNat + k) = some v ∧
          ∀ j, j < 8 → v.getLsbD (7 - j) = ((accBits s ++ p)[8 * k + j]?).getD false) ∧
      (∀ a, a < s.outPos.toNat ∨ s.outPos.toNat + (s.nacc.toNat + p.length) / 8 ≤ a →
        t.obuf.read a = s.obuf.read a) ∧
      t.outPos.toNat = s.outPos.toNat + (s.nacc.toNat + p.length) / 8 ∧
      t.totalBits = s.totalBits + BitVec.ofNat 40 p.length ∧
      t = { s with
        acc := t.acc, nacc := t.nacc, totalBits := t.totalBits, obuf := t.obuf, outPos := t.outPos
        inPos := s.inPos + 1#32 }

/-- 44 R191 (2), 60 R233: `BP.SYM` with no room for the bytes of the code: the full ones that fit are
written, the bits up to the end of the next stay placed, and `OutputUnwritable(OBUF_CAP)` is raised. -/
def Obligations.BpSymRaisesWhenFull : Prop :=
  ∀ (s : State) (p : Code), s.inPos.toNat < s.inLen.toNat → s.inPos.toNat < s.ibufCap →
    byteEntry s.code (s.inputByte s.inPos.toNat) = some p →
    s.outPos.toNat ≤ s.obufCap → s.obufCap < s.outPos.toNat + (s.nacc.toNat + p.length) / 8 →
    s.obufCap < 2 ^ 64 →
    ∃ t, exec .bpSym s = .next t ∧
      t.err = .outputUnwritable ∧ t.errInfo.toNat = s.obufCap ∧ t.outPos.toNat = s.obufCap ∧
      t.nacc = 7#3 ∧
      t.totalBits = s.totalBits +
        BitVec.ofNat 40 (8 * (s.obufCap - s.outPos.toNat + 1) - s.nacc.toNat) ∧
      (∀ k, s.outPos.toNat + k < s.obufCap →
        ∃ v, t.obuf.read (s.outPos.toNat + k) = some v ∧
          ∀ j, j < 8 → v.getLsbD (7 - j) = ((accBits s ++ p)[8 * k + j]?).getD false) ∧
      (∀ j, j < 8 → t.acc.getLsbD (7 - j) =
        ((accBits s ++ p)[8 * (s.obufCap - s.outPos.toNat) + j]?).getD false) ∧
      (∀ a, a < s.outPos.toNat ∨ s.obufCap ≤ a → t.obuf.read a = s.obuf.read a) ∧
      t = { s with
        acc := t.acc, nacc := t.nacc, totalBits := t.totalBits, obuf := t.obuf, outPos := t.outPos
        err := t.err, errInfo := t.errInfo, run := .error, phase := Phase.pNone }

/-- 44 R191 (1), 60 R237: the input byte has no code; nothing is placed or written. -/
def Obligations.BpSymRaisesInternalConsistency : Prop :=
  ∀ s : State, s.inPos.toNat < s.inLen.toNat → s.inPos.toNat < s.ibufCap →
    byteEntry s.code (s.inputByte s.inPos.toNat) = none →
    exec .bpSym s = .next { s with
      err := .internalConsistency, errInfo := s.inPos.setWidth 64, run := .error, phase := Phase.pNone }

/-- 44 R192: `BP.FLUSH` with no bits held, with bits held and room, and with bits held and none. -/
def Obligations.BpFlushEndsTheRun : Prop :=
  ∀ s : State,
    (s.nacc = 0#3 → exec .bpFlush s = .next { s with run := .done, phase := Phase.pNone }) ∧
    (s.nacc ≠ 0#3 → s.outPos.toNat ≠ s.obufCap →
      exec .bpFlush s = .next { s with
        obuf := s.obuf.write s.outPos.toNat s.acc, outPos := s.outPos + 1#64
        acc := 0#8, nacc := 0#3, run := .done, phase := Phase.pNone }) ∧
    (s.nacc ≠ 0#3 → s.outPos.toNat = s.obufCap →
      exec .bpFlush s = .next { s with
        err := .outputUnwritable, errInfo := s.outPos, run := .error, phase := Phase.pNone })

/-! ### Bit Unpacker -/

/-- 45 R202: `BU.RUN` emits the only symbol, `ROOT[7:0]`, and consumes no bit, or finds the output
buffer full. While `ROOT` is unwritten the byte is some byte (log 13). -/
def Obligations.BuRunEmitsTheOnlySymbol : Prop :=
  ∀ (s : State) (b : Byte), b = leafByte s.rootId →
    (s.outPos.toNat ≠ s.obufCap → exec .buRun s = .next { s with
      obuf := s.obuf.write s.outPos.toNat b, outPos := s.outPos + 1#64, emitted := s.emitted + 1#40 }) ∧
    (s.outPos.toNat = s.obufCap → exec .buRun s = .next { s with
      err := .outputUnwritable, errInfo := s.outPos, run := .error, phase := Phase.pNone })

/-- 45 R203, 30 R100: `BU.BIT` consumes bit `7 - BITPOS` of the byte at the cursor and moves to the
child it selects: an internal node is entered; at a leaf its byte is emitted and the walker goes
back to the root, or finds the output buffer full; a missing child is `StreamCorrupt`. That a child
entry no run has written counts as a child that does not exist, and not as the fault of 10 R42, is
the model's reading of R203 (log 10, DEDUCED). `rootId` and `curId` are what reads of `ROOT` and `CUR`
give: the id written last, or some id while unwritten (log 13). -/
def Obligations.BuBitWalksOneEdge : Prop :=
  ∀ (s : State) (c : NodeId) (bit : Bool) (inPos : BitVec 32) (bitPos : BitVec 3),
    s.rootKind = .internal → s.inPos.toNat < s.inLen.toNat → s.inPos.toNat < s.ibufCap →
    c = s.curId →
    bit = (s.inputByte s.inPos.toNat).getLsbD (7 - s.bitPos.toNat) →
    inPos = (if s.bitPos = 7#3 then s.inPos + 1#32 else s.inPos) →
    bitPos = (if s.bitPos = 7#3 then 0#3 else s.bitPos + 1#3) →
    (∀ d, (if bit then s.rightChild c else s.leftChild c) = some d → 256 ≤ d.toNat →
      exec .buBit s = .next { s with inPos := inPos, bitPos := bitPos, cur := some d }) ∧
    (∀ (b : Byte) (r : NodeId),
      (if bit then s.rightChild c else s.leftChild c) = some (leafId b) → r = s.rootId →
      s.outPos.toNat ≠ s.obufCap →
      exec .buBit s = .next { s with
        inPos := inPos, bitPos := bitPos, cur := some r, emitted := s.emitted + 1#40
        obuf := s.obuf.write s.outPos.toNat b, outPos := s.outPos + 1#64 }) ∧
    (∀ b : Byte, (if bit then s.rightChild c else s.leftChild c) = some (leafId b) →
      s.outPos.toNat = s.obufCap →
      exec .buBit s = .next { s with
        inPos := inPos, bitPos := bitPos, cur := some (leafId b)
        err := .outputUnwritable, errInfo := s.outPos, run := .error, phase := Phase.pNone }) ∧
    ((if bit then s.rightChild c else s.leftChild c) = none →
      exec .buBit s = .next { s with
        inPos := inPos, bitPos := bitPos
        err := .streamCorrupt, errInfo := inPos.setWidth 64, run := .error, phase := Phase.pNone })

/-- 60 R235, R236, R242: `BU.BIT` with no internal root is `StreamCorrupt`, and then, with no bit left,
`StreamTruncated`; nothing is consumed. -/
def Obligations.BuBitRaisesBeforeTheWalk : Prop :=
  ∀ s : State,
    (s.rootKind ≠ .internal → exec .buBit s = .next { s with
      err := .streamCorrupt, errInfo := s.inPos.setWidth 64, run := .error, phase := Phase.pNone }) ∧
    (s.rootKind = .internal → s.inPos = s.inLen → exec .buBit s = .next { s with
      err := .streamTruncated, errInfo := s.inPos.setWidth 64, run := .error, phase := Phase.pNone })

/-! ### Where an operation stops

The model's fault where the spec asks for one (10 R42) or names no such access. No run meets any of
them: `BusyCoreTurnsNeverStop`. -/

/-- 10 R42, 93 U8 (c): an operation that reads an unwritten weight of two or more `PQ` members, or a
child entry in the traversal of `CG.GEN`, faults. In the traversal the fault names a node without a
child, unless a path of 255 edges to an internal node comes first (log 10, DEDUCED). An unwritten
child met by `BU.BIT` is not here: it is `StreamCorrupt` (`BuBitWalksOneEdge`; log 10). -/
def Obligations.UnwrittenReadsFault : Prop :=
  ∀ s : State,
    (∀ i, i = .tbMerge ∨ i = .tbFin → 2 ≤ s.pq.length → (∃ id ∈ s.pq, s.weight id = none) →
      ∃ id ∈ s.pq, s.weight id = none ∧ exec i s = .fault (.unwrittenWeight id)) ∧
    (s.rootKind = .internal → isLeaf s.rootId = false → s.leftChild s.rootId = none →
      exec .cgGen s = .fault (.unwrittenChild s.rootId)) ∧
    (∀ l : NodeId, s.rootKind = .internal → isLeaf s.rootId = false →
      s.leftChild s.rootId = some l → isLeaf l = true → s.rightChild s.rootId = none →
      exec .cgGen s = .fault (.unwrittenChild s.rootId)) ∧
    (∀ (n : NodeId) (p : Code), s.rootKind = .internal →
      follow s s.rootId p = some n → isLeaf n = false → s.leftChild n = none ∨ s.rightChild n = none →
      (∃ m, isLeaf m = false ∧ (s.leftChild m = none ∨ s.rightChild m = none) ∧
        exec .cgGen s = .fault (.unwrittenChild m)) ∨
      (∃ m q, follow s s.rootId q = some m ∧ isLeaf m = false ∧ q.length = 255 ∧
        exec .cgGen s = .fault .traversalDoesNotEnd))

/-- 10 R42: wherever an operation selected in a run reads `ROOT` or `CUR`, the run has written it, so
that this derivation of the spec is checked and not assumed. In the states where one of them is
unwritten, which no run reaches, its read is no stop: `BU.RUN` completes in every state, and so does
`BU.BIT` wherever its load of `IBUF` is one (log 13). -/
def Obligations.RootAndCurAreWrittenWhereRead : Prop :=
  (∀ (s : State) (i : Instr), RunInv s → s.run = .busy → decode s.selection = .ok i →
    (i = .buRun ∨ (i = .cgGen ∧ s.rootKind ≠ .empty) → s.root = some s.rootId) ∧
    (i = .buBit → s.root = some s.rootId ∧ s.cur = some s.curId)) ∧
  (∀ s : State, ∃ t, exec .buRun s = .next t) ∧
  (∀ s : State, s.rootKind ≠ .internal ∨ s.inPos = s.inLen ∨
    (s.inPos.toNat < s.inLen.toNat ∧ s.inPos.toNat < s.ibufCap) → ∃ t, exec .buBit s = .next t)

/-- 10 R23, 42 R161, log 10: `TB.MERGE` executed outside its guard, or with no id left, stops. -/
def Obligations.MergeWithoutTwoMembersStops : Prop :=
  ∀ s : State,
    (s.pq.length ≤ 1 → exec .tbMerge s = .fault .emptyQueue) ∧
    (2 ≤ s.pq.length → (∀ id ∈ s.pq, ∃ w, s.weight id = some w) → 255 ≤ s.nint.toNat →
      exec .tbMerge s = .fault .nodeMemoryFull)

/-- 00 R9, 20 R60, 93 U9: a load of `IBUF` by an operation at or above `IN_LEN` or `IBUF_CAP`, a host
access outside `IBUF` (a write only outside a run: while `BUSY` it is discarded,
`BusyInputIsTheCores`) and an unaligned register access stop by name. That they are the faults and
the refusal of these names is the model's choice (logs 9 and 10). -/
def Obligations.AccessesThatDoNotExistStop : Prop :=
  ∀ s : State,
    (s.inLen.toNat ≤ s.inPos.toNat ∨ s.ibufCap ≤ s.inPos.toNat →
      exec .fcCnt s = .fault (.inputAddress s.inPos.toNat) ∧
      exec .bpSym s = .fault (.inputAddress s.inPos.toNat) ∧
      (s.rootKind = .internal → s.inPos ≠ s.inLen →
        exec .buBit s = .fault (.inputAddress s.inPos.toNat))) ∧
    (1024 ≤ s.inLen.toNat → s.ibufCap < 1024 → exec .ccRdh s = .fault (.inputAddress s.ibufCap)) ∧
    (∀ (a : Nat) (b : Byte), s.ibufCap ≤ a →
      hostMove (.readIbuf a) s = .fault (.hostInputAddress a) ∧
      (s.run ≠ .busy → hostMove (.writeIbuf a b) s = .fault (.hostInputAddress a))) ∧
    (∀ (off : Nat) (v : BitVec 32), off % 4 ≠ 0 →
      hostMove (.readReg off) s = .refused (.registerAccess off) ∧
      hostMove (.writeReg off v) s = .refused (.registerAccess off))

/-! ### Host moves and reset -/

/-- 10 R30, and R21 and R25 for the codes of its fields: the fields of `STATUS`, the rest of it zero; a
write of it is ignored. -/
def Obligations.StatusFieldsReadTheState : Prop :=
  (∀ s : State,
    (∀ v : BitVec 32, hostMove (.writeReg 0x04 v) s = .next s) ∧
    hostMove (.readReg 0x04) s = .next { s with hostData := s.status } ∧
    s.status.extractLsb' 0 2 = (if s.run = .idle then 0#2 else if s.run = .busy then 1#2
      else if s.run = .done then 2#2 else 3#2) ∧
    s.status.extractLsb' 2 1 = (if s.mode = .encode then 0#1 else 1#1) ∧
    s.status.extractLsb' 3 1 = 0#1 ∧ s.status.extractLsb' 4 4 = s.phase ∧
    s.status.extractLsb' 8 2 = (if s.rootKind = .none then 0#2 else if s.rootKind = .empty then 1#2
      else if s.rootKind = .leaf then 2#2 else 3#2) ∧
    s.status.extractLsb' 10 22 = 0#22) ∧
  [Phase.pNone, Phase.pFc, Phase.pTbi, Phase.pTbm, Phase.pCg, Phase.pWrh, Phase.pBp, Phase.pRdh,
    Phase.pBu] = [0#4, 1#4, 2#4, 3#4, 4#4, 5#4, 6#4, 7#4, 8#4]

/-- 10 R28, R29, R31 to R35, 60 R231: what the other registers of the window read, the 64-bit ones as
two halves, `ERR` by the codes of R231; `CMD` and the offsets from 0x28 on read 0. That the window
has no upper end, so that every such offset is within it, is the model's choice (log 9, DEDUCED). -/
def Obligations.WindowReadsTheRegisters : Prop :=
  ∀ s : State,
    s.readRegister 0x00 = 0#32 ∧
    s.readRegister 0x08 = (if s.err = .none then 0#32 else if s.err = .inputUnavailable then 1#32
      else if s.err = .outputUnwritable then 2#32 else if s.err = .malformedContainer then 3#32
      else if s.err = .streamTruncated then 4#32 else if s.err = .streamCorrupt then 5#32
      else if s.err = .internalConsistency then 6#32 else if s.err = .badCommand then 7#32
      else 8#32) ∧
    s.readRegister 0x10 ++ s.readRegister 0x0C = s.errInfo ∧
    s.readRegister 0x14 = s.inLen ∧
    s.readRegister 0x1C ++ s.readRegister 0x18 = (if s.run = .done then s.outPos else 0#64) ∧
    s.readRegister 0x24 ++ s.readRegister 0x20 = 0#24 ++ s.nsym ∧
    ∀ off, 0x28 ≤ off → s.readRegister off = 0#32

/-- 20 R67, 40 R133: a read changes nothing in the block, only what the host has read (the model's own
fields, logs 5 and 6); a read of an aligned register completes, at any offset because the model
gives the window no upper end (log 9, DEDUCED). -/
def Obligations.HostReadsChangeNothing : Prop :=
  (∀ (s : State) (off : Nat), off % 4 = 0 →
    hostMove (.readReg off) s = .next { s with hostData := s.readRegister off }) ∧
  (∀ (s t : State) (a : Nat),
    (hostMove (.readIbuf a) s = .next t ∨ hostMove (.readObuf a) s = .next t) →
    t = { s with hostData := t.hostData, freeReads := t.freeReads })

/-- 70 R266: while `RUN = BUSY` host writes of `IN_LEN` and `IBUF` are discarded; 10 R28: writes of
every other register but `CMD` are always ignored. That the discard comes before the test of an
address outside `IBUF`, and that the window has no upper end, is the model's choice (log 9). -/
def Obligations.BusyInputIsTheCores : Prop :=
  (∀ (s : State) (v : BitVec 32) (a : Nat) (b : Byte), s.run = .busy →
    hostMove (.writeReg 0x14 v) s = .next s ∧ hostMove (.writeIbuf a b) s = .next s) ∧
  (∀ (s : State) (off : Nat) (v : BitVec 32), off % 4 = 0 → off ≠ 0 → off ≠ 0x14 →
    hostMove (.writeReg off v) s = .next s)

/-- 10 R33, 20 R60: outside a run the host writes `IN_LEN` and the bytes of `IBUF`, and nothing else
changes; a read of `IBUF` returns the byte that is there, so the byte just written. -/
def Obligations.HostWritesLandOutsideARun : Prop :=
  ∀ (s : State), s.run ≠ .busy →
    (∀ v : BitVec 32, hostMove (.writeReg 0x14 v) s = .next { s with inLen := v }) ∧
    (∀ (a : Nat) (b : Byte), a < s.ibufCap → ∃ t, hostMove (.writeIbuf a b) s = .next t ∧
      t.inputByte a = b ∧ (∀ c, c ≠ a → t.inputByte c = s.inputByte c) ∧
      t = { s with ibuf := t.ibuf } ∧
      hostMove (.readIbuf a) t = .next { t with hostData := b.setWidth 32 }) ∧
    (∀ a : Nat, a < s.ibufCap →
      hostMove (.readIbuf a) s = .next { s with hostData := (s.inputByte a).setWidth 32 })

/-- 70 R267: in `DONE`, below `OUT_LEN`, a read of `OBUF` gives the byte written there, and one has been
written there in every state the invariant admits; elsewhere an unspecified byte and no fault. That
such reads are counted is the model's choice (log 5). -/
def Obligations.ObufReadsAreDefinedWhenDone : Prop :=
  ∀ (s : State) (a : Nat),
    (∀ b : Byte, s.run = .done → a < s.outPos.toNat → s.obuf.read a = some b →
      hostMove (.readObuf a) s = .next { s with hostData := b.setWidth 32 }) ∧
    (MachineInv s → s.run = .done → a < s.outPos.toNat →
      ∃ b, s.obuf.read a = some b ∧
        hostMove (.readObuf a) s = .next { s with hostData := b.setWidth 32 }) ∧
    (s.run ≠ .done ∨ s.outPos.toNat ≤ a →
      ∃ t, hostMove (.readObuf a) s = .next t ∧
        t = { s with hostData := t.hostData, freeReads := s.freeReads + 1 })

/-- 70 R260, R261, 10 R40: `RST` in any state, a busy one too. -/
def Obligations.ResetMoveFromAnyState : Prop :=
  ∀ s : State, ∃ t, hostMove .reset s = .next t ∧ t.run = .idle ∧ t.phase = Phase.pNone ∧
    t.mode = .encode ∧ t.err = .none ∧ t.errInfo = 0#64 ∧ t.inLen = 0#32 ∧ WorkCleared t ∧
    t.ibuf = [] ∧ t.obuf = [] ∧ t.ibufCap = s.ibufCap ∧ t.obufCap = s.obufCap

/-- 10 R40, 70 R261: the values of the state after reset. -/
def Obligations.ResetStateHasTheSpecsValues : Prop :=
  State.reset.run = .idle ∧ State.reset.phase = Phase.pNone ∧ State.reset.mode = .encode ∧
    State.reset.err = .none ∧ State.reset.errInfo = 0#64 ∧ State.reset.inLen = 0#32 ∧
    State.reset.status = 0#32 ∧ State.reset.outLen = 0#64 ∧ State.reset.nsymView = 0#64 ∧
    WorkCleared State.reset

/-! ### Rules of the whole machine -/

/-- 40 R132: the only transitions of (`RUN`, `PHASE`) are those of the phase graph, each by the
operation or the host move the graph names. -/
def Obligations.PhaseGraphIsFollowed : Prop :=
  (∀ (s t : State) (i : Instr), s.run = .busy → decode s.selection = .ok i →
    coreTurn s = .next t → CoreEdge i s.phase s.mode t.run t.phase) ∧
  (∀ (s t : State) (m : HostMove), hostMove m s = .next t → HostEdge m s.run s.phase t.run t.phase)

/-- 10 R27, R33, 20 R60, 40 R145: no core turn changes `MODE`, `IN_LEN`, `IBUF`, the capacities or
anything of the host's. -/
def Obligations.CoreTurnsLeaveTheInputAlone : Prop :=
  ∀ s t : State, coreTurn s = .next t →
    t.mode = s.mode ∧ t.inLen = s.inLen ∧ t.ibuf = s.ibuf ∧ t.ibufCap = s.ibufCap ∧
      t.obufCap = s.obufCap ∧ t.schedule = s.schedule ∧ t.hostData = s.hostData ∧
      t.freeReads = s.freeReads ∧ t.resets = s.resets

/-- 40 R145: no byte already written in the run is overwritten, `OUT_POS` never falls, and no byte at
or above it changes but those now below it. -/
def Obligations.WrittenOutputIsNeverOverwritten : Prop :=
  ∀ s t : State, s.outPos.toNat ≤ s.obufCap → s.obufCap < 2 ^ 64 → coreTurn s = .next t →
    s.outPos.toNat ≤ t.outPos.toNat ∧
      ∀ a, a < s.outPos.toNat ∨ t.outPos.toNat ≤ a → t.obuf.read a = s.obuf.read a

/-- 60 R240: an operation that raises leaves `MODE`, `ROOT_KIND`, `NSYM` and every table as they were,
and `OUT_LEN` reads 0. -/
def Obligations.RaisingLeavesTheTables : Prop :=
  ∀ s t : State, s.run = .busy → coreTurn s = .next t → t.run = .error →
    t.phase = Phase.pNone ∧ t.err ≠ .none ∧ t.outLen = 0#64 ∧ t.mode = s.mode ∧
      t.rootKind = s.rootKind ∧ t.nsym = s.nsym ∧ t.freq = s.freq ∧ t.nodeW = s.nodeW ∧
      t.nodeL = s.nodeL ∧ t.nodeR = s.nodeR ∧ t.pq = s.pq ∧ t.code = s.code ∧ t.nint = s.nint ∧
      t.root = s.root ∧ t.emitted = s.emitted ∧ t.ibuf = s.ibuf ∧ t.inLen = s.inLen

/-- 40 R141, 60 R244: `DONE` and `ERROR` are stable: a step keeps the outcome and its registers,
unless it is a write of `CLEAR` or a reset, which leads to `IDLE`. -/
def Obligations.OutcomesAreStable : Prop :=
  ∀ s t : State, (s.run = .done ∨ s.run = .error) → step s = .next t →
    (t.run = s.run ∧ t.phase = s.phase ∧ t.mode = s.mode ∧ t.rootKind = s.rootKind ∧ t.err = s.err ∧
      t.errInfo = s.errInfo ∧ t.outPos = s.outPos ∧ t.nsym = s.nsym ∧ t.obuf = s.obuf) ∨
    (t.run = .idle ∧ (s.turn = .host .reset ∨
      ∃ w : BitVec 32, w.extractLsb' 0 8 = 0x03#8 ∧ s.turn = .host (.writeReg 0 w)))

/-- 40 R142: while `RUN = BUSY` every core turn decreases the variant or ends the run, so that every
run ends. -/
def Obligations.CoreTurnsDecreaseTheVariant : Prop :=
  ∀ s t : State, s.run = .busy → coreTurn s = .next t → t.run ≠ .busy ∨ VariantLess t s

/-- 20 R60, 40 R145: the core does not read `OBUF`: with other contents of it, a core turn has the
same outcome in everything else. -/
def Obligations.CoreNeverReadsTheOutput : Prop :=
  ∀ (s : State) (o : Memory), SameButObuf (coreTurn s) (coreTurn { s with obuf := o })

/-- 00 R9, 70 R262: of `IBUF` the core reads bytes below `IN_LEN` only. -/
def Obligations.CoreReadsOnlyTheDeclaredInput : Prop :=
  ∀ s u : State, SameInput s u → SameButIbuf (coreTurn s) (coreTurn u)

/-- 10 R24, R25, R26, R31, R32, 20 R60, 40 R132: the invariant of the machine holds after reset. -/
def Obligations.ResetMeetsTheMachineInvariant : Prop := MachineInv State.reset

/-- 10 R24, R25, R26, R31, R32, R39 (c), 20 R60, 40 R132: every step keeps the invariant of the machine,
whatever the host does. -/
def Obligations.StepKeepsTheMachineInvariant : Prop :=
  ∀ s t : State, MachineInv s → step s = .next t → MachineInv t

/-- 10 R37, R38, R43: the invariant of a run holds after reset. -/
def Obligations.ResetMeetsTheRunInvariant : Prop := RunInv State.reset

/-- 10 R37, R38, R43: every step keeps the invariant of a run. -/
def Obligations.StepKeepsTheRunInvariant : Prop :=
  ∀ s t : State, RunInv s → step s = .next t → RunInv t

/-- 93 U8 (c), U17, 30 R104, 60 R236, R237, R239: in a run every core turn answers a next state: no
unwritten table entry is read, no reserved dispatch is met, and none of the errors called
unreachable is raised. -/
def Obligations.BusyCoreTurnsNeverStop : Prop :=
  ∀ s : State, RunInv s → s.run = .busy → s.turn = .core →
    ∃ t, step s = .next t ∧ ¬ Unreachable t.err
end

