-- ==== Sys2Proof/Laws/Memory.lean ====
section
/-! SUPPORT. The laws of a byte buffer: a read after a write, and the canonical form kept by every
write. -/

namespace Sys2Proof.Machine

@[simp] theorem Memory.read_nil (a : Nat) : Memory.read [] a = none := rfl

theorem Memory.read_write (m : Memory) (a : Nat) (b : Byte) (c : Nat) :
    (m.write a b).read c = if c = a then some b else m.read c := by
  induction m with
  | nil => simp [Memory.write, Memory.read]
  | cons x rest ih =>
    obtain ⟨a', b'⟩ := x
    simp only [Memory.write]
    split
    · simp [Memory.read]
    · split
      · rename_i h1 h2
        subst h2
        simp only [Memory.read]
        split <;> simp_all
      · rename_i h1 h2
        simp only [Memory.read, ih]
        split
        · rename_i h3
          subst h3
          simp [Ne.symm h2]
        · rfl

@[simp] theorem Memory.read_write_same (m : Memory) (a : Nat) (b : Byte) :
    (m.write a b).read a = some b := by
  simp [Memory.read_write]

theorem Memory.read_write_ne (m : Memory) {a c : Nat} (b : Byte) (h : c ≠ a) :
    (m.write a b).read c = m.read c := by
  simp [Memory.read_write, h]

/-- The addresses of a buffer after a write. -/
theorem Memory.mem_write {m : Memory} {a : Nat} {b : Byte} {x : Host.Cell} (h : x ∈ m.write a b) :
    x = (a, b) ∨ x ∈ m := by
  induction m with
  | nil => simpa [Memory.write] using h
  | cons y rest ih =>
    obtain ⟨a', b'⟩ := y
    simp only [Memory.write] at h
    split at h
    · simpa using h
    · split at h
      · rcases List.mem_cons.mp h with h | h
        · exact .inl h
        · exact .inr (List.mem_cons_of_mem _ h)
      · rcases List.mem_cons.mp h with h | h
        · exact .inr (h ▸ List.mem_cons_self)
        · exact (ih h).imp id (List.mem_cons_of_mem _)

/-- A write keeps the canonical form. -/
theorem Memory.wf_write {m : Memory} (h : m.wf) (a : Nat) (b : Byte) : (m.write a b).wf := by
  induction m with
  | nil => simp [Memory.write, Memory.wf]
  | cons y rest ih =>
    obtain ⟨a', b'⟩ := y
    simp only [Memory.wf, List.pairwise_cons] at h ih ⊢
    simp only [Memory.write]
    split
    · rename_i h1
      refine List.pairwise_cons.mpr ⟨?_, List.pairwise_cons.mpr h⟩
      intro x hx
      rcases List.mem_cons.mp hx with hx | hx
      · simpa [hx] using h1
      · exact Nat.lt_trans h1 (h.1 x hx)
    · split
      · rename_i h1 h2
        subst h2
        exact List.pairwise_cons.mpr ⟨h.1, h.2⟩
      · rename_i h1 h2
        refine List.pairwise_cons.mpr ⟨?_, ih h.2⟩
        intro x hx
        rcases Memory.mem_write hx with hx | hx
        · subst hx; simp; omega
        · exact h.1 x hx

/-- Two buffers in canonical form that read alike are equal. -/
theorem Memory.ext_read {m n : Memory} (hm : m.wf) (hn : n.wf) (h : ∀ a, m.read a = n.read a) :
    m = n := by
  have below : ∀ {l : Memory} {a : Nat}, (∀ x ∈ l, a < x.1) → Memory.read l a = none := by
    intro l a
    induction l with
    | nil => simp
    | cons y rest ih =>
      intro hl
      have := hl y List.mem_cons_self
      obtain ⟨a', b'⟩ := y
      simp only [Memory.read]
      rw [if_neg (by simp at this; omega)]
      exact ih fun x hx => hl x (List.mem_cons_of_mem _ hx)
  induction m generalizing n with
  | nil =>
    cases n with
    | nil => rfl
    | cons y rest =>
      obtain ⟨a', b'⟩ := y
      have := h a'
      simp [Memory.read] at this
  | cons x rest ih =>
    obtain ⟨a, b⟩ := x
    cases n with
    | nil => have := h a; simp [Memory.read] at this
    | cons y rest' =>
      obtain ⟨a', b'⟩ := y
      simp only [Memory.wf, List.pairwise_cons] at hm hn ih
      have hl : ∀ {c : Nat}, c ≤ a → Memory.read rest c = none := fun hc =>
        below fun x hx => Nat.lt_of_le_of_lt hc (hm.1 x hx)
      have hr : ∀ {c : Nat}, c ≤ a' → Memory.read rest' c = none := fun hc =>
        below fun x hx => Nat.lt_of_le_of_lt hc (hn.1 x hx)
      have haa : a = a' := by
        rcases Nat.lt_trichotomy a a' with hlt | heq | hgt
        · have := h a
          simp [Memory.read, hr (Nat.le_of_lt hlt), Nat.ne_of_lt hlt] at this
        · exact heq
        · have := h a'
          simp [Memory.read, hl (Nat.le_of_lt hgt), Nat.ne_of_lt hgt] at this
      subst haa
      have hbb : b = b' := by simpa [Memory.read] using h a
      subst hbb
      congr 1
      refine ih hm.2 hn.2 fun c => ?_
      by_cases hc : c = a
      · subst hc; rw [hl (Nat.le_refl _), hr (Nat.le_refl _)]
      · simpa [Memory.read, hc] using h c

end Sys2Proof.Machine
end

