-- ==== Sys2Proof/Laws/State.lean ====
section
/-! SUPPORT. One lemma per field and update of the state: what each shared update leaves in each
field. -/

namespace Sys2Proof.Machine

/-! The configuration record (00 R6), field by field as the meanings read it. -/

@[simp] theorem config_maxNodes (s : State) : s.config.maxNodes = 511 := rfl
@[simp] theorem config_padBit (s : State) : s.config.padBit = false := rfl
@[simp] theorem config_ibufCap (s : State) : s.config.ibufCap = s.ibufCap := rfl
@[simp] theorem config_obufCap (s : State) : s.config.obufCap = s.obufCap := rfl

/-! `ROOT` and `CUR` as they are read: what was written, if anything was. -/

theorem rootId_some {s : State} {r : NodeId} (h : s.root = some r) : s.rootId = r := by
  simp [State.rootId, h]

theorem curId_some {s : State} {c : NodeId} (h : s.cur = some c) : s.curId = c := by
  simp [State.curId, h]

/-! The phases as numbers, so that `simp` tells them apart. -/

@[simp] theorem phase_pNone : Phase.pNone = 0#4 := rfl
@[simp] theorem phase_pFc : Phase.pFc = 1#4 := rfl
@[simp] theorem phase_pTbi : Phase.pTbi = 2#4 := rfl
@[simp] theorem phase_pTbm : Phase.pTbm = 3#4 := rfl
@[simp] theorem phase_pCg : Phase.pCg = 4#4 := rfl
@[simp] theorem phase_pWrh : Phase.pWrh = 5#4 := rfl
@[simp] theorem phase_pBp : Phase.pBp = 6#4 := rfl
@[simp] theorem phase_pRdh : Phase.pRdh = 7#4 := rfl
@[simp] theorem phase_pBu : Phase.pBu = 8#4 := rfl

/-! `raise` -/

@[simp] theorem raise_run (e : ErrKind) (info : BitVec 64) (s : State) : (raise e info s).run = .error := rfl
@[simp] theorem raise_phase (e : ErrKind) (info : BitVec 64) (s : State) : (raise e info s).phase = Phase.pNone := rfl
@[simp] theorem raise_mode (e : ErrKind) (info : BitVec 64) (s : State) : (raise e info s).mode = s.mode := rfl
@[simp] theorem raise_rootKind (e : ErrKind) (info : BitVec 64) (s : State) : (raise e info s).rootKind = s.rootKind := rfl
@[simp] theorem raise_err (e : ErrKind) (info : BitVec 64) (s : State) : (raise e info s).err = e := rfl
@[simp] theorem raise_errInfo (e : ErrKind) (info : BitVec 64) (s : State) : (raise e info s).errInfo = info := rfl
@[simp] theorem raise_inLen (e : ErrKind) (info : BitVec 64) (s : State) : (raise e info s).inLen = s.inLen := rfl
@[simp] theorem raise_inPos (e : ErrKind) (info : BitVec 64) (s : State) : (raise e info s).inPos = s.inPos := rfl
@[simp] theorem raise_outPos (e : ErrKind) (info : BitVec 64) (s : State) : (raise e info s).outPos = s.outPos := rfl
@[simp] theorem raise_nint (e : ErrKind) (info : BitVec 64) (s : State) : (raise e info s).nint = s.nint := rfl
@[simp] theorem raise_root (e : ErrKind) (info : BitVec 64) (s : State) : (raise e info s).root = s.root := rfl
@[simp] theorem raise_cur (e : ErrKind) (info : BitVec 64) (s : State) : (raise e info s).cur = s.cur := rfl
@[simp] theorem raise_acc (e : ErrKind) (info : BitVec 64) (s : State) : (raise e info s).acc = s.acc := rfl
@[simp] theorem raise_nacc (e : ErrKind) (info : BitVec 64) (s : State) : (raise e info s).nacc = s.nacc := rfl
@[simp] theorem raise_totalBits (e : ErrKind) (info : BitVec 64) (s : State) : (raise e info s).totalBits = s.totalBits := rfl
@[simp] theorem raise_bitPos (e : ErrKind) (info : BitVec 64) (s : State) : (raise e info s).bitPos = s.bitPos := rfl
@[simp] theorem raise_emitted (e : ErrKind) (info : BitVec 64) (s : State) : (raise e info s).emitted = s.emitted := rfl
@[simp] theorem raise_nsym (e : ErrKind) (info : BitVec 64) (s : State) : (raise e info s).nsym = s.nsym := rfl
@[simp] theorem raise_freq (e : ErrKind) (info : BitVec 64) (s : State) : (raise e info s).freq = s.freq := rfl
@[simp] theorem raise_nodeW (e : ErrKind) (info : BitVec 64) (s : State) : (raise e info s).nodeW = s.nodeW := rfl
@[simp] theorem raise_nodeL (e : ErrKind) (info : BitVec 64) (s : State) : (raise e info s).nodeL = s.nodeL := rfl
@[simp] theorem raise_nodeR (e : ErrKind) (info : BitVec 64) (s : State) : (raise e info s).nodeR = s.nodeR := rfl
@[simp] theorem raise_pq (e : ErrKind) (info : BitVec 64) (s : State) : (raise e info s).pq = s.pq := rfl
@[simp] theorem raise_code (e : ErrKind) (info : BitVec 64) (s : State) : (raise e info s).code = s.code := rfl
@[simp] theorem raise_ibuf (e : ErrKind) (info : BitVec 64) (s : State) : (raise e info s).ibuf = s.ibuf := rfl
@[simp] theorem raise_obuf (e : ErrKind) (info : BitVec 64) (s : State) : (raise e info s).obuf = s.obuf := rfl
@[simp] theorem raise_ibufCap (e : ErrKind) (info : BitVec 64) (s : State) : (raise e info s).ibufCap = s.ibufCap := rfl
@[simp] theorem raise_obufCap (e : ErrKind) (info : BitVec 64) (s : State) : (raise e info s).obufCap = s.obufCap := rfl
@[simp] theorem raise_schedule (e : ErrKind) (info : BitVec 64) (s : State) : (raise e info s).schedule = s.schedule := rfl
@[simp] theorem raise_hostData (e : ErrKind) (info : BitVec 64) (s : State) : (raise e info s).hostData = s.hostData := rfl
@[simp] theorem raise_freeReads (e : ErrKind) (info : BitVec 64) (s : State) : (raise e info s).freeReads = s.freeReads := rfl
@[simp] theorem raise_resets (e : ErrKind) (info : BitVec 64) (s : State) : (raise e info s).resets = s.resets := rfl

/-! `initWork` -/

@[simp] theorem initWork_run (s : State) : (initWork s).run = s.run := rfl
@[simp] theorem initWork_phase (s : State) : (initWork s).phase = s.phase := rfl
@[simp] theorem initWork_mode (s : State) : (initWork s).mode = s.mode := rfl
@[simp] theorem initWork_rootKind (s : State) : (initWork s).rootKind = .none := rfl
@[simp] theorem initWork_err (s : State) : (initWork s).err = .none := rfl
@[simp] theorem initWork_errInfo (s : State) : (initWork s).errInfo = 0#64 := rfl
@[simp] theorem initWork_inLen (s : State) : (initWork s).inLen = s.inLen := rfl
@[simp] theorem initWork_inPos (s : State) : (initWork s).inPos = 0#32 := rfl
@[simp] theorem initWork_outPos (s : State) : (initWork s).outPos = 0#64 := rfl
@[simp] theorem initWork_nint (s : State) : (initWork s).nint = 0#9 := rfl
@[simp] theorem initWork_root (s : State) : (initWork s).root = none := rfl
@[simp] theorem initWork_cur (s : State) : (initWork s).cur = none := rfl
@[simp] theorem initWork_acc (s : State) : (initWork s).acc = 0#8 := rfl
@[simp] theorem initWork_nacc (s : State) : (initWork s).nacc = 0#3 := rfl
@[simp] theorem initWork_totalBits (s : State) : (initWork s).totalBits = 0#40 := rfl
@[simp] theorem initWork_bitPos (s : State) : (initWork s).bitPos = 0#3 := rfl
@[simp] theorem initWork_emitted (s : State) : (initWork s).emitted = 0#40 := rfl
@[simp] theorem initWork_nsym (s : State) : (initWork s).nsym = 0#40 := rfl
@[simp] theorem initWork_freq (s : State) : (initWork s).freq = Table.fill Config.freqEntries 0#32 := rfl
@[simp] theorem initWork_nodeW (s : State) : (initWork s).nodeW = Table.fill Config.maxNodes none := rfl
@[simp] theorem initWork_nodeL (s : State) : (initWork s).nodeL = Table.fill Config.maxInternal none := rfl
@[simp] theorem initWork_nodeR (s : State) : (initWork s).nodeR = Table.fill Config.maxInternal none := rfl
@[simp] theorem initWork_pq (s : State) : (initWork s).pq = [] := rfl
@[simp] theorem initWork_code (s : State) : (initWork s).code = Table.fill Config.freqEntries none := rfl
@[simp] theorem initWork_ibuf (s : State) : (initWork s).ibuf = s.ibuf := rfl
@[simp] theorem initWork_obuf (s : State) : (initWork s).obuf = s.obuf := rfl
@[simp] theorem initWork_ibufCap (s : State) : (initWork s).ibufCap = s.ibufCap := rfl
@[simp] theorem initWork_obufCap (s : State) : (initWork s).obufCap = s.obufCap := rfl
@[simp] theorem initWork_schedule (s : State) : (initWork s).schedule = s.schedule := rfl
@[simp] theorem initWork_hostData (s : State) : (initWork s).hostData = s.hostData := rfl
@[simp] theorem initWork_freeReads (s : State) : (initWork s).freeReads = s.freeReads := rfl
@[simp] theorem initWork_resets (s : State) : (initWork s).resets = s.resets := rfl

/-! `popTurn` -/

@[simp] theorem popTurn_run (s : State) : (s.popTurn).run = s.run := rfl
@[simp] theorem popTurn_phase (s : State) : (s.popTurn).phase = s.phase := rfl
@[simp] theorem popTurn_mode (s : State) : (s.popTurn).mode = s.mode := rfl
@[simp] theorem popTurn_rootKind (s : State) : (s.popTurn).rootKind = s.rootKind := rfl
@[simp] theorem popTurn_err (s : State) : (s.popTurn).err = s.err := rfl
@[simp] theorem popTurn_errInfo (s : State) : (s.popTurn).errInfo = s.errInfo := rfl
@[simp] theorem popTurn_inLen (s : State) : (s.popTurn).inLen = s.inLen := rfl
@[simp] theorem popTurn_inPos (s : State) : (s.popTurn).inPos = s.inPos := rfl
@[simp] theorem popTurn_outPos (s : State) : (s.popTurn).outPos = s.outPos := rfl
@[simp] theorem popTurn_nint (s : State) : (s.popTurn).nint = s.nint := rfl
@[simp] theorem popTurn_root (s : State) : (s.popTurn).root = s.root := rfl
@[simp] theorem popTurn_cur (s : State) : (s.popTurn).cur = s.cur := rfl
@[simp] theorem popTurn_acc (s : State) : (s.popTurn).acc = s.acc := rfl
@[simp] theorem popTurn_nacc (s : State) : (s.popTurn).nacc = s.nacc := rfl
@[simp] theorem popTurn_totalBits (s : State) : (s.popTurn).totalBits = s.totalBits := rfl
@[simp] theorem popTurn_bitPos (s : State) : (s.popTurn).bitPos = s.bitPos := rfl
@[simp] theorem popTurn_emitted (s : State) : (s.popTurn).emitted = s.emitted := rfl
@[simp] theorem popTurn_nsym (s : State) : (s.popTurn).nsym = s.nsym := rfl
@[simp] theorem popTurn_freq (s : State) : (s.popTurn).freq = s.freq := rfl
@[simp] theorem popTurn_nodeW (s : State) : (s.popTurn).nodeW = s.nodeW := rfl
@[simp] theorem popTurn_nodeL (s : State) : (s.popTurn).nodeL = s.nodeL := rfl
@[simp] theorem popTurn_nodeR (s : State) : (s.popTurn).nodeR = s.nodeR := rfl
@[simp] theorem popTurn_pq (s : State) : (s.popTurn).pq = s.pq := rfl
@[simp] theorem popTurn_code (s : State) : (s.popTurn).code = s.code := rfl
@[simp] theorem popTurn_ibuf (s : State) : (s.popTurn).ibuf = s.ibuf := rfl
@[simp] theorem popTurn_obuf (s : State) : (s.popTurn).obuf = s.obuf := rfl
@[simp] theorem popTurn_ibufCap (s : State) : (s.popTurn).ibufCap = s.ibufCap := rfl
@[simp] theorem popTurn_obufCap (s : State) : (s.popTurn).obufCap = s.obufCap := rfl
@[simp] theorem popTurn_schedule (s : State) : (s.popTurn).schedule = s.schedule.tail := rfl
@[simp] theorem popTurn_hostData (s : State) : (s.popTurn).hostData = s.hostData := rfl
@[simp] theorem popTurn_freeReads (s : State) : (s.popTurn).freeReads = s.freeReads := rfl
@[simp] theorem popTurn_resets (s : State) : (s.popTurn).resets = s.resets := rfl

/-! `hostFreeByte` -/

@[simp] theorem hostFreeByte_run (s : State) : (hostFreeByte s).run = s.run := rfl
@[simp] theorem hostFreeByte_phase (s : State) : (hostFreeByte s).phase = s.phase := rfl
@[simp] theorem hostFreeByte_mode (s : State) : (hostFreeByte s).mode = s.mode := rfl
@[simp] theorem hostFreeByte_rootKind (s : State) : (hostFreeByte s).rootKind = s.rootKind := rfl
@[simp] theorem hostFreeByte_err (s : State) : (hostFreeByte s).err = s.err := rfl
@[simp] theorem hostFreeByte_errInfo (s : State) : (hostFreeByte s).errInfo = s.errInfo := rfl
@[simp] theorem hostFreeByte_inLen (s : State) : (hostFreeByte s).inLen = s.inLen := rfl
@[simp] theorem hostFreeByte_inPos (s : State) : (hostFreeByte s).inPos = s.inPos := rfl
@[simp] theorem hostFreeByte_outPos (s : State) : (hostFreeByte s).outPos = s.outPos := rfl
@[simp] theorem hostFreeByte_nint (s : State) : (hostFreeByte s).nint = s.nint := rfl
@[simp] theorem hostFreeByte_root (s : State) : (hostFreeByte s).root = s.root := rfl
@[simp] theorem hostFreeByte_cur (s : State) : (hostFreeByte s).cur = s.cur := rfl
@[simp] theorem hostFreeByte_acc (s : State) : (hostFreeByte s).acc = s.acc := rfl
@[simp] theorem hostFreeByte_nacc (s : State) : (hostFreeByte s).nacc = s.nacc := rfl
@[simp] theorem hostFreeByte_totalBits (s : State) : (hostFreeByte s).totalBits = s.totalBits := rfl
@[simp] theorem hostFreeByte_bitPos (s : State) : (hostFreeByte s).bitPos = s.bitPos := rfl
@[simp] theorem hostFreeByte_emitted (s : State) : (hostFreeByte s).emitted = s.emitted := rfl
@[simp] theorem hostFreeByte_nsym (s : State) : (hostFreeByte s).nsym = s.nsym := rfl
@[simp] theorem hostFreeByte_freq (s : State) : (hostFreeByte s).freq = s.freq := rfl
@[simp] theorem hostFreeByte_nodeW (s : State) : (hostFreeByte s).nodeW = s.nodeW := rfl
@[simp] theorem hostFreeByte_nodeL (s : State) : (hostFreeByte s).nodeL = s.nodeL := rfl
@[simp] theorem hostFreeByte_nodeR (s : State) : (hostFreeByte s).nodeR = s.nodeR := rfl
@[simp] theorem hostFreeByte_pq (s : State) : (hostFreeByte s).pq = s.pq := rfl
@[simp] theorem hostFreeByte_code (s : State) : (hostFreeByte s).code = s.code := rfl
@[simp] theorem hostFreeByte_ibuf (s : State) : (hostFreeByte s).ibuf = s.ibuf := rfl
@[simp] theorem hostFreeByte_obuf (s : State) : (hostFreeByte s).obuf = s.obuf := rfl
@[simp] theorem hostFreeByte_ibufCap (s : State) : (hostFreeByte s).ibufCap = s.ibufCap := rfl
@[simp] theorem hostFreeByte_obufCap (s : State) : (hostFreeByte s).obufCap = s.obufCap := rfl
@[simp] theorem hostFreeByte_schedule (s : State) : (hostFreeByte s).schedule = s.schedule := rfl
@[simp] theorem hostFreeByte_hostData (s : State) : (hostFreeByte s).hostData = (Config.freeByte s.freeReads).setWidth 32 := rfl
@[simp] theorem hostFreeByte_freeReads (s : State) : (hostFreeByte s).freeReads = s.freeReads + 1 := rfl
@[simp] theorem hostFreeByte_resets (s : State) : (hostFreeByte s).resets = s.resets := rfl

/-! `hostReset` -/

@[simp] theorem hostReset_run (s : State) : (hostReset s).run = (State.resetWith s.ibufCap s.obufCap).run := rfl
@[simp] theorem hostReset_phase (s : State) : (hostReset s).phase = (State.resetWith s.ibufCap s.obufCap).phase := rfl
@[simp] theorem hostReset_mode (s : State) : (hostReset s).mode = (State.resetWith s.ibufCap s.obufCap).mode := rfl
@[simp] theorem hostReset_rootKind (s : State) : (hostReset s).rootKind = (State.resetWith s.ibufCap s.obufCap).rootKind := rfl
@[simp] theorem hostReset_err (s : State) : (hostReset s).err = (State.resetWith s.ibufCap s.obufCap).err := rfl
@[simp] theorem hostReset_errInfo (s : State) : (hostReset s).errInfo = (State.resetWith s.ibufCap s.obufCap).errInfo := rfl
@[simp] theorem hostReset_inLen (s : State) : (hostReset s).inLen = (State.resetWith s.ibufCap s.obufCap).inLen := rfl
@[simp] theorem hostReset_inPos (s : State) : (hostReset s).inPos = (State.resetWith s.ibufCap s.obufCap).inPos := rfl
@[simp] theorem hostReset_outPos (s : State) : (hostReset s).outPos = (State.resetWith s.ibufCap s.obufCap).outPos := rfl
@[simp] theorem hostReset_nint (s : State) : (hostReset s).nint = (State.resetWith s.ibufCap s.obufCap).nint := rfl
@[simp] theorem hostReset_root (s : State) : (hostReset s).root = (State.resetWith s.ibufCap s.obufCap).root := rfl
@[simp] theorem hostReset_cur (s : State) : (hostReset s).cur = (State.resetWith s.ibufCap s.obufCap).cur := rfl
@[simp] theorem hostReset_acc (s : State) : (hostReset s).acc = (State.resetWith s.ibufCap s.obufCap).acc := rfl
@[simp] theorem hostReset_nacc (s : State) : (hostReset s).nacc = (State.resetWith s.ibufCap s.obufCap).nacc := rfl
@[simp] theorem hostReset_totalBits (s : State) : (hostReset s).totalBits = (State.resetWith s.ibufCap s.obufCap).totalBits := rfl
@[simp] theorem hostReset_bitPos (s : State) : (hostReset s).bitPos = (State.resetWith s.ibufCap s.obufCap).bitPos := rfl
@[simp] theorem hostReset_emitted (s : State) : (hostReset s).emitted = (State.resetWith s.ibufCap s.obufCap).emitted := rfl
@[simp] theorem hostReset_nsym (s : State) : (hostReset s).nsym = (State.resetWith s.ibufCap s.obufCap).nsym := rfl
@[simp] theorem hostReset_freq (s : State) : (hostReset s).freq = (State.resetWith s.ibufCap s.obufCap).freq := rfl
@[simp] theorem hostReset_nodeW (s : State) : (hostReset s).nodeW = (State.resetWith s.ibufCap s.obufCap).nodeW := rfl
@[simp] theorem hostReset_nodeL (s : State) : (hostReset s).nodeL = (State.resetWith s.ibufCap s.obufCap).nodeL := rfl
@[simp] theorem hostReset_nodeR (s : State) : (hostReset s).nodeR = (State.resetWith s.ibufCap s.obufCap).nodeR := rfl
@[simp] theorem hostReset_pq (s : State) : (hostReset s).pq = (State.resetWith s.ibufCap s.obufCap).pq := rfl
@[simp] theorem hostReset_code (s : State) : (hostReset s).code = (State.resetWith s.ibufCap s.obufCap).code := rfl
@[simp] theorem hostReset_ibuf (s : State) : (hostReset s).ibuf = (State.resetWith s.ibufCap s.obufCap).ibuf := rfl
@[simp] theorem hostReset_obuf (s : State) : (hostReset s).obuf = (State.resetWith s.ibufCap s.obufCap).obuf := rfl
@[simp] theorem hostReset_ibufCap (s : State) : (hostReset s).ibufCap = s.ibufCap := rfl
@[simp] theorem hostReset_obufCap (s : State) : (hostReset s).obufCap = s.obufCap := rfl
@[simp] theorem hostReset_schedule (s : State) : (hostReset s).schedule = s.schedule := rfl
@[simp] theorem hostReset_hostData (s : State) : (hostReset s).hostData = s.hostData := rfl
@[simp] theorem hostReset_freeReads (s : State) : (hostReset s).freeReads = s.freeReads := rfl
@[simp] theorem hostReset_resets (s : State) : (hostReset s).resets = s.resets + 1 := rfl

end Sys2Proof.Machine
end

