-- ==== Sys2Proof/Laws/Table.lean ====
section
/-! SUPPORT. What reading an internal table gives: after a write, of a filled and of a tabulated
table. -/

namespace Sys2Proof

theorem Table.ext_get {α : Type} {n : Nat} {t u : Table α n}
    (h : ∀ i (hi : i < n), t.get i hi = u.get i hi) : t = u := by
  obtain ⟨r, hr⟩ := t
  obtain ⟨q, hq⟩ := u
  have : r = q := List.ext_getElem (hr.trans hq.symm) fun i h1 _ => h i (hr ▸ h1)
  subst this
  rfl

@[simp] theorem Table.get_fill {α : Type} {n : Nat} (a : α) (i : Nat) (h : i < n) :
    (Table.fill n a).get i h = a := by
  simp [Table.get, Table.fill]

@[simp] theorem Table.get_tabulate {α : Type} {n : Nat} (f : Fin n → α) (i : Nat) (h : i < n) :
    (Table.tabulate f).get i h = f ⟨i, h⟩ := by
  simp [Table.get, Table.tabulate]

theorem Table.get_set {α : Type} {n : Nat} (t : Table α n) (i : Nat) (a : α) (j : Nat) (h : j < n) :
    (t.set i a).get j h = if i = j then a else t.get j h := by
  simp [Table.get, Table.set, List.getElem_set]

@[simp] theorem Table.get_set_same {α : Type} {n : Nat} (t : Table α n) (i : Nat) (a : α) (h : i < n) :
    (t.set i a).get i h = a := by
  simp [Table.get_set]

theorem Table.get_set_ne {α : Type} {n : Nat} (t : Table α n) {i j : Nat} (a : α) (h : j < n)
    (ne : i ≠ j) : (t.set i a).get j h = t.get j h := by
  simp [Table.get_set, ne]

theorem Table.get?_eq_get {α : Type} {n : Nat} (t : Table α n) (i : Nat) (h : i < n) :
    t.get? i = some (t.get i h) := by
  have : i < t.rows.length := by rw [t.len]; exact h
  simp [Table.get, Table.get?, this]

theorem Table.get?_eq_none {α : Type} {n : Nat} (t : Table α n) (i : Nat) (h : n ≤ i) :
    t.get? i = none := by
  have : t.rows.length ≤ i := by rw [t.len]; exact h
  simp [Table.get?, this]

theorem Table.get?_set {α : Type} {n : Nat} (t : Table α n) (i : Nat) (a : α) (j : Nat) :
    (t.set i a).get? j = if i = j ∧ i < n then some a else t.get? j := by
  by_cases hj : j < n
  · rw [Table.get?_eq_get _ _ hj, Table.get?_eq_get _ _ hj, Table.get_set]
    by_cases hij : i = j
    · subst hij; simp [hj]
    · simp [hij]
  · have hj' : n ≤ j := Nat.le_of_not_lt hj
    rw [Table.get?_eq_none _ _ hj', Table.get?_eq_none _ _ hj']
    by_cases hij : i = j
    · subst hij; simp [hj]
    · simp [hij]

namespace Machine

@[simp] theorem byteEntry_fill {α : Type} (a : α) (b : Byte) :
    byteEntry (Table.fill Config.freqEntries a) b = a := by
  simp [byteEntry]

theorem byteEntry_set {α : Type} (t : Table α Config.freqEntries) (v b : Byte) (a : α) :
    byteEntry (t.set v.toNat a) b = if v = b then a else byteEntry t b := by
  unfold byteEntry
  rw [Table.get_set]
  simp only [BitVec.toNat_inj]

@[simp] theorem byteEntry_tabulate {α : Type} (f : Fin Config.freqEntries → α) (b : Byte) :
    byteEntry (Table.tabulate f) b = f ⟨b.toNat, b.isLt⟩ := by
  simp [byteEntry]

end Machine

end Sys2Proof
end

