-- ==== Sys2Proof/Laws/Ops.lean ====
section
/-! SUPPORT. What each shared operation can do, said once: `OutByte` and its repetition, node ids and
node fields, the order of extraction and extract-min, and insertion into `PQ`. -/

namespace Sys2Proof.Machine

/-! ### Flow -/

@[simp] theorem Flow.andThen_cont (s : State) (k : State → Flow) : (Flow.cont s).andThen k = k s := rfl
@[simp] theorem Flow.andThen_halt (r : Result) (k : State → Flow) :
    (Flow.halt r).andThen k = .halt r := rfl
@[simp] theorem Flow.finish_cont (s : State) : (Flow.cont s).finish = .next s := rfl
@[simp] theorem Flow.finish_halt (r : Result) : (Flow.halt r).finish = r := rfl

/-! ### `OutByte` -/

/-- `OutByte` with the buffer full (60 R233). -/
theorem outByte_full (v : Byte) (s : State) (h : s.outPos.toNat = s.obufCap) :
    outByte v s = .halt (.next (raise .outputUnwritable s.outPos s)) := by
  simp [outByte, h]

/-- `OutByte` with room (00 R9). -/
theorem outByte_room (v : Byte) (s : State) (h : s.outPos.toNat ≠ s.obufCap) :
    outByte v s = .cont { s with obuf := s.obuf.write s.outPos.toNat v, outPos := s.outPos + 1#64 } := by
  simp [outByte, h]

/-- Everything `OutByte` can do. -/
theorem outByte_cases (v : Byte) (s : State) :
    (s.outPos.toNat = s.obufCap ∧
      outByte v s = .halt (.next (raise .outputUnwritable s.outPos s))) ∨
    (s.outPos.toNat ≠ s.obufCap ∧
      outByte v s = .cont { s with obuf := s.obuf.write s.outPos.toNat v, outPos := s.outPos + 1#64 }) := by
  by_cases h : s.outPos.toNat = s.obufCap
  · exact .inl ⟨h, outByte_full v s h⟩
  · exact .inr ⟨h, outByte_room v s h⟩

/-- `OUT_POS + 1` below 2^64 does not wrap. -/
theorem outPos_succ (s : State) (h : s.outPos.toNat + 1 < 2 ^ 64) :
    (s.outPos + 1#64).toNat = s.outPos.toNat + 1 := by
  rw [BitVec.toNat_add]
  simp
  omega

/-- The buffer with a list of bytes written from an address on. -/
def Memory.writeList (m : Memory) (a : Nat) : List Byte → Memory
  | [] => m
  | v :: vs => Memory.writeList (m.write a v) (a + 1) vs

theorem Memory.read_writeList (m : Memory) (a : Nat) (vs : List Byte) (c : Nat) :
    (m.writeList a vs).read c =
      if a ≤ c ∧ c < a + vs.length then vs[c - a]? else m.read c := by
  induction vs generalizing m a with
  | nil =>
    simp [Memory.writeList]
  | cons v vs ih =>
    rw [Memory.writeList, ih, Memory.read_write]
    by_cases h : c = a
    · subst h; simp
    · by_cases h2 : a + 1 ≤ c
      · have e : c - a = (c - (a + 1)) + 1 := by omega
        simp only [List.length_cons, h, if_false, e, List.getElem?_cons_succ]
        have : (a + 1 ≤ c ∧ c < a + 1 + vs.length) ↔ (a ≤ c ∧ c < a + (vs.length + 1)) := by omega
        simp only [this]
      · have h3 : ¬ a ≤ c := by omega
        have h4 : ¬ a + 1 ≤ c := h2
        simp [h, h3, h4]

theorem Memory.wf_writeList {m : Memory} (h : m.wf) (a : Nat) (vs : List Byte) :
    (m.writeList a vs).wf := by
  induction vs generalizing m a with
  | nil => exact h
  | cons v vs ih => exact ih (Memory.wf_write h a v) _

/-- `OutByte` of a list with room for all of it. -/
theorem outBytes_room (vs : List Byte) (s : State) (h : s.outPos.toNat + vs.length ≤ s.obufCap)
    (hc : s.outPos.toNat + vs.length < 2 ^ 64) :
    outBytes vs s = .cont { s with
      obuf := s.obuf.writeList s.outPos.toNat vs, outPos := s.outPos + BitVec.ofNat 64 vs.length } := by
  induction vs generalizing s with
  | nil => simp [outBytes, Memory.writeList]
  | cons v vs ih =>
    have h' : s.outPos.toNat < s.obufCap := by simp at h; omega
    have e := outPos_succ s (by simp at hc; omega)
    rw [outBytes, outByte_room v s (by omega), Flow.andThen_cont, ih]
    · simp only [e, Memory.writeList, List.length_cons]
      congr 2
      bv_omega
    · simp only [List.length_cons] at h
      show (s.outPos + 1#64).toNat + _ ≤ s.obufCap
      omega
    · simp only [List.length_cons] at hc
      show (s.outPos + 1#64).toNat + _ < 2 ^ 64
      omega

/-- `OutByte` of a list without room for all of it: the bytes that fit are written. -/
theorem outBytes_full (vs : List Byte) (s : State) (h0 : s.outPos.toNat ≤ s.obufCap)
    (h : s.obufCap < s.outPos.toNat + vs.length) (hc : s.obufCap < 2 ^ 64) :
    outBytes vs s = .halt (.next (raise .outputUnwritable (BitVec.ofNat 64 s.obufCap) { s with
      obuf := s.obuf.writeList s.outPos.toNat (vs.take (s.obufCap - s.outPos.toNat))
      outPos := BitVec.ofNat 64 s.obufCap })) := by
  induction vs generalizing s with
  | nil => simp at h; omega
  | cons v vs ih =>
    by_cases hf : s.outPos.toNat = s.obufCap
    · have e : s.outPos = BitVec.ofNat 64 s.obufCap := by rw [← hf]; simp
      rw [outBytes, outByte_full v s hf, Flow.andThen_halt]
      simp [hf, Memory.writeList, ← e]
    · have e := outPos_succ s (by omega)
      rw [outBytes, outByte_room v s hf, Flow.andThen_cont, ih]
      · have hn : s.obufCap - s.outPos.toNat = (s.obufCap - (s.outPos.toNat + 1)) + 1 := by omega
        simp only [e, hn, List.take_succ_cons, Memory.writeList]
      · show (s.outPos + 1#64).toNat ≤ s.obufCap
        omega
      · simp only [List.length_cons] at h
        show s.obufCap < (s.outPos + 1#64).toNat + _
        omega
      · exact hc

/-! ### Node ids -/

/-- A leaf id is below 256 (10 R23). -/
theorem isLeaf_iff (id : NodeId) : isLeaf id = true ↔ id.toNat < 256 := by
  have : id.getLsbD 8 = decide (256 ≤ id.toNat) := by
    rw [show (8 : Nat) = 9 - 1 from rfl, ← BitVec.msb_eq_getLsbD_last, BitVec.msb_eq_decide]
  simp only [isLeaf, this]
  simp

theorem isLeaf_false_iff (id : NodeId) : isLeaf id = false ↔ 256 ≤ id.toNat := by
  have := isLeaf_iff id
  cases h : isLeaf id <;> simp [h] at this ⊢ <;> omega

@[simp] theorem leafId_toNat (b : Byte) : (leafId b).toNat = b.toNat := by
  have := b.isLt
  simp [leafId]
  omega

@[simp] theorem isLeaf_leafId (b : Byte) : isLeaf (leafId b) = true := by
  rw [isLeaf_iff, leafId_toNat]
  exact b.isLt

@[simp] theorem leafByte_leafId (b : Byte) : leafByte (leafId b) = b := by
  apply BitVec.eq_of_toNat_eq
  have := b.isLt
  simp [leafByte]
  omega

theorem leafByte_toNat (id : NodeId) (h : isLeaf id = true) : (leafByte id).toNat = id.toNat := by
  rw [isLeaf_iff] at h
  simp [leafByte]
  omega

theorem leafId_leafByte (id : NodeId) (h : isLeaf id = true) : leafId (leafByte id) = id := by
  apply BitVec.eq_of_toNat_eq
  rw [leafId_toNat, leafByte_toNat id h]

theorem leafId_inj {a b : Byte} (h : leafId a = leafId b) : a = b := by
  have := congrArg leafByte h
  simpa using this

theorem leaf_children (s : State) (id : NodeId) (h : isLeaf id = true) :
    s.leftChild id = none ∧ s.rightChild id = none := by
  simp [State.leftChild, State.rightChild, h]

/-! ### The order of extraction -/

/-- The comparison of keys is that of rule 42 R161 on unsigned numbers. -/
theorem keyLt_iff (tie : Config.TieBreak) (wa : Weight) (a : NodeId) (wb : Weight) (b : NodeId) :
    keyLt tie wa a wb b = true ↔
      (wa.toNat < wb.toNat ∨ (wa.toNat = wb.toNat ∧ a.toNat < b.toNat)) := by
  cases tie; simp [keyLt, BitVec.ult, BitVec.toNat_inj]

theorem keyLt_false {tie : Config.TieBreak} {wa : Weight} {a : NodeId} {wb : Weight} {b : NodeId}
    (h : keyLt tie wa a wb b = false) (ne : a ≠ b) : keyLt tie wb b wa a = true := by
  have h' : ¬ keyLt tie wa a wb b = true := by simp [h]
  rw [keyLt_iff] at h' ⊢
  have : a.toNat ≠ b.toNat := fun e => ne (BitVec.eq_of_toNat_eq e)
  omega

theorem KeyLess.trans {s : State} {a b c : NodeId} (h1 : KeyLess s a b) (h2 : KeyLess s b c) :
    KeyLess s a c := by
  obtain ⟨wa, wb, ha, hb, h⟩ := h1
  obtain ⟨wb', wc, hb', hc, h'⟩ := h2
  rw [hb] at hb'
  cases hb'
  exact ⟨wa, wc, ha, hc, by omega⟩

/-- The member `leastMember` picks is one of those it looks at, and its key is less than every other
one's. -/
theorem leastMember_spec (s : State) (best : NodeId) (l : List NodeId)
    (hw : ∀ id ∈ best :: l, ∃ w, s.weight id = some w) :
    ∃ m, leastMember s best l = .ok m ∧ m ∈ best :: l ∧ ∀ c ∈ best :: l, c ≠ m → KeyLess s m c := by
  induction l generalizing best with
  | nil =>
    refine ⟨best, rfl, List.mem_cons_self, fun c hc ne => ?_⟩
    simp at hc
    exact absurd hc ne
  | cons id rest ih =>
    obtain ⟨wb, hwb⟩ := hw best List.mem_cons_self
    obtain ⟨wi, hwi⟩ := hw id (List.mem_cons_of_mem _ List.mem_cons_self)
    simp only [leastMember, hwb, hwi]
    by_cases hk : keyLt s.config.tieBreak wi id wb best = true
    · simp only [hk, if_true]
      obtain ⟨m, hm, hmem, hleast⟩ := ih id fun c hc =>
        hw c (List.mem_cons_of_mem _ hc)
      refine ⟨m, hm, List.mem_cons_of_mem _ hmem, fun c hc ne => ?_⟩
      rcases List.mem_cons.mp hc with h | h
      · subst h
        have hkey : KeyLess s id c := ⟨wi, wb, hwi, hwb, (keyLt_iff _ _ _ _ _).mp hk⟩
        by_cases e : id = m
        · exact e ▸ hkey
        · exact (hleast id List.mem_cons_self e).trans hkey
      · exact hleast c h ne
    · simp only [hk]
      obtain ⟨m, hm, hmem, hleast⟩ := ih best fun c hc => by
        rcases List.mem_cons.mp hc with h | h
        · exact hw c (h ▸ List.mem_cons_self)
        · exact hw c (List.mem_cons_of_mem _ (List.mem_cons_of_mem _ h))
      refine ⟨m, by simpa using hm, ?_, fun c hc ne => ?_⟩
      · rcases List.mem_cons.mp hmem with h | h
        · exact h ▸ List.mem_cons_self
        · exact List.mem_cons_of_mem _ (List.mem_cons_of_mem _ h)
      · by_cases hcb : c = best
        · exact hleast c (hcb ▸ List.mem_cons_self) ne
        · rcases List.mem_cons.mp hc with h | h
          · exact absurd h hcb
          · rcases List.mem_cons.mp h with h | h
            · subst h
              have hkey : KeyLess s best c :=
                ⟨wb, wi, hwb, hwi, (keyLt_iff _ _ _ _ _).mp (keyLt_false (by simpa using hk) hcb)⟩
              by_cases e : best = m
              · exact e ▸ hkey
              · exact (hleast best List.mem_cons_self e).trans hkey
            · exact hleast c (List.mem_cons_of_mem _ h) ne

/-- Where the choice among two or more members stops: at one without a weight. -/
theorem leastMember_unwritten (s : State) (b : NodeId) (l : List NodeId) (hl : l ≠ [])
    (h : ∃ id ∈ b :: l, s.weight id = none) :
    ∃ id ∈ b :: l, s.weight id = none ∧ leastMember s b l = .error (.unwrittenWeight id) := by
  induction l generalizing b with
  | nil => exact absurd rfl hl
  | cons i l ih =>
    cases hb : s.weight b with
    | none => exact ⟨b, by simp, hb, by simp [leastMember, hb]⟩
    | some wb =>
      cases hi : s.weight i with
      | none => exact ⟨i, by simp, hi, by simp [leastMember, hb, hi]⟩
      | some wi =>
        obtain ⟨id, hid, hn⟩ := h
        have hne : id ≠ b := fun e => by subst e; rw [hb] at hn; cases hn
        have hni : id ≠ i := fun e => by subst e; rw [hi] at hn; cases hn
        have hl' : id ∈ l := by simpa [hne, hni] using hid
        have := ih (if keyLt s.config.tieBreak wi i wb b then i else b) (by rintro rfl; simp at hl')
          ⟨id, List.mem_cons_of_mem _ hl', hn⟩
        obtain ⟨x, hx, hxn, he⟩ := this
        refine ⟨x, ?_, hxn, by simp only [leastMember, hb, hi]; exact he⟩
        rcases List.mem_cons.mp hx with h | h
        · rw [h]; split <;> simp
        · simp [h]

/-- What `leastMember` answers, if it answers, is one of those it looks at. -/
theorem leastMember_mem {s : State} {best : NodeId} {l : List NodeId} {m : NodeId}
    (h : leastMember s best l = .ok m) : m ∈ best :: l := by
  induction l generalizing best with
  | nil => simp [leastMember] at h; simp [h]
  | cons id rest ih =>
    simp only [leastMember] at h
    split at h
    · cases h
    · split at h
      · cases h
      · have := ih h
        split at this <;> simp at this ⊢ <;> tauto

/-- extract-min (42 R161) on a `PQ` whose members all have a weight. -/
theorem extractMin_spec (s : State) (hne : s.pq ≠ []) (hw : ∀ id ∈ s.pq, ∃ w, s.weight id = some w) :
    ∃ m, extractMin s = .ok (m, s.pq.erase m) ∧ m ∈ s.pq ∧ ∀ c ∈ s.pq, c ≠ m → KeyLess s m c := by
  match hq : s.pq with
  | [] => exact absurd hq hne
  | id :: rest =>
    obtain ⟨m, hm, hmem, hleast⟩ := leastMember_spec s id rest (hq ▸ hw)
    exact ⟨m, by simp [extractMin, hq, hm], hmem, hleast⟩

/-- What extract-min answers, if it answers: a member, and `PQ` without it. -/
theorem extractMin_mem {s : State} {m : NodeId} {q : List NodeId} (h : extractMin s = .ok (m, q)) :
    m ∈ s.pq ∧ q = s.pq.erase m := by
  unfold extractMin at h
  split at h
  · cases h
  · rename_i id rest hq
    split at h
    · cases h
    · rename_i m' hm
      have := leastMember_mem hm
      cases h
      exact ⟨hq ▸ this, rfl⟩

/-- extract-min on a single member reads no weight. -/
theorem extractMin_single (s : State) (r : NodeId) (h : s.pq = [r]) :
    extractMin s = .ok (r, []) := by
  simp [extractMin, h, leastMember]

/-! ### `PQ` as a set -/

theorem mem_insertMember (id : NodeId) (q : List NodeId) (c : NodeId) :
    c ∈ insertMember id q ↔ c = id ∨ c ∈ q := by
  induction q with
  | nil => simp [insertMember]
  | cons x xs ih =>
    simp only [insertMember]
    split
    · simp
    · split
      · rename_i h; subst h; simp
      · simp [ih]; tauto

theorem insertMember_length_le (id : NodeId) (q : List NodeId) :
    (insertMember id q).length ≤ q.length + 1 := by
  induction q with
  | nil => simp [insertMember]
  | cons x xs ih =>
    simp only [insertMember]
    split
    · simp
    · split
      · simp
      · simp; omega

theorem insertMember_perm (id : NodeId) (q : List NodeId) (h : id ∉ q) :
    (insertMember id q).Perm (id :: q) := by
  induction q with
  | nil => exact .refl _
  | cons x xs ih =>
    simp only [insertMember]
    split
    · exact .refl _
    · split
      · rename_i e; subst e; simp at h
      · exact ((ih fun hx => h (List.mem_cons_of_mem _ hx)).cons x).trans (.swap id x xs)

/-- Insertion keeps the members in rising order (10 R24). -/
theorem insertMember_rising (id : NodeId) (q : List NodeId)
    (h : q.Pairwise fun a b => a.toNat < b.toNat) :
    (insertMember id q).Pairwise fun a b => a.toNat < b.toNat := by
  induction q with
  | nil => simp [insertMember]
  | cons x xs ih =>
    simp only [insertMember]
    have h' := List.pairwise_cons.mp h
    split
    · rename_i hlt
      have hlt' : id.toNat < x.toNat := by simpa [BitVec.ult] using hlt
      refine List.pairwise_cons.mpr ⟨fun c hc => ?_, h⟩
      rcases List.mem_cons.mp hc with e | e
      · exact e ▸ hlt'
      · exact Nat.lt_trans hlt' (h'.1 c e)
    · split
      · exact h
      · rename_i h1 h2
        have h1' : ¬ id.toNat < x.toNat := by simpa [BitVec.ult] using h1
        have h2' : id.toNat ≠ x.toNat := fun e => h2 (BitVec.eq_of_toNat_eq e)
        refine List.pairwise_cons.mpr ⟨fun c hc => ?_, ih h'.2⟩
        rcases (mem_insertMember id xs c).mp hc with e | e
        · subst e; omega
        · exact h'.1 c e

/-- A rising list has no repeats. -/
theorem rising_nodup {q : List NodeId} (h : q.Pairwise fun a b => a.toNat < b.toNat) : q.Nodup :=
  h.imp fun h e => by subst e; exact Nat.lt_irrefl _ h

/-- Removal keeps the members in rising order. -/
theorem erase_rising {q : List NodeId} (h : q.Pairwise fun a b => a.toNat < b.toNat) (id : NodeId) :
    (q.erase id).Pairwise fun a b => a.toNat < b.toNat :=
  h.sublist List.erase_sublist

end Sys2Proof.Machine
end

