-- ==== Sys2Proof/Laws/Tree.lean ====
section
/-! SUPPORT. What the operations of the Tree Builder write: the leaves and their weights
(42_tree_builder.md rules R160 and R162), and a new internal node (R163). -/

namespace Sys2Proof.Machine

/-! ### The leaves -/

/-- A byte value gets a leaf exactly when it occurs (R160). -/
theorem hasLeaf_eq (policy : Config.ZeroFreqPolicy) (c : Count) :
    hasLeaf policy c = decide (c ≠ 0#32) := rfl

@[simp] theorem hasLeaf_iff (policy : Config.ZeroFreqPolicy) (c : Count) :
    hasLeaf policy c = true ↔ c ≠ 0#32 := by simp [hasLeaf_eq]

/-- The leaves of a frequency table are the ids of the byte values that occur (R160). -/
theorem mem_leavesOf (policy : Config.ZeroFreqPolicy) (freq : Table Count Config.freqEntries) (id : NodeId) :
    id ∈ leavesOf policy freq ↔ (isLeaf id = true ∧ byteEntry freq (leafByte id) ≠ 0#32) := by
  simp only [leavesOf, hasLeaf_eq, List.mem_map, List.mem_filter, List.mem_finRange, true_and, decide_eq_true_eq]
  constructor
  · rintro ⟨i, hi, rfl⟩
    have h9 : (BitVec.ofNat 9 i.val).toNat = i.val := by simp; omega
    have hl : isLeaf (BitVec.ofNat 9 i.val) = true := by rw [isLeaf_iff, h9]; exact i.isLt
    refine ⟨hl, ?_⟩
    have hb : (leafByte (BitVec.ofNat 9 i.val)).toNat = i.val := by rw [leafByte_toNat _ hl, h9]
    unfold byteEntry
    simpa only [hb] using hi
  · rintro ⟨hl, hc⟩
    refine ⟨⟨(leafByte id).toNat, (leafByte id).isLt⟩, hc, ?_⟩
    apply BitVec.eq_of_toNat_eq
    have := (isLeaf_iff id).mp hl
    simp only [leafByte_toNat id hl]
    simp

/-- The leaves stand in rising order (10 R24). -/
theorem leavesOf_rising (policy : Config.ZeroFreqPolicy) (freq : Table Count Config.freqEntries) :
    (leavesOf policy freq).Pairwise fun a b => a.toNat < b.toNat := by
  unfold leavesOf
  rw [List.pairwise_map]
  refine ((List.pairwise_lt_finRange 256).filter _).imp fun {a b} h => ?_
  have ha := a.isLt
  have hb := b.isLt
  simp only [BitVec.toNat_ofNat]
  omega

/-- There are as many leaves as counts that are not zero. -/
theorem leavesOf_length (policy : Config.ZeroFreqPolicy) (freq : Table Count Config.freqEntries) :
    (leavesOf policy freq).length = freq.rows.countP fun c => decide (c ≠ 0#32) := by
  have h : freq.rows = (List.finRange 256).map fun i => freq.get i.val i.isLt := by
    apply List.ext_getElem
    · simp [freq.len]
    · intro i h1 h2
      simp [Table.get]
  rw [leavesOf, List.length_map, ← List.countP_eq_length_filter, h, List.countP_map]
  rfl

/-- The weight of each node after the leaves are inserted (R162). -/
theorem leafWeights_get? (s : State) (id : NodeId) :
    ((leafWeights s).get? id.toNat).join =
      if isLeaf id = true ∧ byteEntry s.freq (leafByte id) ≠ 0#32 then
        some ((byteEntry s.freq (leafByte id)).setWidth 40)
      else s.weight id := by
  unfold State.weight
  by_cases h : id.toNat < 511
  · rw [Table.get?_eq_get _ _ h, Table.get?_eq_get _ _ h]
    simp only [Option.join_some, leafWeights, Table.get_tabulate]
    by_cases hl : isLeaf id = true
    · have h256 := (isLeaf_iff id).mp hl
      have e : ∀ (hb : id.toNat < 256), s.freq.get id.toNat hb = byteEntry s.freq (leafByte id) := by
        intro hb
        unfold byteEntry
        simp only [leafByte_toNat id hl]
      simp only [h256, dif_pos, e, hl, true_and, hasLeaf_iff]
    · have h256 : ¬ id.toNat < 256 := fun x => hl ((isLeaf_iff id).mpr x)
      simp [h256, hl]
  · have h256 : ¬ isLeaf id = true := fun x => h (by have := (isLeaf_iff id).mp x; omega)
    rw [Table.get?_eq_none _ _ (Nat.le_of_not_lt h), Table.get?_eq_none _ _ (Nat.le_of_not_lt h)]
    simp [h256]

/-! ### A new internal node -/

/-- The weights after an internal node is made (R163). -/
theorem makeNode_weight (a b : NodeId) (w : Weight) (pq : List NodeId) (s : State)
    (h : s.nint.toNat ≤ 254) (c : NodeId) :
    (makeNode a b w pq s).weight c = if c.toNat = 256 + s.nint.toNat then some w else s.weight c := by
  simp only [makeNode, State.weight, Table.get?_set]
  by_cases hc : c.toNat = 256 + s.nint.toNat
  · have : 256 + s.nint.toNat < 511 := by omega
    simp [hc, this]
  · have : ¬ 256 + s.nint.toNat = c.toNat := fun e => hc e.symm
    simp [hc, this]

/-- The left children after an internal node is made (R163). -/
theorem makeNode_leftChild (a b : NodeId) (w : Weight) (pq : List NodeId) (s : State)
    (h : s.nint.toNat ≤ 254) (c : NodeId) :
    (makeNode a b w pq s).leftChild c =
      if c.toNat = 256 + s.nint.toNat then some a else s.leftChild c := by
  simp only [makeNode, State.leftChild, Table.get?_set]
  by_cases hl : isLeaf c = true
  · have := (isLeaf_iff c).mp hl
    have e : ¬ c.toNat = 256 + s.nint.toNat := by omega
    simp [hl, e]
  · have h256 := (isLeaf_false_iff c).mp (by simpa using hl)
    by_cases hc : c.toNat = 256 + s.nint.toNat
    · have e : s.nint.toNat = c.toNat - 256 := by omega
      simp [hl, hc, show s.nint.toNat < 255 by omega]
    · have e : ¬ s.nint.toNat = c.toNat - 256 := by omega
      simp [hl, hc, e]

/-- The right children after an internal node is made (R163). -/
theorem makeNode_rightChild (a b : NodeId) (w : Weight) (pq : List NodeId) (s : State)
    (h : s.nint.toNat ≤ 254) (c : NodeId) :
    (makeNode a b w pq s).rightChild c =
      if c.toNat = 256 + s.nint.toNat then some b else s.rightChild c := by
  simp only [makeNode, State.rightChild, Table.get?_set]
  by_cases hl : isLeaf c = true
  · have := (isLeaf_iff c).mp hl
    have e : ¬ c.toNat = 256 + s.nint.toNat := by omega
    simp [hl, e]
  · have h256 := (isLeaf_false_iff c).mp (by simpa using hl)
    by_cases hc : c.toNat = 256 + s.nint.toNat
    · have e : s.nint.toNat = c.toNat - 256 := by omega
      simp [hl, hc, show s.nint.toNat < 255 by omega]
    · have e : ¬ s.nint.toNat = c.toNat - 256 := by omega
      simp [hl, hc, e]

/-- The id of the node a merge makes (10 R23). -/
theorem newId_toNat (s : State) (h : s.nint.toNat ≤ 254) :
    (BitVec.ofNat 9 (256 + s.nint.toNat)).toNat = 256 + s.nint.toNat := by
  simp
  omega

/-! ### A merge -/

/-- `TB.MERGE` (R163) on at least two members, all of which have a weight, with an id left. -/
theorem tbMerge_spec (s : State) (hw : ∀ id ∈ s.pq, ∃ w, s.weight id = some w) (h2 : 2 ≤ s.pq.length) (hn : s.nint.toNat ≤ 254) :
    ∃ a b wa wb, execTbMerge s = .next (makeNode a b (wa + wb) ((s.pq.erase a).erase b) s) ∧
      a ∈ s.pq ∧ b ∈ s.pq.erase a ∧ s.weight a = some wa ∧ s.weight b = some wb ∧
      (∀ c ∈ s.pq, c ≠ a → KeyLess s a c) ∧
      (∀ c ∈ s.pq, c ≠ a → c ≠ b → KeyLess s b c) := by
  obtain ⟨a, ha, ham, hal⟩ := extractMin_spec s (by rintro e; simp [e] at h2) hw
  have hl : (s.pq.erase a).length = s.pq.length - 1 := List.length_erase_of_mem ham
  obtain ⟨b, hb, hbm, hbl⟩ := extractMin_spec { s with pq := s.pq.erase a }
    (by show s.pq.erase a ≠ []; rintro e; rw [e] at hl; simp at hl; omega) (fun id hid => hw id (List.mem_of_mem_erase hid))
  obtain ⟨wa, hwa⟩ := hw a ham
  obtain ⟨wb, hwb⟩ := hw b (List.mem_of_mem_erase hbm)
  refine ⟨a, b, wa, wb, ?_, ham, hbm, hwa, hwb, hal, ?_⟩
  · simp only [execTbMerge, ha, hb, hwa, hwb, config_maxNodes, show ¬ 511 ≤ 256 + s.nint.toNat by omega,
      if_false]
  · intro c hc h1 h2
    exact hbl c ((List.mem_erase_of_ne h1).mpr hc) h2

end Sys2Proof.Machine
end

