-- ==== Sys2Proof/Laws/CodeTable.lean ====
section
/-! SUPPORT. What the traversal of 43_code_table_generator.md rule R181 records, and where it ends. -/

namespace Sys2Proof.Machine

/-! ### Paths -/

@[simp] theorem follow_nil (s : State) (n : NodeId) : follow s n [] = some n := rfl

/-- A path along an edge to a child goes on from the child. -/
theorem follow_cons {s : State} {n c : NodeId} {bit : Bool} (p : Code)
    (h : (if bit then s.rightChild n else s.leftChild n) = some c) :
    follow s n (bit :: p) = follow s c p := by
  simp only [follow, h]

theorem follow_append (s : State) (n : NodeId) (p q : Code) :
    follow s n (p ++ q) = (follow s n p).bind fun c => follow s c q := by
  induction p generalizing n with
  | nil => simp [follow]
  | cons bit p ih =>
    simp only [List.cons_append, follow]
    split <;> simp [ih]

/-- No path leads on from a leaf. -/
theorem follow_leaf {s : State} {n m : NodeId} {p : Code} (hn : isLeaf n = true)
    (h : follow s n p = some m) : p = [] ∧ m = n := by
  cases p with
  | nil => simpa [eq_comm] using h
  | cons bit p =>
    obtain ⟨hl, hr⟩ := leaf_children s n hn
    cases bit <;> simp [follow, hl, hr] at h

/-- No path to a leaf is a proper prefix of a path to a leaf (43 R182 (b)). -/
theorem follow_prefix {s : State} {n a b : NodeId} {p q : Code} (ha : isLeaf a = true)
    (hp : follow s n p = some a) (hq : follow s n q = some b) (h : p <+: q) : a = b := by
  obtain ⟨x, rfl⟩ := h
  rw [follow_append, hp] at hq
  exact (follow_leaf ha hq).2.symm

/-! ### The nodes of the tree -/

theorem Made.mono {s : State} {j k : Nat} {id : NodeId} (h : Made s j id) (hjk : j ≤ k) :
    Made s k id :=
  h.imp (fun x => x) fun ⟨a, b⟩ => ⟨a, by omega⟩

/-- An internal node that is made is below the bound. -/
theorem Made.internal {s : State} {j : Nat} {id : NodeId} (h : Made s j id) (hl : isLeaf id = false) :
    256 ≤ id.toNat ∧ id.toNat < 256 + j := by
  rcases h with h | h
  · simp [hl] at h
  · exact h

/-- A leaf that is made has a count. -/
theorem Made.leaf {s : State} {j : Nat} {b : Byte} (h : Made s j (leafId b)) :
    byteEntry s.freq b ≠ 0#32 := by
  rcases h with h | h
  · simpa using h.2
  · have := b.isLt
    simp at h
    omega

/-- The children of a node that is made are made before it. -/
theorem NodeTable.child {s : State} (h : NodeTable s) {id : NodeId} {j : Nat} (hj : j ≤ s.nint.toNat)
    (hm : Made s j id) (hl : isLeaf id = false) :
    ∃ l r, s.leftChild id = some l ∧ s.rightChild id = some r ∧
      Made s (id.toNat - 256) l ∧ Made s (id.toNat - 256) r := by
  obtain ⟨h1, h2⟩ := hm.internal hl
  obtain ⟨l, r, _, _, hl, hr, ml, mr, _⟩ := h.inner id h1 (by omega)
  exact ⟨l, r, hl, hr, ml, mr⟩

/-- A path from a node that is made ends at one. -/
theorem NodeTable.follow_made {s : State} (h : NodeTable s) {n m : NodeId} {p : Code}
    (hn : Made s s.nint.toNat n) (hp : follow s n p = some m) : Made s s.nint.toNat m := by
  induction p generalizing n with
  | nil => simp at hp; exact hp ▸ hn
  | cons bit p ih =>
    cases hl : isLeaf n with
    | true => have := follow_leaf hl hp; simp at this
    | false =>
      obtain ⟨l, r, hl', hr', ml, mr⟩ := h.child (Nat.le_refl _) hn hl
      have hb := (hn.internal hl).2
      cases bit with
      | false => rw [follow_cons p (c := l) (by simpa using hl')] at hp; exact ih (ml.mono (by omega)) hp
      | true => rw [follow_cons p (c := r) (by simpa using hr')] at hp; exact ih (mr.mono (by omega)) hp

/-- Every node of the tree is reached from its root. -/
theorem reached {s : State} (h : NodeTable s) {r : NodeId}
    (hroots : ∀ id, Made s s.nint.toNat id →
      id = r ∨ ∃ p : NodeId, 256 ≤ p.toNat ∧ p.toNat < 256 + s.nint.toNat ∧ IsChild s p id)
    (id : NodeId) (hm : Made s s.nint.toNat id) : ∃ q, follow s r q = some id := by
  have step : ∀ c, Made s s.nint.toNat c →
      (∀ p : NodeId, 256 ≤ p.toNat → p.toNat < 256 + s.nint.toNat → IsChild s p c →
        ∃ q, follow s r q = some p) → ∃ q, follow s r q = some c := by
    intro c hc hp
    rcases hroots c hc with e | ⟨p, h1, h2, h3⟩
    · exact ⟨[], by simp [e]⟩
    · obtain ⟨q, hq⟩ := hp p h1 h2 h3
      rcases h3 with h3 | h3
      · exact ⟨q ++ [false], by rw [follow_append, hq]; simp [follow, h3]⟩
      · exact ⟨q ++ [true], by rw [follow_append, hq]; simp [follow, h3]⟩
  have inner : ∀ (k : Nat) (c : NodeId), 256 ≤ c.toNat → c.toNat < 256 + s.nint.toNat →
      256 + s.nint.toNat - c.toNat ≤ k → ∃ q, follow s r q = some c := by
    intro k
    induction k with
    | zero => intro c _ h2 h3; omega
    | succ k ih =>
      intro c h1 h2 h3
      refine step c (.inr ⟨h1, h2⟩) fun p hp1 hp2 hpc => ih p hp1 hp2 ?_
      obtain ⟨l, r, _, _, hl, hr, ml, mr, _⟩ := h.inner p hp1 hp2
      have hcm : Made s (p.toNat - 256) c := by
        rcases hpc with e | e
        · rw [hl] at e; cases e; exact ml
        · rw [hr] at e; cases e; exact mr
      have := (hcm.internal ((isLeaf_false_iff c).mpr h1)).2
      omega
  exact step id hm fun p h1 h2 _ => inner _ p h1 h2 (Nat.le_refl _)

/-! ### The traversal -/

/-- `visit` at a leaf records the path. -/
theorem visit_leaf (s : State) (fuel : Nat) {n : NodeId} (p : Code)
    (t : Table (Option Code) Config.freqEntries) (h : isLeaf n = true) :
    visit s fuel n p t = .ok (t.set (leafByte n).toNat (some p)) := by
  unfold visit
  exact if_pos h

/-- `visit` at an internal node, its left child visited before its right one. -/
theorem visit_internal (s : State) (fuel : Nat) {n : NodeId} (p : Code)
    (t : Table (Option Code) Config.freqEntries) (h : isLeaf n = false) :
    visit s (fuel + 1) n p t =
      match s.leftChild n with
      | none => .error (.unwrittenChild n)
      | some l =>
        match visit s fuel l (p ++ [Config.leftBit]) t with
        | .error f => .error f
        | .ok t1 =>
          match s.rightChild n with
          | none => .error (.unwrittenChild n)
          | some r => visit s fuel r (p ++ [Config.rightBit]) t1 := by
  conv => lhs; unfold visit
  exact if_neg (by simp [h])

/-- What `visit(n, p)` leaves in each entry, if it ends: the entry as it was, or the path extended to
that leaf; and every leaf below `n` has such an entry. -/
theorem visit_spec {s : State} {fuel : Nat} {n : NodeId} {p : Code}
    {t u : Table (Option Code) Config.freqEntries} (h : visit s fuel n p t = .ok u) :
    (∀ b : Byte, byteEntry u b = byteEntry t b ∨
      ∃ q, byteEntry u b = some (p ++ q) ∧ follow s n q = some (leafId b) ∧ q.length ≤ fuel) ∧
    (∀ (b : Byte) (q : Code), follow s n q = some (leafId b) →
      ∃ q', byteEntry u b = some (p ++ q')) := by
  have leaf : ∀ {n : NodeId} {p : Code} {t u : Table (Option Code) Config.freqEntries} (fuel : Nat),
      isLeaf n = true → visit s fuel n p t = .ok u →
      (∀ b : Byte, byteEntry u b = byteEntry t b ∨
        ∃ q, byteEntry u b = some (p ++ q) ∧ follow s n q = some (leafId b) ∧ q.length ≤ fuel) ∧
      (∀ (b : Byte) (q : Code), follow s n q = some (leafId b) →
        ∃ q', byteEntry u b = some (p ++ q')) := by
    intro n p t u fuel hl h
    rw [visit_leaf s fuel p t hl] at h
    cases h
    refine ⟨fun b => ?_, fun b q hq => ?_⟩
    · rw [byteEntry_set]
      split
      · rename_i e
        exact .inr ⟨[], by simp, by rw [← e, leafId_leafByte n hl]; rfl, by simp⟩
      · exact .inl rfl
    · obtain ⟨rfl, e⟩ := follow_leaf hl hq
      exact ⟨[], by rw [byteEntry_set, ← e]; simp⟩
  induction fuel generalizing n p t u with
  | zero =>
    cases hl : isLeaf n with
    | true => exact leaf 0 hl h
    | false => unfold visit at h; simp [hl] at h
  | succ fuel ih =>
    cases hl : isLeaf n with
    | true => exact leaf _ hl h
    | false =>
      rw [visit_internal s fuel p t hl] at h
      split at h
      · cases h
      · rename_i l hleft
        split at h
        · cases h
        · rename_i t1 h1
          split at h
          · cases h
          · rename_i r hright
            obtain ⟨a1, b1⟩ := ih h1
            obtain ⟨a2, b2⟩ := ih h
            refine ⟨fun b => ?_, fun b q hq => ?_⟩
            · rcases a2 b with e | ⟨q, e, hf, hlen⟩
              · rcases a1 b with e' | ⟨q, e', hf, hlen⟩
                · exact .inl (e.trans e')
                · refine .inr ⟨false :: q, by rw [e, e']; simp [Config.leftBit], ?_, by simp [hlen]⟩
                  rw [follow_cons q (c := l) (by simpa using hleft)]
                  exact hf
              · refine .inr ⟨true :: q, by rw [e]; simp [Config.rightBit], ?_, by simp [hlen]⟩
                rw [follow_cons q (c := r) (by simpa using hright)]
                exact hf
            · cases q with
              | nil =>
                simp at hq
                simp [hq] at hl
              | cons bit q =>
                cases bit with
                | false =>
                  rw [follow_cons q (c := l) (by simpa using hleft)] at hq
                  obtain ⟨q', e'⟩ := b1 b q hq
                  rcases a2 b with e | ⟨q, e, _, _⟩
                  · exact ⟨Config.leftBit :: q', by rw [e, e']; simp⟩
                  · exact ⟨Config.rightBit :: q, by rw [e]; simp⟩
                | true =>
                  rw [follow_cons q (c := r) (by simpa using hright)] at hq
                  obtain ⟨q', e'⟩ := b2 b q hq
                  exact ⟨Config.rightBit :: q', by rw [e']; simp⟩

/-- On a node table the traversal ends: a path passes each internal node at most once. -/
theorem visit_total {s : State} (h : NodeTable s) (fuel j : Nat) (n : NodeId) (p : Code)
    (t : Table (Option Code) Config.freqEntries) (hj : j ≤ s.nint.toNat) (hf : j ≤ fuel)
    (hn : Made s j n) : ∃ u, visit s fuel n p t = .ok u := by
  induction fuel generalizing j n p t with
  | zero =>
    cases hl : isLeaf n with
    | true => exact ⟨_, visit_leaf s 0 p t hl⟩
    | false => have := hn.internal hl; omega
  | succ fuel ih =>
    cases hl : isLeaf n with
    | true => exact ⟨_, visit_leaf s _ p t hl⟩
    | false =>
      obtain ⟨l, r, h1, h2, ml, mr⟩ := h.child hj hn hl
      have hb := (hn.internal hl).2
      obtain ⟨t1, e1⟩ := ih (n.toNat - 256) l (p ++ [Config.leftBit]) t (by omega) (by omega) ml
      obtain ⟨t2, e2⟩ := ih (n.toNat - 256) r (p ++ [Config.rightBit]) t1 (by omega) (by omega) mr
      exact ⟨t2, by rw [visit_internal s fuel p t hl]; simp [h1, h2, e1, e2]⟩

/-! ### The code table -/

/-- The code table of an empty tree, or of none (43 R181 (b)). -/
theorem codeTable_empty (s : State) (h : s.rootKind = .empty ∨ s.rootKind = .none) :
    codeTable s = .ok s.code := by
  rcases h with h | h <;> simp [codeTable, h]

/-- The code table of a single leaf (43 R181 (a)). -/
theorem codeTable_leaf (s : State) (h : s.rootKind = .leaf) :
    codeTable s = .ok (s.code.set (leafByte s.rootId).toNat (some Config.singleCode)) := by
  simp [codeTable, h]

/-- The code table of an internal root (43 R181). -/
theorem codeTable_internal (s : State) (h : s.rootKind = .internal) :
    codeTable s = visit s Config.maxInternal s.rootId [] s.code := by
  simp [codeTable, h]

/-- `CG.GEN` where the code table is found. -/
theorem execCgGen_ok {s : State} {u : Table (Option Code) Config.freqEntries}
    (h : codeTable s = .ok u) : execCgGen s = .next { s with code := u, phase := Phase.pWrh } := by
  simp [execCgGen, h]

/-! ### Where the traversal stops -/

/-- The traversal that ends well has met both children of every internal node it passed. -/
theorem visit_ok_children {s : State} {fuel : Nat} {n : NodeId} {p : Code}
    {t u : Table (Option Code) Config.freqEntries} (h : visit s fuel n p t = .ok u)
    {q : Code} {m : NodeId} (hq : follow s n q = some m) (hm : isLeaf m = false) :
    s.leftChild m ≠ none ∧ s.rightChild m ≠ none := by
  induction fuel generalizing n p t u q with
  | zero =>
    cases hl : isLeaf n with
    | true => rw [(follow_leaf hl hq).2, hl] at hm; cases hm
    | false => simp [visit, hl] at h
  | succ fuel ih =>
    cases hl : isLeaf n with
    | true => rw [(follow_leaf hl hq).2, hl] at hm; cases hm
    | false =>
      simp only [visit, hl, Bool.false_eq_true, if_false] at h
      split at h
      · cases h
      rename_i l hL
      split at h
      · cases h
      rename_i t1 h1
      split at h
      · cases h
      rename_i r hR
      cases q with
      | nil => simp at hq; subst hq; simp [hL, hR]
      | cons bit q =>
        cases bit with
        | false => rw [follow_cons q (c := l) (by simpa using hL)] at hq; exact ih h1 hq
        | true => rw [follow_cons q (c := r) (by simpa using hR)] at hq; exact ih h hq

/-- Where the traversal stops: at a node without a child, or on a path as long as the bound. -/
theorem visit_error {s : State} {fuel : Nat} {n : NodeId} {p : Code}
    {t : Table (Option Code) Config.freqEntries} {f : Fault} (h : visit s fuel n p t = .error f) :
    (∃ m, isLeaf m = false ∧ (s.leftChild m = none ∨ s.rightChild m = none) ∧ f = .unwrittenChild m) ∨
    (∃ m q, follow s n q = some m ∧ isLeaf m = false ∧ q.length = fuel ∧ f = .traversalDoesNotEnd) := by
  induction fuel generalizing n p t with
  | zero =>
    cases hl : isLeaf n with
    | true => simp [visit, hl] at h
    | false => simp [visit, hl] at h; exact .inr ⟨n, [], rfl, hl, rfl, h.symm⟩
  | succ fuel ih =>
    cases hl : isLeaf n with
    | true => simp [visit, hl] at h
    | false =>
      simp only [visit, hl, Bool.false_eq_true, if_false] at h
      split at h
      · rename_i hL; cases h; exact .inl ⟨n, hl, .inl hL, rfl⟩
      rename_i l hL
      split at h
      · rename_i g h1
        cases h
        rcases ih h1 with h2 | ⟨m, q, a, b, c, d⟩
        · exact .inl h2
        · exact .inr ⟨m, false :: q, by rw [follow_cons q (c := l) (by simpa using hL)]; exact a, b,
            by simp [c], d⟩
      split at h
      · rename_i hR; cases h; exact .inl ⟨n, hl, .inr hR, rfl⟩
      rename_i r hR
      rcases ih h with h2 | ⟨m, q, a, b, c, d⟩
      · exact .inl h2
      · exact .inr ⟨m, true :: q, by rw [follow_cons q (c := r) (by simpa using hR)]; exact a, b,
          by simp [c], d⟩

end Sys2Proof.Machine
end

