-- ==== Sys2Proof/Laws/Container.lean ====
section
/-! SUPPORT. The header of a container (20_memory.md rule R62, 30_encoding.md rules R91 and R99): its
bytes from the counts, the counts from its bytes, and their sum. -/

namespace Sys2Proof.Machine

/-- The bytes of a count, most significant first (R62). -/
theorem countBytes_eq (order : Config.ByteOrder) (c : Count) :
    countBytes order c =
      [c.extractLsb' 24 8, c.extractLsb' 16 8, c.extractLsb' 8 8, c.extractLsb' 0 8] := rfl

/-- Four bytes for each entry of a list of counts. -/
theorem flatMap_countBytes_length (order : Config.ByteOrder) (l : List Count) :
    (l.flatMap (countBytes order)).length = 4 * l.length := by
  induction l with
  | nil => rfl
  | cons c l ih => simp [countBytes_eq, ih]; omega

/-- Byte `j` of entry `i`. -/
theorem flatMap_countBytes_getElem? (order : Config.ByteOrder) (l : List Count) (i j : Nat)
    (h : j < 4) :
    (l.flatMap (countBytes order))[4 * i + j]? = (l[i]?).bind fun c => (countBytes order c)[j]? := by
  induction l generalizing i with
  | nil => simp
  | cons c l ih =>
    cases i with
    | zero =>
      rw [List.flatMap_cons, List.getElem?_append_left (by simp [countBytes_eq]; omega)]
      simp
    | succ i =>
      rw [List.flatMap_cons, List.getElem?_append_right (by simp [countBytes_eq]; omega)]
      have e : 4 * (i + 1) + j - (countBytes order c).length = 4 * i + j := by simp [countBytes_eq]; omega
      rw [e, ih]
      simp

/-- The header is 1024 bytes (R91). -/
@[simp] theorem headerBytes_length (order : Config.ByteOrder) (freq : Table Count Config.freqEntries) :
    (headerBytes order freq).length = 1024 := by
  rw [headerBytes, flatMap_countBytes_length, freq.len, Config.freqEntries]

/-- Byte `j` of the entry of a byte value, most significant first (R62). -/
theorem headerBytes_getElem? (order : Config.ByteOrder) (freq : Table Count Config.freqEntries) (b : Byte)
    (j : Nat) (h : j < 4) :
    (headerBytes order freq)[4 * b.toNat + j]? = (countBytes order (byteEntry freq b))[j]? := by
  have hb : b.toNat < freq.rows.length := by rw [freq.len]; exact b.isLt
  rw [headerBytes, flatMap_countBytes_getElem? _ _ _ _ h, List.getElem?_eq_getElem hb]
  rfl

theorem append_toNat {m n : Nat} (x : BitVec m) (y : BitVec n) :
    (x ++ y).toNat = x.toNat * 2 ^ n + y.toNat := by
  rw [BitVec.toNat_append, ← Nat.shiftLeft_add_eq_or_of_lt y.isLt, Nat.shiftLeft_eq]

/-- A count from its four bytes (R99). -/
theorem headerCount_toNat (s : State) (i : Nat) :
    (headerCount s i).toNat =
      (s.inputByte (4 * i)).toNat * 2 ^ 24 + (s.inputByte (4 * i + 1)).toNat * 2 ^ 16 +
        (s.inputByte (4 * i + 2)).toNat * 2 ^ 8 + (s.inputByte (4 * i + 3)).toNat := by
  unfold headerCount
  show (s.inputByte (4 * i) ++ s.inputByte (4 * i + 1) ++ s.inputByte (4 * i + 2) ++
    s.inputByte (4 * i + 3) : BitVec 32).toNat = _
  rw [append_toNat, append_toNat, append_toNat]
  omega

/-- A 40-bit sum of 32-bit counts that cannot wrap is their sum. -/
theorem foldl_counts_toNat (l : List Count) (acc : Weight)
    (h : acc.toNat + l.length * (2 ^ 32 - 1) < 2 ^ 40) :
    (l.foldl (fun a c => a + c.setWidth 40) acc).toNat = acc.toNat + (l.map BitVec.toNat).sum := by
  induction l generalizing acc with
  | nil => simp
  | cons c l ih =>
    have hc := c.isLt
    simp only [List.length_cons] at h
    have e : (acc + c.setWidth 40).toNat = acc.toNat + c.toNat := by
      rw [BitVec.toNat_add, BitVec.toNat_setWidth]
      omega
    rw [List.foldl_cons, ih _ (by rw [e]; omega), e]
    simp
    omega

/-- The sum of a frequency table cannot wrap in 40 bits (R99). -/
theorem sumCounts_toNat (freq : Table Count Config.freqEntries) :
    (sumCounts freq).toNat = (freq.rows.map BitVec.toNat).sum := by
  rw [sumCounts, foldl_counts_toNat _ _ (by rw [freq.len]; decide)]
  simp

/-- `CC.RDH` on a container with a whole header (46 R217). -/
theorem execCcRdh_ok (s : State) (h : 1024 ≤ s.inLen.toNat) (hc : 1024 ≤ s.ibufCap) :
    execCcRdh s = .next { s with
      freq := headerCounts s, nsym := sumCounts (headerCounts s)
      inPos := 1024#32, bitPos := 0#3, phase := Phase.pTbi } := by
  unfold execCcRdh
  rw [if_neg (by unfold Config.hdrBytes; omega), if_neg (by unfold Config.hdrBytes; omega),
    Config.streamOff]

end Sys2Proof.Machine
end

