-- ==== Sys2Proof/Laws/Decode.lean ====
section
/-! SUPPORT. The fields of a selection: the code in a command word, and what the mask leaves of a
dispatch byte. -/

namespace Sys2Proof

/-- The code is read from bits 7:0 of a command word (R97). -/
theorem commandCode_eq_extract (w : BitVec 32) : commandCode w = w.extractLsb' 0 8 := by
  ext i hi
  simp [commandCode]

/-- Bits 31:8 of a command word are ignored (R97). -/
@[simp] theorem commandCode_commandWord (ignored : BitVec 24) (code : Byte) :
    commandCode (commandWord ignored code) = code := by
  ext i hi
  have h : (commandWord ignored code).getLsbD i = _ := BitVec.getLsbD_append
  simp [commandCode, h, hi]

/-- The mask drops `MODE` (R98). -/
theorem dispatchByte_mask (mode : Bool) (row : Byte) (h : row &&& selMask = row) :
    dispatchByte mode row &&& selMask = row := by
  unfold dispatchByte
  split
  · have : (row ||| 0x04#8) &&& selMask = row &&& selMask := by
      ext i hi
      match i, hi with
      | 0, _ | 1, _ | 2, _ | 3, _ | 4, _ | 5, _ | 6, _ | 7, _ => simp [selMask]
    rw [this, h]
  · exact h

end Sys2Proof
end

