-- ==== Sys2Proof/Laws/Packer.lean ====
section
/-! SUPPORT. What the loop of `BP.SYM` does with a code (44_bit_packer.md rule R191): the bits it
holds before and after, and the bytes it writes. -/

namespace Sys2Proof.Machine

/-! ### The accumulator -/

/-- Stream bit `i` of a byte stands at position `7 - i` (20 R63). -/
theorem bitPlace_eq (order : Config.BitOrder) (i : BitVec 3) : bitPlace order i = 7 - i.toNat := rfl

theorem setBit_getLsbD (acc : Byte) (i : Nat) (b : Bool) (j : Nat) (hj : j < 8) :
    (setBit acc i b).getLsbD j = if j = i then b else acc.getLsbD j := by
  have e : (1#8 <<< i).getLsbD j = decide (j = i) := by
    rw [BitVec.getLsbD_shiftLeft, BitVec.getLsbD_one]
    by_cases h : j = i
    · simp [h]; omega
    · simp [h]; omega
  cases b <;> by_cases h : j = i
  all_goals simp only [setBit, if_true, Bool.false_eq_true, if_false, BitVec.getLsbD_and,
    BitVec.getLsbD_or, BitVec.getLsbD_not, e]
  all_goals simp [h, hj]

@[simp] theorem accBits_length (s : State) : (accBits s).length = s.nacc.toNat := by
  simp [accBits]

theorem accBits_getElem? (s : State) (i : Nat) :
    (accBits s)[i]? = if i < s.nacc.toNat then some (s.acc.getLsbD (7 - i)) else none := by
  simp only [accBits, List.getElem?_map]
  split <;> simp_all

/-- The accumulator with one bit more (R191). -/
theorem accBits_placed (bit : Bool) (s : State) (h : s.nacc ≠ 7#3) :
    accBits { placeBit bit s with nacc := s.nacc + 1#3 } = accBits s ++ [bit] := by
  have hn : s.nacc.toNat < 7 := by
    have := s.nacc.isLt
    have : s.nacc.toNat ≠ 7 := fun e => h (BitVec.eq_of_toNat_eq e)
    omega
  have e : (s.nacc + 1#3).toNat = s.nacc.toNat + 1 := by
    rw [BitVec.toNat_add]; simp; omega
  apply List.ext_getElem?
  intro i
  rw [accBits_getElem?]
  simp only [e, placeBit, bitPlace_eq]
  by_cases h1 : i < s.nacc.toNat
  · rw [List.getElem?_append_left (by simpa using h1), accBits_getElem?, if_pos h1,
      if_pos (by omega), setBit_getLsbD _ _ _ _ (by omega), if_neg (by omega)]
  · by_cases h2 : i = s.nacc.toNat
    · subst h2
      rw [List.getElem?_append_right (by simp), if_pos (by omega),
        setBit_getLsbD _ _ _ _ (by omega)]
      simp
    · rw [if_neg (by omega), List.getElem?_append_right (by simp; omega)]
      simp
      omega

/-- A full accumulator: the bits of the byte written, the oldest in bit 7 (R191, 20 R63). -/
theorem fullByte_getLsbD (bit : Bool) (s : State) (h : s.nacc = 7#3) (j : Nat) (hj : j < 8) :
    (placeBit bit s).acc.getLsbD (7 - j) = ((accBits s ++ [bit])[j]?).getD false := by
  have hl : (accBits s).length = 7 := by simp [h]
  simp only [placeBit, bitPlace_eq, h]
  rw [setBit_getLsbD _ _ _ _ (by omega)]
  by_cases h7 : j = 7
  · subst h7
    rw [List.getElem?_append_right (by omega)]
    simp [hl]
  · rw [List.getElem?_append_left (by omega), accBits_getElem?]
    simp [h]
    rw [if_neg (by omega), if_pos (by omega)]
    simp

/-- With `PAD_BIT` = 0 the padding is what the free bits hold already (R192). -/
@[simp] theorem padAcc_eq (s : State) : padAcc s = s := rfl

/-! ### The loop -/

/-- What the loop of `BP.SYM` leaves, with room for every byte it writes. -/
structure Packed (p : Code) (s t : State) : Prop where
  nacc : t.nacc.toNat = (s.nacc.toNat + p.length) % 8
  bits : accBits t = (accBits s ++ p).drop (8 * ((s.nacc.toNat + p.length) / 8))
  clear : AccClear s → AccClear t
  written : ∀ k, k < (s.nacc.toNat + p.length) / 8 →
    ∃ v, t.obuf.read (s.outPos.toNat + k) = some v ∧
      ∀ j, j < 8 → v.getLsbD (7 - j) = ((accBits s ++ p)[8 * k + j]?).getD false
  kept : ∀ a, a < s.outPos.toNat ∨ s.outPos.toNat + (s.nacc.toNat + p.length) / 8 ≤ a →
    t.obuf.read a = s.obuf.read a
  outPos : t.outPos.toNat = s.outPos.toNat + (s.nacc.toNat + p.length) / 8
  total : t.totalBits = s.totalBits + BitVec.ofNat 40 p.length
  frame : t = { s with
    acc := t.acc, nacc := t.nacc, totalBits := t.totalBits, obuf := t.obuf, outPos := t.outPos }

theorem packBits_room (p : Code) (s : State)
    (h : s.outPos.toNat + (s.nacc.toNat + p.length) / 8 ≤ s.obufCap)
    (hc : s.outPos.toNat + (s.nacc.toNat + p.length) / 8 < 2 ^ 64) :
    ∃ t, packBits p s = .cont t ∧ Packed p s t := by
  induction p generalizing s with
  | nil =>
    have hn := s.nacc.isLt
    have e : s.nacc.toNat / 8 = 0 := by omega
    refine ⟨s, rfl, ?_, ?_, fun x => x, ?_, fun _ _ => rfl, ?_, ?_, rfl⟩
    · simp; omega
    · simp [e]
    · simp [e]
    · simp [e]
    · simp
  | cons bit p ih =>
    have hn := s.nacc.isLt
    simp only [List.length_cons] at h
    by_cases h7 : s.nacc = 7#3
    · have hroom : (placeBit bit s).outPos.toNat ≠ (placeBit bit s).obufCap := by
        show s.outPos.toNat ≠ s.obufCap
        simp [h7] at h
        omega
      have hlt : s.outPos.toNat < s.obufCap := by simp [h7] at h; omega
      have hs := outPos_succ s (by simp [h7] at hc; omega)
      have h7' : s.nacc.toNat = 7 := by simp [h7]
      have e : (7 + (p.length + 1)) / 8 = p.length / 8 + 1 := by omega
      have e0 : (7 + (p.length + 1)) % 8 = p.length % 8 := by omega
      obtain ⟨t, ht, hp⟩ := ih { placeBit bit s with
          obuf := s.obuf.write s.outPos.toNat (placeBit bit s).acc, outPos := s.outPos + 1#64
          acc := 0#8, nacc := 0#3 } (by
        show (s.outPos + 1#64).toNat + (0 + p.length) / 8 ≤ s.obufCap
        rw [hs]
        rw [h7', e] at h
        omega) (by
        show (s.outPos + 1#64).toNat + (0 + p.length) / 8 < 2 ^ 64
        rw [hs]
        rw [h7', List.length_cons, e] at hc
        omega)
      obtain ⟨p1, p2, p3, p4, p5, p6, p7, p8⟩ := hp
      have p2 : accBits t = (([] : List Bool) ++ p).drop (8 * ((0 + p.length) / 8)) := p2
      have p4 : ∀ k, k < (0 + p.length) / 8 →
          ∃ v, t.obuf.read ((s.outPos + 1#64).toNat + k) = some v ∧
            ∀ j, j < 8 → v.getLsbD (7 - j) = ((([] : List Bool) ++ p)[8 * k + j]?).getD false := p4
      simp only [List.nil_append, BitVec.toNat_zero, Nat.zero_add, hs] at p1 p2 p4 p5 p6
      refine ⟨t, ?_, ?_, ?_, ?_, ?_, ?_, ?_, ?_, ?_⟩
      · simp only [packBits, packBit, h7, if_true, emitAcc, outByte_room _ _ hroom, Flow.andThen_cont]
        exact ht
      · rw [h7', List.length_cons, e0, p1]
      · rw [p2, h7', List.length_cons, e, show 8 * (p.length / 8 + 1) = 8 + 8 * (p.length / 8) by omega,
          ← List.drop_drop]
        have : (accBits s ++ bit :: p).drop 8 = p := by
          have hl : (accBits s ++ [bit]).length = 8 := by simp [h7]
          rw [show accBits s ++ bit :: p = (accBits s ++ [bit]) ++ p by simp, ← hl, List.drop_left]
        rw [this]
      · intro _
        apply p3
        intro i _
        simp
      · rw [h7', List.length_cons, e]
        intro k hk
        cases k with
        | zero =>
          refine ⟨(placeBit bit s).acc, ?_, fun j hj => ?_⟩
          · rw [p5 _ (.inl (show s.outPos.toNat + 0 < s.outPos.toNat + 1 by omega))]
            exact Memory.read_write_same _ _ _
          · rw [fullByte_getLsbD bit s h7 j hj]
            rw [show accBits s ++ bit :: p = (accBits s ++ [bit]) ++ p by simp]
            rw [List.getElem?_append_left (l₁ := accBits s ++ [bit]) (by simp [h7]; omega)]
            simp
        | succ k =>
          obtain ⟨v, hv, hb⟩ := p4 k (by omega)
          refine ⟨v, by rw [← hv]; congr 1; omega, fun j hj => ?_⟩
          rw [hb j hj, show accBits s ++ bit :: p = (accBits s ++ [bit]) ++ p by simp,
            List.getElem?_append_right (l₁ := accBits s ++ [bit]) (by simp [h7]; omega)]
          simp only [List.length_append, accBits_length, h7', List.length_singleton]
          congr 2
          omega
      · intro a ha
        rw [h7', List.length_cons, e] at ha
        rw [p5 a (by omega)]
        exact Memory.read_write_ne _ _ (by omega)
      · rw [p6, h7', List.length_cons, e]
        omega
      · rw [p7]
        show s.totalBits + 1#40 + _ = _
        rw [List.length_cons, BitVec.add_assoc]
        congr 1
        apply BitVec.eq_of_toNat_eq
        simp [Nat.add_comm]
      · exact p8
    · have hn7 : s.nacc.toNat < 7 := by
        have : s.nacc.toNat ≠ 7 := fun e => h7 (BitVec.eq_of_toNat_eq e)
        omega
      have en : (s.nacc + 1#3).toNat = s.nacc.toNat + 1 := by rw [BitVec.toNat_add]; simp; omega
      have ea : s.nacc.toNat + 1 + p.length = s.nacc.toNat + (p.length + 1) := by omega
      obtain ⟨t, ht, hp⟩ := ih { placeBit bit s with nacc := s.nacc + 1#3 } (by
        show s.outPos.toNat + ((s.nacc + 1#3).toNat + p.length) / 8 ≤ s.obufCap
        rw [en, ea]
        exact h) (by
        show s.outPos.toNat + ((s.nacc + 1#3).toNat + p.length) / 8 < 2 ^ 64
        rw [en, ea]
        exact hc)
      obtain ⟨p1, p2, p3, p4, p5, p6, p7, p8⟩ := hp
      rw [accBits_placed bit s h7] at p2 p4
      simp only [en, ea, List.append_assoc, List.singleton_append] at p1 p2 p4 p5 p6
      refine ⟨t, ?_, p1, p2, ?_, p4, p5, p6, ?_, p8⟩
      · simp only [packBits, packBit, h7, if_false, Flow.andThen_cont]
        exact ht
      · intro hclear
        apply p3
        intro i hi
        simp only [en] at hi
        show (setBit s.acc (7 - s.nacc.toNat) bit).getLsbD i = false
        rw [setBit_getLsbD _ _ _ _ (by omega), if_neg (by omega)]
        exact hclear i (by omega)
      · rw [p7]
        show s.totalBits + 1#40 + _ = _
        rw [List.length_cons, BitVec.add_assoc]
        congr 1
        apply BitVec.eq_of_toNat_eq
        simp [Nat.add_comm]

/-- What the loop of `BP.SYM` leaves when the buffer is full before its last byte (R191, 60 R233). -/
structure PackedFull (p : Code) (s t : State) : Prop where
  err : t.err = .outputUnwritable
  errInfo : t.errInfo.toNat = s.obufCap
  outPos : t.outPos.toNat = s.obufCap
  nacc : t.nacc = 7#3
  total : t.totalBits = s.totalBits +
    BitVec.ofNat 40 (8 * (s.obufCap - s.outPos.toNat + 1) - s.nacc.toNat)
  written : ∀ k, s.outPos.toNat + k < s.obufCap →
    ∃ v, t.obuf.read (s.outPos.toNat + k) = some v ∧
      ∀ j, j < 8 → v.getLsbD (7 - j) = ((accBits s ++ p)[8 * k + j]?).getD false
  acc : ∀ j, j < 8 → t.acc.getLsbD (7 - j) =
    ((accBits s ++ p)[8 * (s.obufCap - s.outPos.toNat) + j]?).getD false
  kept : ∀ a, a < s.outPos.toNat ∨ s.obufCap ≤ a → t.obuf.read a = s.obuf.read a
  frame : t = { s with
    acc := t.acc, nacc := t.nacc, totalBits := t.totalBits, obuf := t.obuf, outPos := t.outPos
    err := t.err, errInfo := t.errInfo, run := .error, phase := Phase.pNone }

theorem packBits_full (p : Code) (s : State) (h0 : s.outPos.toNat ≤ s.obufCap)
    (h : s.obufCap < s.outPos.toNat + (s.nacc.toNat + p.length) / 8) (hc : s.obufCap < 2 ^ 64) :
    ∃ t, packBits p s = .halt (.next t) ∧ PackedFull p s t := by
  induction p generalizing s with
  | nil =>
    have := s.nacc.isLt
    simp at h
    omega
  | cons bit p ih =>
    have hn := s.nacc.isLt
    simp only [List.length_cons] at h
    by_cases h7 : s.nacc = 7#3
    · have h7' : s.nacc.toNat = 7 := by simp [h7]
      by_cases hf : s.outPos.toNat = s.obufCap
      · refine ⟨raise .outputUnwritable s.outPos (placeBit bit s), ?_, rfl, hf, hf, h7, ?_,
          fun k hk => absurd hk (by omega), fun j hj => ?_, fun _ _ => rfl, rfl⟩
        · simp only [packBits, packBit, h7, if_true, emitAcc]
          rw [outByte_full _ (placeBit bit s) hf]
          rfl
        · show s.totalBits + 1#40 = _
          rw [h7', hf]
          simp
        · show (placeBit bit s).acc.getLsbD (7 - j) = _
          rw [fullByte_getLsbD bit s h7 j hj, hf, Nat.sub_self, Nat.mul_zero, Nat.zero_add,
            show accBits s ++ bit :: p = (accBits s ++ [bit]) ++ p by simp,
            List.getElem?_append_left (l₁ := accBits s ++ [bit]) (by simp [h7]; omega)]
      · have hs := outPos_succ s (by omega)
        have e : (7 + (p.length + 1)) / 8 = p.length / 8 + 1 := by omega
        rw [h7', e] at h
        obtain ⟨t, ht, p1, p2, p3, p4, p5, q1, q2, p6, p7⟩ := ih { placeBit bit s with
            obuf := s.obuf.write s.outPos.toNat (placeBit bit s).acc, outPos := s.outPos + 1#64
            acc := 0#8, nacc := 0#3 } (by
          show (s.outPos + 1#64).toNat ≤ s.obufCap
          omega) (by
          show s.obufCap < (s.outPos + 1#64).toNat + (0 + p.length) / 8
          rw [hs]
          omega) hc
        have q1 : ∀ k, (s.outPos + 1#64).toNat + k < s.obufCap →
            ∃ v, t.obuf.read ((s.outPos + 1#64).toNat + k) = some v ∧
              ∀ j, j < 8 → v.getLsbD (7 - j) = ((([] : List Bool) ++ p)[8 * k + j]?).getD false := q1
        have q2 : ∀ j, j < 8 → t.acc.getLsbD (7 - j) = ((([] : List Bool) ++ p)[
            8 * (s.obufCap - (s.outPos + 1#64).toNat) + j]?).getD false := q2
        simp only [List.nil_append, hs] at q1 q2
        refine ⟨t, ?_, p1, p2, p3, p4, ?_, ?_, ?_, ?_, p7⟩
        · simp only [packBits, packBit, h7, if_true, emitAcc]
          rw [outByte_room _ (placeBit bit s) hf]
          exact ht
        · rw [p5]
          show s.totalBits + 1#40 + BitVec.ofNat 40 (8 * (s.obufCap - (s.outPos + 1#64).toNat + 1) - 0) = _
          rw [hs, BitVec.add_assoc, h7']
          congr 1
          rw [show 1#40 = BitVec.ofNat 40 1 from rfl, ← BitVec.ofNat_add]
          congr 1
          omega
        · intro k hk
          cases k with
          | zero =>
            refine ⟨(placeBit bit s).acc, ?_, fun j hj => ?_⟩
            · rw [p6 _ (.inl (show s.outPos.toNat + 0 < (s.outPos + 1#64).toNat by omega))]
              exact Memory.read_write_same _ _ _
            · rw [fullByte_getLsbD bit s h7 j hj,
                show accBits s ++ bit :: p = (accBits s ++ [bit]) ++ p by simp,
                List.getElem?_append_left (l₁ := accBits s ++ [bit]) (by simp [h7]; omega)]
              simp
          | succ k =>
            obtain ⟨v, hv, hb⟩ := q1 k (by omega)
            refine ⟨v, by rw [← hv]; congr 1; omega, fun j hj => ?_⟩
            rw [hb j hj, show accBits s ++ bit :: p = (accBits s ++ [bit]) ++ p by simp,
              List.getElem?_append_right (l₁ := accBits s ++ [bit]) (by simp [h7]; omega)]
            simp only [List.length_append, accBits_length, h7', List.length_singleton]
            congr 2
            omega
        · intro j hj
          rw [q2 j hj, show accBits s ++ bit :: p = (accBits s ++ [bit]) ++ p by simp,
            List.getElem?_append_right (l₁ := accBits s ++ [bit]) (by simp [h7]; omega)]
          simp only [List.length_append, accBits_length, h7', List.length_singleton]
          congr 2
          omega
        · intro a ha
          rw [p6 a (by simp only [hs]; show a < _ ∨ s.obufCap ≤ a; omega)]
          exact Memory.read_write_ne _ _ (by omega)
    · have hn7 : s.nacc.toNat < 7 := by
        have : s.nacc.toNat ≠ 7 := fun e => h7 (BitVec.eq_of_toNat_eq e)
        omega
      have en : (s.nacc + 1#3).toNat = s.nacc.toNat + 1 := by rw [BitVec.toNat_add]; simp; omega
      have ea : s.nacc.toNat + 1 + p.length = s.nacc.toNat + (p.length + 1) := by omega
      obtain ⟨t, ht, p1, p2, p3, p4, p5, q1, q2, p6, p7⟩ := ih { placeBit bit s with nacc := s.nacc + 1#3 } h0 (by
        show s.obufCap < s.outPos.toNat + ((s.nacc + 1#3).toNat + p.length) / 8
        rw [en, ea]
        exact h) hc
      rw [accBits_placed bit s h7] at q1 q2
      simp only [List.append_assoc, List.singleton_append] at q1 q2
      refine ⟨t, ?_, p1, p2, p3, p4, ?_, q1, q2, p6, p7⟩
      · simp only [packBits, packBit, h7, if_false, Flow.andThen_cont]
        exact ht
      · rw [p5]
        show s.totalBits + 1#40 +
          BitVec.ofNat 40 (8 * (s.obufCap - s.outPos.toNat + 1) - (s.nacc + 1#3).toNat) = _
        rw [en, BitVec.add_assoc]
        congr 1
        rw [show 1#40 = BitVec.ofNat 40 1 from rfl, ← BitVec.ofNat_add]
        congr 1
        omega

end Sys2Proof.Machine
end

