-- ==== Sys2Proof/Laws/Unpacker.lean ====
section
/-! SUPPORT. What one bit of the stream does to the walker (45_bit_unpacker.md rule R203). -/

namespace Sys2Proof.Machine

/-- Stream bit `BITPOS` of a byte is its bit `7 - BITPOS` (20 R63, 30 R100). -/
theorem streamBit_eq (order : Config.BitOrder) (b : Byte) (bitPos : BitVec 3) :
    streamBit order b bitPos = b.getLsbD (7 - bitPos.toNat) := rfl

/-- Bit 0 is the left edge, bit 1 the right one (00 R5). -/
theorem State.child_eq (s : State) (bit : Bool) (id : NodeId) :
    s.child bit id = if bit then s.rightChild id else s.leftChild id := by
  cases bit <;> rfl

/-- The cursor after a bit. -/
theorem advanceBit_eq (s : State) : advanceBit s = { s with
    inPos := if s.bitPos = 7#3 then s.inPos + 1#32 else s.inPos
    bitPos := if s.bitPos = 7#3 then 0#3 else s.bitPos + 1#3 } := by
  unfold advanceBit
  split <;> rfl

/-- A bit consumed: the walk goes on from the state with the cursor advanced (R203). -/
theorem execBuBit_walks (s : State) (hk : s.rootKind = .internal) (h : s.inPos.toNat < s.inLen.toNat)
    (hc : s.inPos.toNat < s.ibufCap) :
    execBuBit s = walkBit (streamBit s.config.bitOrder (s.inputByte s.inPos.toNat) s.bitPos) (advanceBit s) := by
  have hne : s.inPos ≠ s.inLen := fun e => by rw [e] at h; omega
  simp only [execBuBit, hk, hne, loadInput, h, hc, ne_eq, not_true, if_false, and_self, if_true]

/-- An internal node is entered. -/
theorem walkBit_inner {s : State} {bit : Bool} {d : NodeId} (hd : s.child bit s.curId = some d)
    (hl : isLeaf d = false) : walkBit bit s = .next { s with cur := some d } := by
  simp [walkBit, hd, moveTo, hl]

/-- At a leaf, with room, its byte is emitted and the walker goes back to the root. -/
theorem walkBit_leaf {s : State} {bit : Bool} {b : Byte}
    (hd : s.child bit s.curId = some (leafId b)) (hroom : s.outPos.toNat ≠ s.obufCap) :
    walkBit bit s = .next { s with
      cur := some s.rootId, emitted := s.emitted + 1#40
      obuf := s.obuf.write s.outPos.toNat b, outPos := s.outPos + 1#64 } := by
  simp only [walkBit, hd, moveTo, isLeaf_leafId, if_true, leafByte_leafId]
  rw [outByte_room b { s with cur := some (leafId b) } hroom]
  rfl

/-- At a leaf, with no room, `OutputUnwritable`. -/
theorem walkBit_leaf_full {s : State} {bit : Bool} {b : Byte}
    (hd : s.child bit s.curId = some (leafId b)) (hfull : s.outPos.toNat = s.obufCap) :
    walkBit bit s = .next (raise .outputUnwritable s.outPos { s with cur := some (leafId b) }) := by
  simp only [walkBit, hd, moveTo, isLeaf_leafId, if_true, leafByte_leafId]
  rw [outByte_full b { s with cur := some (leafId b) } hfull]
  rfl

/-- No such child: `StreamCorrupt` (60 R236). -/
theorem walkBit_missing {s : State} {bit : Bool} (hd : s.child bit s.curId = none) :
    walkBit bit s = .next (raise .streamCorrupt (s.inPos.setWidth 64) s) := by
  simp [walkBit, hd]

end Sys2Proof.Machine
end

