-- ==== Sys2Proof/Laws/Core.lean ====
section
/-! SUPPORT. Said once: everything a core turn of a run can do, with the phase and the guard it does
it under. Claims about every core turn follow by cases on it. -/

namespace Sys2Proof.Machine

/-! ### What appends, whatever the capacity -/

/-- `OBUF` is in canonical form, nothing lies at or above its capacity, `OUT_POS` is at most it, and
every byte below `OUT_POS` has been written. -/
structure OutOk (s : State) : Prop where
  wf : s.obuf.wf
  below : ∀ c ∈ s.obuf, c.1 < s.obufCap
  bound : s.outPos.toNat ≤ s.obufCap
  filled : ∀ a, a < s.outPos.toNat → ∃ b, s.obuf.read a = some b

/-- From `s` to `t` the output only grew: nothing below the old `OUT_POS` and nothing at or above the
new one changed (40 R145). -/
structure Grown (s t : State) : Prop where
  ok : OutOk s → OutOk t
  kept : s.outPos.toNat ≤ s.obufCap → s.obufCap < 2 ^ 64 →
    s.outPos.toNat ≤ t.outPos.toNat ∧ t.outPos.toNat ≤ s.obufCap ∧
      ∀ a, a < s.outPos.toNat ∨ t.outPos.toNat ≤ a → t.obuf.read a = s.obuf.read a

/-- Nothing of the output changed. -/
theorem Grown.of_eq {s t : State} (h1 : t.obuf = s.obuf) (h2 : t.outPos = s.outPos)
    (h3 : t.obufCap = s.obufCap) : Grown s t where
  ok h := ⟨h1 ▸ h.wf, by rw [h1, h3]; exact h.below, by rw [h2, h3]; exact h.bound,
    by rw [h1, h2]; exact h.filled⟩
  kept h _ := ⟨by rw [h2], by rw [h2]; exact h, fun a _ => by rw [h1]⟩

/-- One byte was appended. -/
theorem Grown.append {s t : State} (v : Byte) (hf : s.outPos.toNat ≠ s.obufCap)
    (h1 : t.obuf = s.obuf.write s.outPos.toNat v) (h2 : t.outPos = s.outPos + 1#64)
    (h3 : t.obufCap = s.obufCap) : Grown s t where
  ok h := by
    have hb := h.bound
    have hm := Nat.mod_le (s.outPos.toNat + (1#64).toNat) (2 ^ 64)
    simp at hm
    refine ⟨h1 ▸ Memory.wf_write h.wf _ _, ?_, ?_, ?_⟩
    · rw [h1, h3]
      intro c hc
      rcases Memory.mem_write hc with e | e
      · rw [e]; show s.outPos.toNat < s.obufCap; omega
      · exact h.below c e
    · rw [h2, h3, BitVec.toNat_add]
      simp
      omega
    · rw [h1, h2, BitVec.toNat_add]
      intro a ha
      simp at ha
      by_cases e : a = s.outPos.toNat
      · exact ⟨v, e ▸ Memory.read_write_same _ _ _⟩
      · rw [Memory.read_write_ne _ _ e]
        exact h.filled a (by omega)
  kept h hc := by
    have e := outPos_succ s (by omega)
    rw [h1, h2, e]
    refine ⟨by omega, by omega, fun a ha => ?_⟩
    exact Memory.read_write_ne _ _ (by omega)

theorem Grown.trans {s t u : State} (h1 : Grown s t) (h2 : Grown t u) (hc : t.obufCap = s.obufCap) :
    Grown s u where
  ok h := h2.ok (h1.ok h)
  kept h hs := by
    obtain ⟨a1, b1, c1⟩ := h1.kept h hs
    obtain ⟨a2, b2, c2⟩ := h2.kept (by rw [hc]; exact b1) (by rw [hc]; exact hs)
    refine ⟨by omega, by rw [← hc]; exact b2, fun a ha => ?_⟩
    rw [c2 a (by omega), c1 a (by omega)]

/-- Only `OBUF` and `OUT_POS` differ, and the output only grew. -/
structure Appended (s t : State) : Prop where
  frame : t = { s with obuf := t.obuf, outPos := t.outPos }
  grown : Grown s t

/-- Only `OBUF`, `OUT_POS` and the packer's registers differ, and the output only grew. -/
structure PackedOnly (s t : State) : Prop where
  frame : t = { s with
    acc := t.acc, nacc := t.nacc, totalBits := t.totalBits, obuf := t.obuf, outPos := t.outPos }
  grown : Grown s t

theorem outBytes_cases (vs : List Byte) (s : State) :
    ∃ t, Appended s t ∧ (outBytes vs s = .cont t ∨
      (t.outPos.toNat = t.obufCap ∧
        outBytes vs s = .halt (.next (raise .outputUnwritable t.outPos t)))) := by
  induction vs generalizing s with
  | nil => exact ⟨s, ⟨rfl, .of_eq rfl rfl rfl⟩, .inl rfl⟩
  | cons v vs ih =>
    rcases outByte_cases v s with ⟨h, e⟩ | ⟨hf, e⟩
    · exact ⟨s, ⟨rfl, .of_eq rfl rfl rfl⟩, .inr ⟨h, by rw [outBytes, e]; rfl⟩⟩
    · obtain ⟨t, ht, hc⟩ := ih { s with
        obuf := s.obuf.write s.outPos.toNat v, outPos := s.outPos + 1#64 }
      have hg : Grown s { s with
          obuf := s.obuf.write s.outPos.toNat v, outPos := s.outPos + 1#64 } :=
        .append v hf rfl rfl rfl
      exact ⟨t, ⟨ht.frame, hg.trans ht.grown rfl⟩, by rw [outBytes, e]; exact hc⟩

theorem packBits_cases (p : Code) (s : State) :
    ∃ t, PackedOnly s t ∧ (packBits p s = .cont t ∨
      (t.outPos.toNat = t.obufCap ∧
        packBits p s = .halt (.next (raise .outputUnwritable t.outPos t)))) := by
  induction p generalizing s with
  | nil => exact ⟨s, ⟨rfl, .of_eq rfl rfl rfl⟩, .inl rfl⟩
  | cons bit p ih =>
    by_cases h7 : s.nacc = 7#3
    · rcases outByte_cases (placeBit bit s).acc (placeBit bit s) with ⟨h, e⟩ | ⟨hf, e⟩
      · refine ⟨placeBit bit s, ⟨rfl, .of_eq rfl rfl rfl⟩, .inr ⟨h, ?_⟩⟩
        simp only [packBits, packBit, h7, if_true, emitAcc]
        rw [e]
        rfl
      · obtain ⟨t, ht, hc⟩ := ih { placeBit bit s with
          obuf := s.obuf.write s.outPos.toNat (placeBit bit s).acc, outPos := s.outPos + 1#64
          acc := 0#8, nacc := 0#3 }
        have hg : Grown s { placeBit bit s with
            obuf := s.obuf.write s.outPos.toNat (placeBit bit s).acc, outPos := s.outPos + 1#64
            acc := 0#8, nacc := 0#3 } := .append _ hf rfl rfl rfl
        refine ⟨t, ⟨ht.frame, hg.trans ht.grown rfl⟩, ?_⟩
        simp only [packBits, packBit, h7, if_true, emitAcc]
        rw [e]
        exact hc
    · obtain ⟨t, ht, hc⟩ := ih { placeBit bit s with nacc := s.nacc + 1#3 }
      have hg : Grown s { placeBit bit s with nacc := s.nacc + 1#3 } := .of_eq rfl rfl rfl
      refine ⟨t, ⟨ht.frame, hg.trans ht.grown rfl⟩, ?_⟩
      simp only [packBits, packBit, h7, if_false, Flow.andThen_cont]
      exact hc

/-! ### What selects an operation -/

/-- In a run the masked dispatch byte is `PHASE` above `RUN = BUSY` (30 R98). -/
theorem sel_masked (s : State) (h : s.run = .busy) : s.sel &&& selMask = s.phase ++ 0x1#4 := by
  have key : ∀ (k : BitVec 2) (p : BitVec 4) (m : BitVec 1),
      (0#22 ++ k ++ p ++ 0#1 ++ m ++ 1#2 : BitVec 32).setWidth 8 &&& selMask = p ++ 0x1#4 := by
    decide +kernel
  simp only [State.sel, State.status, h, runCode]
  exact key _ _ _

/-- `IN_POS < IN_LEN`, as the guard of R102 has it. -/
theorem compareRegs_lt {w : Nat} {a b : BitVec w} (h : compareRegs a b = .lt) : a.toNat < b.toNat := by
  unfold compareRegs at h
  split at h
  · rename_i h1; simpa [BitVec.ult] using h1
  · split at h <;> cases h

theorem compareRegs_eq {w : Nat} {a b : BitVec w} (h : compareRegs a b = .eq) : a = b := by
  unfold compareRegs at h
  split at h
  · cases h
  · split at h
    · assumption
    · cases h

theorem compareRegs_of_lt {w : Nat} {a b : BitVec w} (h : a.toNat < b.toNat) :
    compareRegs a b = .lt := by
  simp [compareRegs, BitVec.ult, h]

theorem compareRegs_of_eq {w : Nat} {a b : BitVec w} (h : a = b) : compareRegs a b = .eq := by
  subst h
  simp [compareRegs, BitVec.ult]

/-- The operation a phase and the guards select (30 R102). -/
inductive Selected (s : State) : Instr → Prop where
  | fcCnt (hp : s.phase = Phase.pFc) (hg : s.inPos.toNat < s.inLen.toNat) : Selected s .fcCnt
  | fcEnd (hp : s.phase = Phase.pFc) (hg : s.inPos = s.inLen) : Selected s .fcEnd
  | tbInit (hp : s.phase = Phase.pTbi) : Selected s .tbInit
  | tbMerge (hp : s.phase = Phase.pTbm) (hg : 2 ≤ s.pq.length) : Selected s .tbMerge
  | tbFin (hp : s.phase = Phase.pTbm) (hg : s.pq.length ≤ 1) : Selected s .tbFin
  | cgGen (hp : s.phase = Phase.pCg) : Selected s .cgGen
  | ccWrh (hp : s.phase = Phase.pWrh) : Selected s .ccWrh
  | bpSym (hp : s.phase = Phase.pBp) (hg : s.inPos.toNat < s.inLen.toNat) : Selected s .bpSym
  | bpFlush (hp : s.phase = Phase.pBp) (hg : s.inPos = s.inLen) : Selected s .bpFlush
  | ccRdh (hp : s.phase = Phase.pRdh) : Selected s .ccRdh
  | buDone (hp : s.phase = Phase.pBu) (hg : s.emitted = s.nsym) : Selected s .buDone
  | buRun (hp : s.phase = Phase.pBu) (hg : s.emitted.toNat < s.nsym.toNat)
      (hk : s.rootKind = .leaf) : Selected s .buRun
  | buBit (hp : s.phase = Phase.pBu) (hg : s.emitted.toNat < s.nsym.toNat)
      (hk : s.rootKind ≠ .leaf) : Selected s .buBit

/-- What the decoder picks in a run is what the phase and the guards select. -/
theorem selected_of_decode {s : State} {i : Instr} (hr : s.run = .busy)
    (h : decode s.selection = .ok i) : Selected s i := by
  have hm := sel_masked s hr
  simp only [State.selection, decode, decodePhase, hm] at h
  have key : ∀ (p q : BitVec 4), p ++ 0x1#4 = q ++ 0x1#4 → p = q := by decide
  split at h
  · rename_i hp
    have hp : s.phase = Phase.pFc := key _ _ hp
    simp only [decodeCursor, State.guards] at h
    split at h <;> cases h
    · exact .fcCnt hp (compareRegs_lt (by assumption))
    · exact .fcEnd hp (compareRegs_eq (by assumption))
  split at h
  · rename_i hp
    cases h
    exact .tbInit (key _ _ hp)
  split at h
  · rename_i hp
    have hp : s.phase = Phase.pTbm := key _ _ hp
    simp only [State.guards, decide_eq_true_eq] at h
    split at h <;> cases h
    · exact .tbMerge hp (by assumption)
    · exact .tbFin hp (by omega)
  split at h
  · rename_i hp
    cases h
    exact .cgGen (key _ _ hp)
  split at h
  · rename_i hp
    cases h
    exact .ccWrh (key _ _ hp)
  split at h
  · rename_i hp
    have hp : s.phase = Phase.pBp := key _ _ hp
    simp only [decodeCursor, State.guards] at h
    split at h <;> cases h
    · exact .bpSym hp (compareRegs_lt (by assumption))
    · exact .bpFlush hp (compareRegs_eq (by assumption))
  split at h
  · rename_i hp
    cases h
    exact .ccRdh (key _ _ hp)
  split at h
  · rename_i hp
    have hp : s.phase = Phase.pBu := key _ _ hp
    simp only [decodeUnpacker, State.guards] at h
    split at h <;> cases h
    · exact .buDone hp (compareRegs_eq (by assumption))
    · rename_i hg
      by_cases hk : s.rootKind = .leaf
      · simp only [hk, decide_true, if_true]
        exact .buRun hp (compareRegs_lt hg) hk
      · simp only [hk, decide_false]
        exact .buBit hp (compareRegs_lt hg) hk
  · cases h

/-- What the phase and the guards select, the decoder picks. -/
theorem decode_of_selected {s : State} {i : Instr} (hr : s.run = .busy) (h : Selected s i) :
    decode s.selection = .ok i := by
  have hm := sel_masked s hr
  simp only [State.selection, decode, decodePhase]
  cases h with
  | fcCnt hp hg =>
    rw [hp, show _ ++ 0x1#4 = 0x11#8 from rfl] at hm
    simp [hm, decodeCursor, State.guards, compareRegs_of_lt hg]
  | fcEnd hp hg =>
    rw [hp, show _ ++ 0x1#4 = 0x11#8 from rfl] at hm
    simp [hm, decodeCursor, State.guards, compareRegs_of_eq hg]
  | tbInit hp =>
    rw [hp, show _ ++ 0x1#4 = 0x21#8 from rfl] at hm
    simp [hm]
  | tbMerge hp hg =>
    rw [hp, show _ ++ 0x1#4 = 0x31#8 from rfl] at hm
    simp [hm, State.guards, hg]
  | tbFin hp hg =>
    rw [hp, show _ ++ 0x1#4 = 0x31#8 from rfl] at hm
    simp [hm, State.guards, show ¬ 2 ≤ s.pq.length by omega]
  | cgGen hp =>
    rw [hp, show _ ++ 0x1#4 = 0x41#8 from rfl] at hm
    simp [hm]
  | ccWrh hp =>
    rw [hp, show _ ++ 0x1#4 = 0x51#8 from rfl] at hm
    simp [hm]
  | bpSym hp hg =>
    rw [hp, show _ ++ 0x1#4 = 0x61#8 from rfl] at hm
    simp [hm, decodeCursor, State.guards, compareRegs_of_lt hg]
  | bpFlush hp hg =>
    rw [hp, show _ ++ 0x1#4 = 0x61#8 from rfl] at hm
    simp [hm, decodeCursor, State.guards, compareRegs_of_eq hg]
  | ccRdh hp =>
    rw [hp, show _ ++ 0x1#4 = 0x71#8 from rfl] at hm
    simp [hm]
  | buDone hp hg =>
    rw [hp, show _ ++ 0x1#4 = 0x81#8 from rfl] at hm
    simp [hm, decodeUnpacker, State.guards, compareRegs_of_eq hg]
  | buRun hp hg hk =>
    rw [hp, show _ ++ 0x1#4 = 0x81#8 from rfl] at hm
    simp [hm, decodeUnpacker, State.guards, compareRegs_of_lt hg, hk]
  | buBit hp hg hk =>
    rw [hp, show _ ++ 0x1#4 = 0x81#8 from rfl] at hm
    simp [hm, decodeUnpacker, State.guards, compareRegs_of_lt hg, hk]

/-! ### What a core turn of a run leaves -/

/-- The next states of a core turn in a run, with the phase and the guard each has. -/
inductive CoreNext (s : State) : State → Prop where
  | fcCnt (hp : s.phase = Phase.pFc) (hg : s.inPos.toNat < s.inLen.toNat)
      (hn : byteEntry s.freq (s.inputByte s.inPos.toNat) ≠ 0xFFFFFFFF#32) :
      CoreNext s { s with
        freq := s.freq.set (s.inputByte s.inPos.toNat).toNat
          (byteEntry s.freq (s.inputByte s.inPos.toNat) + 1#32)
        inPos := s.inPos + 1#32 }
  | fcOverflow (hp : s.phase = Phase.pFc) (hg : s.inPos.toNat < s.inLen.toNat)
      (hn : byteEntry s.freq (s.inputByte s.inPos.toNat) = 0xFFFFFFFF#32) :
      CoreNext s (raise .countOverflow (s.inPos.setWidth 64) s)
  | fcEnd (hp : s.phase = Phase.pFc) (hg : s.inPos = s.inLen) :
      CoreNext s { s with nsym := s.inLen.setWidth 40, inPos := 0#32, phase := Phase.pTbi }
  | tbInit (hp : s.phase = Phase.pTbi) :
      CoreNext s { s with
        nodeW := leafWeights s, pq := leavesOf s.config.zeroFreqPolicy s.freq, nint := 0#9, phase := Phase.pTbm }
  | tbMerge (hp : s.phase = Phase.pTbm) (hg : 2 ≤ s.pq.length) (hn : s.nint.toNat ≤ 254)
      (a b : NodeId) (wa wb : Weight) (ha : a ∈ s.pq) (hb : b ∈ s.pq.erase a)
      (hwa : s.weight a = some wa) (hwb : s.weight b = some wb) :
      CoreNext s (makeNode a b (wa + wb) ((s.pq.erase a).erase b) s)
  | tbFinEmpty (hp : s.phase = Phase.pTbm) (hq : s.pq = []) :
      CoreNext s { s with rootKind := .empty, pq := [], phase := phaseAfterTree s.mode }
  | tbFin (hp : s.phase = Phase.pTbm) (r : NodeId) (hq : s.pq = [r]) :
      CoreNext s { s with
        root := some r, cur := some r, rootKind := if isLeaf r then .leaf else .internal
        pq := [], phase := phaseAfterTree s.mode }
  | cgGen (hp : s.phase = Phase.pCg) (u : Table (Option Code) Config.freqEntries)
      (hu : codeTable s = .ok u) : CoreNext s { s with code := u, phase := Phase.pWrh }
  | ccWrh (hp : s.phase = Phase.pWrh) (t : State) (ha : Appended s t)
      (he : outBytes (headerBytes s.config.hdrByteOrder s.freq) s = .cont t) : CoreNext s { t with phase := Phase.pBp }
  | ccWrhFull (hp : s.phase = Phase.pWrh) (t : State) (ha : Appended s t)
      (hf : t.outPos.toNat = t.obufCap) : CoreNext s (raise .outputUnwritable t.outPos t)
  | ccRdhShort (hp : s.phase = Phase.pRdh) (hg : s.inLen.toNat < 1024) :
      CoreNext s (raise .malformedContainer (s.inLen.setWidth 64) s)
  | ccRdh (hp : s.phase = Phase.pRdh) (hg : 1024 ≤ s.inLen.toNat) :
      CoreNext s { s with
        freq := headerCounts s, nsym := sumCounts (headerCounts s)
        inPos := 1024#32, bitPos := 0#3, phase := Phase.pTbi }
  | bpSym (hp : s.phase = Phase.pBp) (hg : s.inPos.toNat < s.inLen.toNat) (bits : Code)
      (hc : byteEntry s.code (s.inputByte s.inPos.toNat) = some bits) (t : State)
      (ha : PackedOnly s t) (he : packBits bits s = .cont t) :
      CoreNext s { t with inPos := s.inPos + 1#32 }
  | bpSymFull (hp : s.phase = Phase.pBp) (hg : s.inPos.toNat < s.inLen.toNat) (t : State)
      (ha : PackedOnly s t) (hf : t.outPos.toNat = t.obufCap) :
      CoreNext s (raise .outputUnwritable t.outPos t)
  | bpNoCode (hp : s.phase = Phase.pBp) (hg : s.inPos.toNat < s.inLen.toNat)
      (hc : byteEntry s.code (s.inputByte s.inPos.toNat) = none) :
      CoreNext s (raise .internalConsistency (s.inPos.setWidth 64) s)
  | bpFlushNone (hp : s.phase = Phase.pBp) (hg : s.inPos = s.inLen) (hn : s.nacc = 0#3) :
      CoreNext s { s with run := .done, phase := Phase.pNone }
  | bpFlush (hp : s.phase = Phase.pBp) (hg : s.inPos = s.inLen)
      (hroom : s.outPos.toNat ≠ s.obufCap) :
      CoreNext s { s with
        obuf := s.obuf.write s.outPos.toNat s.acc, outPos := s.outPos + 1#64
        acc := 0#8, nacc := 0#3, run := .done, phase := Phase.pNone }
  | bpFlushFull (hp : s.phase = Phase.pBp) (hg : s.inPos = s.inLen)
      (hf : s.outPos.toNat = s.obufCap) : CoreNext s (raise .outputUnwritable s.outPos s)
  | buDone (hp : s.phase = Phase.pBu) (hg : s.emitted = s.nsym) :
      CoreNext s { s with run := .done, phase := Phase.pNone }
  | buRun (hp : s.phase = Phase.pBu) (hg : s.emitted.toNat < s.nsym.toNat)
      (hk : s.rootKind = .leaf) (hroom : s.outPos.toNat ≠ s.obufCap) :
      CoreNext s { s with
        obuf := s.obuf.write s.outPos.toNat (leafByte s.rootId), outPos := s.outPos + 1#64
        emitted := s.emitted + 1#40 }
  | buRunFull (hp : s.phase = Phase.pBu) (hf : s.outPos.toNat = s.obufCap) :
      CoreNext s (raise .outputUnwritable s.outPos s)
  | buNoRoot (hp : s.phase = Phase.pBu) (hg : s.emitted.toNat < s.nsym.toNat)
      (hl : s.rootKind ≠ .leaf) (hk : s.rootKind ≠ .internal) :
      CoreNext s (raise .streamCorrupt (s.inPos.setWidth 64) s)
  | buTruncated (hp : s.phase = Phase.pBu) (hk : s.rootKind = .internal) (hg : s.inPos = s.inLen) :
      CoreNext s (raise .streamTruncated (s.inPos.setWidth 64) s)
  | buInner (hp : s.phase = Phase.pBu) (hg : s.emitted.toNat < s.nsym.toNat)
      (hk : s.rootKind = .internal) (hi : s.inPos.toNat < s.inLen.toNat) (bit : Bool)
      (d : NodeId) (hd : s.child bit s.curId = some d) (hl : isLeaf d = false) :
      CoreNext s { advanceBit s with cur := some d }
  | buLeaf (hp : s.phase = Phase.pBu) (hg : s.emitted.toNat < s.nsym.toNat)
      (hk : s.rootKind = .internal) (hi : s.inPos.toNat < s.inLen.toNat) (bit : Bool)
      (d : NodeId) (hd : s.child bit s.curId = some d) (hl : isLeaf d = true) (hroom : s.outPos.toNat ≠ s.obufCap) :
      CoreNext s { advanceBit s with
        cur := some s.rootId, emitted := s.emitted + 1#40
        obuf := s.obuf.write s.outPos.toNat (leafByte d), outPos := s.outPos + 1#64 }
  | buLeafFull (hp : s.phase = Phase.pBu) (hi : s.inPos.toNat < s.inLen.toNat) (d : NodeId)
      (hf : s.outPos.toNat = s.obufCap) :
      CoreNext s (raise .outputUnwritable (advanceBit s).outPos { advanceBit s with cur := some d })
  | buMissing (hp : s.phase = Phase.pBu) (hk : s.rootKind = .internal)
      (hi : s.inPos.toNat < s.inLen.toNat) (bit : Bool)
      (hd : s.child bit s.curId = none) :
      CoreNext s (raise .streamCorrupt ((advanceBit s).inPos.setWidth 64) (advanceBit s))

/-- What a core load answers, if it answers. -/
theorem loadInput_ok {s : State} {a : Nat} {b : Byte} (h : loadInput s a = .ok b) :
    a < s.inLen.toNat ∧ a < s.ibufCap ∧ b = s.inputByte a := by
  unfold loadInput at h
  split at h
  · rename_i hc
    cases h
    exact ⟨hc.1, hc.2, rfl⟩
  · cases h

theorem loadInput_eq {s : State} {a : Nat} (h : a < s.inLen.toNat) (hc : a < s.ibufCap) :
    loadInput s a = .ok (s.inputByte a) := by
  simp [loadInput, h, hc]

/-- A cursor below `IN_LEN` moves on without wrapping (10 R26). -/
theorem inPos_succ {s : State} (h : s.inPos.toNat < s.inLen.toNat) :
    (s.inPos + 1#32).toNat = s.inPos.toNat + 1 := by
  have := s.inLen.isLt
  rw [BitVec.toNat_add]
  simp
  omega

/-- A core turn of a run is the selected operation. -/
theorem coreTurn_busy (s : State) (h : s.run = .busy) : coreTurn s = execSelection s.selection s := by
  simp [coreTurn, h]

/-- Outside a run a core turn changes nothing (30 R104). -/
theorem coreTurn_idle (s : State) (h : s.run ≠ .busy) : coreTurn s = .next s := by
  unfold coreTurn
  split
  · rename_i hr; exact absurd hr h
  all_goals rfl

/-- Everything a core turn of a run can do. -/
theorem coreTurn_next {s t : State} (hr : s.run = .busy) (h : coreTurn s = .next t) : CoreNext s t := by
  rw [coreTurn_busy s hr, execSelection] at h
  split at h
  case h_2 => cases h
  case h_3 => cases h
  rename_i i hi
  cases selected_of_decode hr hi with
  | fcCnt hp hg =>
    simp only [exec, execFcCnt] at h
    split at h
    · cases h
    · rename_i b hb
      obtain ⟨_, _, rfl⟩ := loadInput_ok hb
      split at h <;> cases h
      · exact .fcOverflow hp hg (by assumption)
      · exact .fcCnt hp hg (by assumption)
  | fcEnd hp hg => cases h; exact .fcEnd hp hg
  | tbInit hp => cases h; exact .tbInit hp
  | tbMerge hp hg =>
    simp only [exec, execTbMerge] at h
    split at h
    · cases h
    rename_i a q1 he
    obtain ⟨ha, rfl⟩ := extractMin_mem he
    split at h
    · cases h
    rename_i b q2 he'
    obtain ⟨hb, rfl⟩ := extractMin_mem he'
    split at h
    · cases h
    rename_i hn
    split at h
    · cases h
    rename_i wa hwa
    split at h
    · cases h
    rename_i wb hwb
    cases h
    exact .tbMerge hp hg (by rw [config_maxNodes] at hn; omega) a b wa wb ha hb hwa hwb
  | tbFin hp hg =>
    simp only [exec, execTbFin] at h
    split at h
    · cases h
      exact .tbFinEmpty hp (by assumption)
    · rename_i r q hq
      have : q = [] := by rw [hq] at hg; simpa using hg
      subst this
      rw [extractMin_single s r hq] at h
      cases h
      exact .tbFin hp r hq
  | cgGen hp =>
    simp only [exec, execCgGen] at h
    split at h
    · cases h
    · cases h
      exact .cgGen hp _ (by assumption)
  | ccWrh hp =>
    simp only [exec, execCcWrh] at h
    obtain ⟨t, ha, e | ⟨hf, e⟩⟩ := outBytes_cases (headerBytes s.config.hdrByteOrder s.freq) s
    · rw [e] at h
      cases h
      exact .ccWrh hp t ha e
    · rw [e] at h
      cases h
      exact .ccWrhFull hp t ha hf
  | bpSym hp hg =>
    simp only [exec, execBpSym] at h
    split at h
    · cases h
    rename_i b hb
    obtain ⟨_, _, rfl⟩ := loadInput_ok hb
    split at h
    · cases h
      exact .bpNoCode hp hg (by assumption)
    · rename_i bits hc
      obtain ⟨t, ha, e | ⟨hf, e⟩⟩ := packBits_cases bits s
      · rw [e] at h
        have hip : t.inPos = s.inPos := by rw [ha.frame]
        cases h
        rw [hip]
        exact .bpSym hp hg bits hc t ha e
      · rw [e] at h
        cases h
        exact .bpSymFull hp hg t ha hf
  | bpFlush hp hg =>
    simp only [exec, execBpFlush, flushAcc, padAcc_eq] at h
    split at h
    · cases h
      exact .bpFlushNone hp hg (by assumption)
    · rcases outByte_cases s.acc s with ⟨hf, e⟩ | ⟨hroom, e⟩
      · rw [emitAcc, e] at h
        cases h
        exact .bpFlushFull hp hg hf
      · rw [emitAcc, e] at h
        cases h
        exact .bpFlush hp hg hroom
  | ccRdh hp =>
    simp only [exec] at h
    by_cases hg : s.inLen.toNat < 1024
    · rw [execCcRdh, if_pos (by unfold Config.hdrBytes; exact hg)] at h
      cases h
      exact .ccRdhShort hp hg
    · by_cases hc : s.ibufCap < 1024
      · rw [execCcRdh, if_neg (by unfold Config.hdrBytes; omega),
          if_pos (by unfold Config.hdrBytes; exact hc)] at h
        cases h
      · rw [execCcRdh_ok s (by omega) (by omega)] at h
        cases h
        exact .ccRdh hp (by omega)
  | buDone hp hg => cases h; exact .buDone hp hg
  | buRun hp hg hk =>
    simp only [exec, execBuRun] at h
    rcases outByte_cases (leafByte s.rootId) s with ⟨hf, e⟩ | ⟨hroom, e⟩
    · rw [e] at h
      cases h
      exact .buRunFull hp hf
    · rw [e] at h
      cases h
      exact .buRun hp hg hk hroom
  | buBit hp hg hl =>
    simp only [exec, execBuBit] at h
    split at h
    · cases h
      exact .buNoRoot hp hg hl (by assumption)
    rename_i hk
    have hk : s.rootKind = .internal := by simpa using hk
    split at h
    · cases h
      exact .buTruncated hp hk (by assumption)
    split at h
    · cases h
    rename_i b hb
    obtain ⟨hi, _, rfl⟩ := loadInput_ok hb
    generalize streamBit s.config.bitOrder (s.inputByte s.inPos.toNat) s.bitPos = bit at h
    have hadv := advanceBit_eq s
    have hroot : (advanceBit s).rootId = s.rootId := by rw [hadv]; rfl
    have hout : (advanceBit s).outPos = s.outPos := by rw [hadv]
    have hcap : (advanceBit s).obufCap = s.obufCap := by rw [hadv]
    have hobuf : (advanceBit s).obuf = s.obuf := by rw [hadv]
    have hem : (advanceBit s).emitted = s.emitted := by rw [hadv]
    have hchild : (advanceBit s).child bit (advanceBit s).curId = s.child bit s.curId := by
      rw [hadv]; rfl
    cases hd : s.child bit s.curId with
    | none =>
      rw [walkBit_missing (hchild.trans hd)] at h
      cases h
      exact .buMissing hp hk hi bit hd
    | some d =>
      cases hdl : isLeaf d with
      | false =>
        rw [walkBit_inner (hchild.trans hd) hdl] at h
        cases h
        exact .buInner hp hg hk hi bit d hd hdl
      | true =>
        have hd' : (advanceBit s).child bit (advanceBit s).curId = some (leafId (leafByte d)) := by
          rw [leafId_leafByte d hdl]; exact hchild.trans hd
        by_cases hf : s.outPos.toNat = s.obufCap
        · rw [walkBit_leaf_full hd' (by rw [hout, hcap]; exact hf)] at h
          cases h
          exact .buLeafFull hp hi _ hf
        · rw [walkBit_leaf hd' (by rw [hout, hcap]; exact hf)] at h
          cases h
          rw [hem, hobuf, hout, hroot]
          exact .buLeaf hp hg hk hi bit d hd hdl hf

/-- The output only grows in a run. -/
theorem coreTurn_grown {s t : State} (hr : s.run = .busy) (h : coreTurn s = .next t) : Grown s t := by
  cases coreTurn_next hr h with
  | ccWrh hp u ha => exact ha.grown.trans (u := { u with phase := Phase.pBp }) (.of_eq rfl rfl rfl) (by rw [ha.frame])
  | ccWrhFull hp u ha => exact ha.grown.trans (.of_eq rfl rfl rfl) (by rw [ha.frame])
  | bpSym hp hg bits hc u ha => exact ha.grown.trans (u := { u with inPos := s.inPos + 1#32 }) (.of_eq rfl rfl rfl) (by rw [ha.frame])
  | bpSymFull hp hg u ha => exact ha.grown.trans (.of_eq rfl rfl rfl) (by rw [ha.frame])
  | bpFlush hp hg hf => exact .append _ hf rfl rfl rfl
  | buRun hp hg hk hf => exact .append _ hf rfl rfl rfl
  | buLeaf hp hg hk hi bit d hd hl hf => rw [advanceBit_eq]; exact .append _ hf rfl rfl rfl
  | buInner | buLeafFull | buMissing => rw [advanceBit_eq]; exact .of_eq rfl rfl rfl
  | _ => exact .of_eq rfl rfl rfl

end Sys2Proof.Machine
end

