-- ==== Sys2Proof/Laws/Forest.lean ====
section
/-! SUPPORT. The counts as sums (10_state.md rule R43, 41_frequency_counter.md rule R150), and the
forest of the Tree Builder (42_tree_builder.md) from its leaves to its root. -/

namespace Sys2Proof.Machine

/-! ### Counts -/

/-- The rows of a table are its entries, by index. -/
theorem rows_eq (freq : Table Count Config.freqEntries) :
    freq.rows = (List.finRange 256).map fun i => freq.get i.val i.isLt := by
  apply List.ext_getElem
  · simp [freq.len]
  · intro i h1 h2
    simp [Table.get]

theorem sum_set (l : List Count) (i : Nat) (h : i < l.length) (c : Count) :
    ((l.set i c).map BitVec.toNat).sum + l[i].toNat = (l.map BitVec.toNat).sum + c.toNat := by
  induction l generalizing i with
  | nil => simp at h
  | cons x l ih =>
    cases i with
    | zero => simp; omega
    | succ i =>
      have := ih i (by simpa using h)
      simp only [List.set_cons_succ, List.map_cons, List.sum_cons, List.getElem_cons_succ]
      omega

/-- The sum after one count is raised by one (41 R151). -/
theorem freqSum_count (freq : Table Count Config.freqEntries) (b : Byte)
    (h : byteEntry freq b ≠ 0xFFFFFFFF#32) :
    (((freq.set b.toNat (byteEntry freq b + 1#32)).rows).map BitVec.toNat).sum =
      (freq.rows.map BitVec.toNat).sum + 1 := by
  have hb : b.toNat < freq.rows.length := by rw [freq.len]; exact b.isLt
  have := sum_set freq.rows b.toNat hb (byteEntry freq b + 1#32)
  have e : freq.rows[b.toNat] = byteEntry freq b := rfl
  rw [e] at this
  have hlt := (byteEntry freq b).isLt
  have hne : (byteEntry freq b).toNat ≠ 4294967295 := fun x => h (BitVec.eq_of_toNat_eq x)
  have e1 : (byteEntry freq b + 1#32).toNat = (byteEntry freq b).toNat + 1 := by
    rw [BitVec.toNat_add]; simp; omega
  show ((freq.rows.set b.toNat (byteEntry freq b + 1#32)).map BitVec.toNat).sum = _
  omega

theorem freqSum_le (freq : Table Count Config.freqEntries) :
    (freq.rows.map BitVec.toNat).sum ≤ 256 * (2 ^ 32 - 1) := by
  have : ∀ l : List Count, (l.map BitVec.toNat).sum ≤ l.length * (2 ^ 32 - 1) := by
    intro l
    induction l with
    | nil => simp
    | cons c l ih =>
      have := c.isLt
      simp only [List.map_cons, List.sum_cons, List.length_cons]
      omega
  have h := this freq.rows
  rw [freq.len] at h
  exact h

/-- One entry is at most the sum. -/
theorem entry_le_sum (freq : Table Count Config.freqEntries) (b : Byte) :
    (byteEntry freq b).toNat ≤ (freq.rows.map BitVec.toNat).sum := by
  have hb : b.toNat < freq.rows.length := by rw [freq.len]; exact b.isLt
  exact List.single_le_sum (by simp) _ (List.mem_map.mpr ⟨freq.rows[b.toNat], List.getElem_mem hb, rfl⟩)

theorem symbolCount_le (s : State) : symbolCount s ≤ 256 := by
  have := List.countP_le_length (p := fun c : Count => decide (c ≠ 0#32)) (l := s.freq.rows)
  rw [s.freq.len] at this
  exact this

/-- One more byte scanned (41 R150). -/
theorem inputCount_succ (s : State) (k : Nat) (v : Byte) :
    inputCount s (k + 1) v = inputCount s k v + (if s.inputByte k = v then 1 else 0) := by
  simp [inputCount, List.range_succ, List.countP_append, List.countP_cons]

theorem inputCount_le (s : State) (k : Nat) (v : Byte) : inputCount s k v ≤ k := by
  have := List.countP_le_length (p := fun i => decide (s.inputByte i = v)) (l := List.range k)
  simpa [inputCount] using this

/-- A byte that occurs has a count. -/
theorem inputCount_pos (s : State) {k i : Nat} (h : i < k) : 0 < inputCount s k (s.inputByte i) := by
  simp only [inputCount, List.countP_pos_iff]
  exact ⟨i, by simpa using h, by simp⟩

/-! ### Sums over `PQ` -/

/-- The weight of a node as a number, 0 while unwritten. -/
def weightNat (s : State) (id : NodeId) : Nat := ((s.weight id).getD 0#40).toNat

theorem queueWeight_perm (s : State) {p q : List NodeId} (h : p.Perm q) :
    (p.map (weightNat s)).sum = (q.map (weightNat s)).sum :=
  (h.map _).sum_eq

theorem queueWeight_congr {s t : State} {q : List NodeId} (h : ∀ id ∈ q, t.weight id = s.weight id) :
    (q.map (weightNat t)).sum = (q.map (weightNat s)).sum := by
  congr 1
  apply List.map_congr_left
  intro id hid
  simp [weightNat, h id hid]

theorem queueWeight_erase (s : State) {q : List NodeId} {a : NodeId} (h : a ∈ q) :
    (q.map (weightNat s)).sum = weightNat s a + ((q.erase a).map (weightNat s)).sum := by
  rw [queueWeight_perm s (List.perm_cons_erase h)]
  simp

/-! ### The leaves -/

/-- The weights of the leaves sum to the counts (10 R43 (c)). -/
theorem leaves_total (s : State) (h : ∀ b : Byte, byteEntry s.freq b ≠ 0#32 →
      s.weight (leafId b) = some ((byteEntry s.freq b).setWidth 40)) :
    ((leavesOf s.config.zeroFreqPolicy s.freq).map (weightNat s)).sum = freqSum s := by
  have key : ∀ l : List (Fin 256),
      (((l.filter fun i => s.freq.get i.val i.isLt ≠ 0#32).map fun i =>
        BitVec.ofNat 9 i.val).map (weightNat s)).sum =
      ((l.map fun i => s.freq.get i.val i.isLt).map BitVec.toNat).sum := by
    intro l
    induction l with
    | nil => rfl
    | cons i l ih =>
      have hi := i.isLt
      by_cases h0 : s.freq.get i.val i.isLt = 0#32
      · simp [h0] at ih ⊢
        exact ih
      · have e : BitVec.ofNat 9 i.val = leafId (BitVec.ofNat 8 i.val) := by
          apply BitVec.eq_of_toNat_eq
          simp
          omega
        have e8 : (BitVec.ofNat 8 i.val).toNat = i.val := by simp
        have eb : byteEntry s.freq (BitVec.ofNat 8 i.val) = s.freq.get i.val i.isLt := by
          unfold byteEntry
          simp only [e8]
        have hw := h (BitVec.ofNat 8 i.val) (by rw [eb]; exact h0)
        have hn : weightNat s (BitVec.ofNat 9 i.val) = (s.freq.get i.val i.isLt).toNat := by
          have := (s.freq.get i.val i.isLt).isLt
          rw [weightNat, e, hw, eb]
          simp
          omega
        rw [List.filter_cons_of_pos (by simp [h0])]
        rw [List.map_cons, List.map_cons, List.sum_cons, hn, ih, List.map_cons, List.map_cons,
          List.sum_cons]
  rw [freqSum, rows_eq s.freq]
  exact key _

/-- `TB.INIT` makes the forest of the leaves (42 R162). -/
theorem tbInit_forest (s : State) (p : Phase) : Forest { s with
    nodeW := leafWeights s, pq := leavesOf s.config.zeroFreqPolicy s.freq, nint := 0#9, phase := p } := by
  have hw : ∀ b : Byte, byteEntry s.freq b ≠ 0#32 →
      State.weight { s with
        nodeW := leafWeights s, pq := leavesOf s.config.zeroFreqPolicy s.freq, nint := 0#9, phase := p } (leafId b) =
      some ((byteEntry s.freq b).setWidth 40) := by
    intro b hb
    show ((leafWeights s).get? (leafId b).toNat).join = _
    rw [leafWeights_get?]
    simp [hb]
  exact {
    nintBound := by simp
    leafWeight := hw
    inner := by intro id h1 h2; simp at h2; omega
    members := fun id hid => .inl ((mem_leavesOf s.config.zeroFreqPolicy s.freq id).mp hid)
    count := leavesOf_length _ s.freq
    total := leaves_total _ hw
    roots := by
      intro id hid
      rcases hid with h | ⟨h1, h2⟩
      · exact .inl ((mem_leavesOf s.config.zeroFreqPolicy s.freq id).mpr h)
      · simp at h2; omega }

/-! ### A merge -/

/-- A member of the forest has a weight. -/
theorem NodeTable.made_weight {s : State} (h : NodeTable s) {id : NodeId}
    (hm : Made s s.nint.toNat id) : ∃ w, s.weight id = some w := by
  rcases hm with ⟨hl, hf⟩ | ⟨h1, h2⟩
  · exact ⟨_, (leafId_leafByte id hl) ▸ h.leafWeight _ hf⟩
  · obtain ⟨l, r, wl, wr, _, _, _, _, _, _, hw⟩ := h.inner id h1 h2
    exact ⟨_, hw⟩

/-- With two members left there is an id left for a new node (10 R23). -/
theorem Forest.nint_le {s : State} (h : Forest s) (h2 : 2 ≤ s.pq.length) : s.nint.toNat ≤ 254 := by
  have := h.count
  have := symbolCount_le s
  omega

/-- A node that is made is not the next one. -/
theorem Made.ne_new {s : State} {id : NodeId} (h : Made s s.nint.toNat id) :
    id.toNat ≠ 256 + s.nint.toNat := by
  rcases h with ⟨hl, _⟩ | ⟨_, h2⟩
  · have := (isLeaf_iff id).mp hl
    omega
  · omega

/-- `TB.MERGE` keeps a forest (42 R163, 10 R43 (c)). -/
theorem tbMerge_forest {s : State} (h : Forest s)
    (hr : s.pq.Pairwise fun a b => a.toNat < b.toNat) (hn : s.nint.toNat ≤ 254)
    {a b : NodeId} {wa wb : Weight} (ha : a ∈ s.pq) (hb : b ∈ s.pq.erase a)
    (hwa : s.weight a = some wa) (hwb : s.weight b = some wb) :
    Forest (makeNode a b (wa + wb) ((s.pq.erase a).erase b) s) := by
  have hnd := rising_nodup hr
  have hbq : b ∈ s.pq := List.mem_of_mem_erase hb
  have hba : b ≠ a := fun e => by subst e; exact hnd.not_mem_erase hb
  have hid := newId_toNat s hn
  have hnint : (s.nint + 1#9).toNat = s.nint.toNat + 1 := by
    rw [BitVec.toNat_add]; simp; omega
  have hold : ∀ c, Made s s.nint.toNat c →
      (makeNode a b (wa + wb) ((s.pq.erase a).erase b) s).weight c = s.weight c := by
    intro c hc
    rw [makeNode_weight _ _ _ _ _ hn, if_neg hc.ne_new]
  have hma := h.members a ha
  have hmb := h.members b hbq
  have hnew : BitVec.ofNat 9 (256 + s.nint.toNat) ∉ (s.pq.erase a).erase b := by
    intro hc
    have := (h.members _ (List.mem_of_mem_erase (List.mem_of_mem_erase hc))).ne_new
    exact this hid
  have hmem : ∀ c, c ∈ insertMember (BitVec.ofNat 9 (256 + s.nint.toNat)) ((s.pq.erase a).erase b) ↔
      (c = BitVec.ofNat 9 (256 + s.nint.toNat) ∨ (c ≠ b ∧ c ≠ a ∧ c ∈ s.pq)) := by
    intro c
    rw [mem_insertMember, (hnd.erase a).mem_erase_iff, hnd.mem_erase_iff]
  have hperm := insertMember_perm _ _ hnew
  have htot : freqSum s = weightNat s a + (weightNat s b +
      (((s.pq.erase a).erase b).map (weightNat s)).sum) := by
    rw [← h.total, ← queueWeight_erase s hb, ← queueWeight_erase s ha]
    rfl
  have hwan : weightNat s a = wa.toNat := by simp [weightNat, hwa]
  have hwbn : weightNat s b = wb.toNat := by simp [weightNat, hwb]
  have hsum : (wa + wb).toNat = wa.toNat + wb.toNat := by
    have := freqSum_le s.freq
    have e : freqSum s = (s.freq.rows.map BitVec.toNat).sum := rfl
    rw [BitVec.toNat_add]
    omega
  exact {
    nintBound := by
      show (s.nint + 1#9).toNat ≤ 255
      omega
    leafWeight := by
      intro c hc
      have hc : byteEntry s.freq c ≠ 0#32 := hc
      rw [hold _ (.inl ⟨by simp, by simpa using hc⟩)]
      exact h.leafWeight c hc
    inner := by
      intro id h1 h2
      have h2 : id.toNat < 256 + (s.nint + 1#9).toNat := h2
      by_cases e : id.toNat = 256 + s.nint.toNat
      · refine ⟨a, b, wa, wb, ?_, ?_, ?_, ?_, ?_, ?_, ?_⟩
        · rw [makeNode_leftChild _ _ _ _ _ hn, if_pos e]
        · rw [makeNode_rightChild _ _ _ _ _ hn, if_pos e]
        · rw [show id.toNat - 256 = s.nint.toNat by omega]; exact hma
        · rw [show id.toNat - 256 = s.nint.toNat by omega]; exact hmb
        · rw [hold a hma]; exact hwa
        · rw [hold b hmb]; exact hwb
        · rw [makeNode_weight _ _ _ _ _ hn, if_pos e]
      · obtain ⟨l, r, wl, wr, hl, hr', ml, mr, hwl, hwr, hw⟩ := h.inner id h1 (by omega)
        refine ⟨l, r, wl, wr, ?_, ?_, ml, mr, ?_, ?_, ?_⟩
        · rw [makeNode_leftChild _ _ _ _ _ hn, if_neg e]; exact hl
        · rw [makeNode_rightChild _ _ _ _ _ hn, if_neg e]; exact hr'
        · rw [hold l (ml.mono (by omega))]; exact hwl
        · rw [hold r (mr.mono (by omega))]; exact hwr
        · rw [makeNode_weight _ _ _ _ _ hn, if_neg e]; exact hw
    members := by
      intro c hc
      show Made s (s.nint + 1#9).toNat c
      rw [hnint]
      rcases (hmem c).mp hc with e | ⟨_, _, hc⟩
      · refine .inr ?_
        rw [e, hid]
        omega
      · exact (h.members c hc).mono (by omega)
    count := by
      have e1 := List.length_erase_of_mem ha
      have e2 := List.length_erase_of_mem hb
      have e3 := hperm.length_eq
      have e4 := h.count
      have e5 : 0 < (s.pq.erase a).length := List.length_pos_of_mem hb
      show (insertMember _ _).length + (s.nint + 1#9).toNat = symbolCount s
      rw [e3, hnint]
      simp only [List.length_cons]
      omega
    total := by
      show ((insertMember _ _).map (weightNat (makeNode a b (wa + wb) ((s.pq.erase a).erase b) s))).sum =
        freqSum s
      rw [queueWeight_perm _ hperm, List.map_cons, List.sum_cons, queueWeight_congr (s := s), htot, hwan, hwbn]
      · have : weightNat (makeNode a b (wa + wb) ((s.pq.erase a).erase b) s)
            (BitVec.ofNat 9 (256 + s.nint.toNat)) = wa.toNat + wb.toNat := by
          rw [weightNat, makeNode_weight _ _ _ _ _ hn, if_pos hid]
          exact hsum
        rw [this]
        omega
      · intro c hc
        exact hold c (h.members c (List.mem_of_mem_erase (List.mem_of_mem_erase hc)))
    roots := by
      intro c hc
      have hc : Made s (s.nint + 1#9).toNat c := hc
      show c ∈ insertMember _ _ ∨ ∃ p : NodeId, 256 ≤ p.toNat ∧ p.toNat < 256 + (s.nint + 1#9).toNat ∧ _
      rw [hmem, hnint]
      by_cases e : c.toNat = 256 + s.nint.toNat
      · exact .inl (.inl (BitVec.eq_of_toNat_eq (e.trans hid.symm)))
      have hc' : Made s s.nint.toNat c := by
        rcases hc with h | ⟨h1, h2⟩
        · exact .inl h
        · exact .inr ⟨h1, by omega⟩
      have hpar : ∀ x, x = a ∨ x = b →
          ∃ p : NodeId, 256 ≤ p.toNat ∧ p.toNat < 256 + (s.nint.toNat + 1) ∧
            IsChild (makeNode a b (wa + wb) ((s.pq.erase a).erase b) s) p x := by
        rintro x (rfl | rfl)
        · refine ⟨BitVec.ofNat 9 (256 + s.nint.toNat), by omega, by omega, .inl ?_⟩
          rw [makeNode_leftChild _ _ _ _ _ hn, if_pos hid]
        · refine ⟨BitVec.ofNat 9 (256 + s.nint.toNat), by omega, by omega, .inr ?_⟩
          rw [makeNode_rightChild _ _ _ _ _ hn, if_pos hid]
      rcases h.roots c hc' with hq | ⟨p, h1, h2, h3⟩
      · by_cases ea : c = a
        · exact .inr (hpar c (.inl ea))
        · by_cases eb : c = b
          · exact .inr (hpar c (.inr eb))
          · exact .inl (.inr ⟨eb, ea, hq⟩)
      · refine .inr ⟨p, h1, by omega, ?_⟩
        have hp : ¬ p.toNat = 256 + s.nint.toNat := by omega
        rcases h3 with h3 | h3
        · exact .inl (by rw [makeNode_leftChild _ _ _ _ _ hn, if_neg hp]; exact h3)
        · exact .inr (by rw [makeNode_rightChild _ _ _ _ _ hn, if_neg hp]; exact h3) }

/-! ### The tree -/

/-- The node table depends on few fields. -/
theorem NodeTable.congr {s t : State} (h : NodeTable s) (h1 : t.nint = s.nint) (h2 : t.freq = s.freq)
    (h3 : t.nodeW = s.nodeW) (h4 : t.nodeL = s.nodeL) (h5 : t.nodeR = s.nodeR) : NodeTable t := by
  have hw : ∀ id, t.weight id = s.weight id := fun id => by simp [State.weight, h3]
  have hl : ∀ id, t.leftChild id = s.leftChild id := fun id => by simp [State.leftChild, h4]
  have hr : ∀ id, t.rightChild id = s.rightChild id := fun id => by simp [State.rightChild, h5]
  have hm : ∀ j id, Made t j id ↔ Made s j id := fun j id => by simp [Made, h2]
  constructor
  · rw [h1]; exact h.nintBound
  · intro b
    rw [h2, hw]
    exact h.leafWeight b
  · intro id
    rw [h1]
    simp only [hw, hl, hr, hm]
    exact h.inner id

/-- The tree depends on few fields. -/
theorem Tree.congr {s t : State} (h : Tree s) (h1 : t.nint = s.nint) (h2 : t.freq = s.freq)
    (h3 : t.nodeW = s.nodeW) (h4 : t.nodeL = s.nodeL) (h5 : t.nodeR = s.nodeR)
    (h6 : t.rootKind = s.rootKind) (h7 : t.root = s.root) : Tree t := by
  have hw : ∀ id, t.weight id = s.weight id := fun id => by simp [State.weight, h3]
  have hl : ∀ id, t.leftChild id = s.leftChild id := fun id => by simp [State.leftChild, h4]
  have hr : ∀ id, t.rightChild id = s.rightChild id := fun id => by simp [State.rightChild, h5]
  have hm : ∀ j id, Made t j id ↔ Made s j id := fun j id => by simp [Made, h2]
  have hc : ∀ p id, IsChild t p id ↔ IsChild s p id := fun p id => by simp [IsChild, hl, hr]
  refine ⟨h.toNodeTable.congr h1 h2 h3 h4 h5, ?_, ?_, ?_, ?_, ?_⟩
  · rw [h6]; exact h.kind
  · rw [h6, h2]; exact h.empty
  · rw [h6, h7, h2]; exact h.leaf
  · rw [h6, h7, h1]; simp only [hm, hc]; exact h.internal
  · rw [h6, h7]; simp only [hw, freqSum, h2]; exact h.rootWeight

/-- A forest without members: no byte value occurs. -/
theorem Forest.empty_counts {s : State} (h : Forest s) (hq : s.pq = []) (b : Byte) :
    byteEntry s.freq b = 0#32 := by
  have ht : freqSum s = 0 := by rw [← h.total, queueWeight, hq]; rfl
  have := entry_le_sum s.freq b
  have e : freqSum s = (s.freq.rows.map BitVec.toNat).sum := rfl
  apply BitVec.eq_of_toNat_eq
  simp
  omega

/-- `TB.FIN` on an empty `PQ` makes the empty tree (42 R164). -/
theorem tbFin_empty_tree {s : State} (h : Forest s) (hq : s.pq = []) (p : Phase) :
    Tree { s with rootKind := .empty, pq := [], phase := p } where
  toNodeTable := h.toNodeTable.congr rfl rfl rfl rfl rfl
  kind := by simp
  empty _ := h.empty_counts hq
  leaf e := by cases e
  internal e := by cases e
  rootWeight e := absurd rfl e

/-- The only root of a forest that is a leaf: nothing was merged. -/
theorem Forest.leaf_only {s : State} (h : Forest s) {r : NodeId} (hq : s.pq = [r])
    (hl : isLeaf r = true) : s.nint.toNat = 0 := by
  by_contra hne
  have hb := h.nintBound
  have hid : (BitVec.ofNat 9 (255 + s.nint.toNat)).toNat = 255 + s.nint.toNat := by
    simp; omega
  have hr := (isLeaf_iff r).mp hl
  rcases h.roots (BitVec.ofNat 9 (255 + s.nint.toNat)) (.inr (by omega)) with hm | ⟨p, h1, h2, h3⟩
  · rw [hq] at hm
    have : BitVec.ofNat 9 (255 + s.nint.toNat) = r := by simpa using hm
    rw [← this] at hr
    omega
  · obtain ⟨l, r', _, _, hl', hr', ml, mr, _⟩ := h.inner p h1 h2
    have hm : Made s (p.toNat - 256) (BitVec.ofNat 9 (255 + s.nint.toNat)) := by
      rcases h3 with e | e
      · rw [hl'] at e; cases e; exact ml
      · rw [hr'] at e; cases e; exact mr
    have := (hm.internal ((isLeaf_false_iff _).mpr (by omega))).2
    omega

/-- `TB.FIN` on one member makes the tree under it (42 R164, R165). -/
theorem tbFin_tree {s : State} (h : Forest s) {r : NodeId} (hq : s.pq = [r]) (p : Phase) :
    Tree { s with
      root := some r, cur := some r, rootKind := if isLeaf r then .leaf else .internal
      pq := [], phase := p } where
  toNodeTable := h.toNodeTable.congr rfl rfl rfl rfl rfl
  kind := by
    show (if isLeaf r then RootKind.leaf else RootKind.internal) ≠ _
    split <;> simp
  empty e := by
    have e : (if isLeaf r then RootKind.leaf else RootKind.internal) = .empty := e
    split at e <;> cases e
  leaf e := by
    have e : (if isLeaf r then RootKind.leaf else RootKind.internal) = .leaf := e
    have hl : isLeaf r = true := by
      by_contra hl
      rw [if_neg hl] at e
      cases e
    refine ⟨r, rfl, hl, fun b => ⟨fun hb => ?_, fun hb => ?_⟩⟩
    · have h0 := h.leaf_only hq hl
      rcases h.roots (leafId b) (.inl ⟨by simp, by simpa using hb⟩) with hm | ⟨p, h1, h2, _⟩
      · rw [hq] at hm
        have : leafId b = r := by simpa using hm
        rw [← this, leafByte_leafId]
      · omega
    · have := h.members r (by simp [hq])
      rw [← leafId_leafByte r hl] at this
      rw [hb]
      exact this.leaf
  internal e := by
    have e : (if isLeaf r then RootKind.leaf else RootKind.internal) = .internal := e
    have hl : isLeaf r = false := by
      cases hl : isLeaf r with
      | false => rfl
      | true => rw [hl] at e; cases e
    refine ⟨r, rfl, hl, h.members r (by simp [hq]), fun id hid => ?_⟩
    rcases h.roots id hid with hm | hp
    · rw [hq] at hm
      exact .inl (by simpa using hm)
    · exact .inr hp
  rootWeight _ := by
    obtain ⟨w, hw⟩ := h.toNodeTable.made_weight (h.members r (by simp [hq]))
    refine ⟨r, w, rfl, hw, ?_⟩
    have := h.total
    rw [queueWeight, hq] at this
    show w.toNat = freqSum s
    simpa [hw] using this

/-- A tree whose root is not empty: some byte occurs; and the other way round. -/
theorem Tree.not_empty {s : State} (h : Tree s) (hp : 0 < freqSum s) : s.rootKind ≠ .empty := by
  intro e
  have hz := h.empty e
  have : ∀ l : List Count, (∀ c ∈ l, c = 0#32) → (l.map BitVec.toNat).sum = 0 := by
    intro l
    induction l with
    | nil => simp
    | cons c l ih =>
      intro hl
      simp [hl c (by simp), ih fun x hx => hl x (by simp [hx])]
  have := this s.freq.rows fun c hc => by
    obtain ⟨i, hi, rfl⟩ := List.mem_iff_getElem.mp hc
    have hi' : i < 256 := by rw [s.freq.len] at hi; exact hi
    have e8 : (BitVec.ofNat 8 i).toNat = i := by simp; omega
    have := hz (BitVec.ofNat 8 i)
    unfold byteEntry Table.get at this
    simpa only [e8] using this
  have e : freqSum s = (s.freq.rows.map BitVec.toNat).sum := rfl
  omega

end Sys2Proof.Machine
end

