-- ==== Sys2Proof/Laws/Host.lean ====
section
/-! SUPPORT. Said once: what a host move can do (40_commands_and_sequencing.md rule R133), what a
command word selects, and what starting a run leaves. -/

namespace Sys2Proof.Machine

/-- A command word selects a command (30 R97, R101). -/
theorem decodeCommand_isCommand (c : Byte) : isCommand (decodeCommand c) = true := by
  unfold decodeCommand
  repeat' split
  all_goals rfl

/-- A host move is a command, a reset, or leaves everything of the block but `IN_LEN` and `IBUF`; those
too while the core owns them (70 R266). -/
theorem hostMove_cases (m : HostMove) (s t : State) (h : hostMove m s = .next t) :
    (∃ w, m = .writeReg 0 w ∧ exec (decodeCommand (commandCode w)) s = .next t) ∨ (m = .reset ∧ t = hostReset s) ∨
    (t = { s with inLen := t.inLen, ibuf := t.ibuf, hostData := t.hostData, freeReads := t.freeReads } ∧ (s.run = .busy → t.inLen = s.inLen ∧ t.ibuf = s.ibuf)
     ∧ (t.ibuf = s.ibuf ∨ ∃ a b, a < s.ibufCap ∧ t.ibuf = s.ibuf.write a b)) := by
  cases m with
  | writeReg off v =>
    simp only [hostMove, hostWriteReg] at h
    split at h
    · cases h
    split at h
    · rename_i h0; subst h0
      left; exact ⟨v, rfl, by simpa [execSelection, decode] using h⟩
    · cases h
      right; right
      unfold State.writeRegister
      split
      · split
        · exact ⟨rfl, fun _ => ⟨rfl, rfl⟩, .inl rfl⟩
        · rename_i hb; exact ⟨rfl, fun e => absurd e hb, .inl rfl⟩
      · exact ⟨rfl, fun _ => ⟨rfl, rfl⟩, .inl rfl⟩
  | readReg off =>
    simp only [hostMove, hostReadReg] at h
    split at h <;> cases h
    right; right; exact ⟨rfl, fun _ => ⟨rfl, rfl⟩, .inl rfl⟩
  | writeIbuf a b =>
    simp only [hostMove, hostWriteIbuf] at h
    split at h
    · cases h; right; right; exact ⟨rfl, fun _ => ⟨rfl, rfl⟩, .inl rfl⟩
    · split at h <;> cases h
      rename_i hb hc
      right; right; exact ⟨rfl, fun e => absurd e hb, .inr ⟨a, b, by omega, rfl⟩⟩
  | readIbuf a =>
    simp only [hostMove, hostReadIbuf] at h
    repeat' split at h
    all_goals cases h
    all_goals (right; right; exact ⟨rfl, fun _ => ⟨rfl, rfl⟩, .inl rfl⟩)
  | readObuf a =>
    simp only [hostMove, hostReadObuf] at h
    repeat' split at h
    all_goals cases h
    all_goals (right; right; exact ⟨rfl, fun _ => ⟨rfl, rfl⟩, .inl rfl⟩)
  | reset => cases h; right; left; exact ⟨rfl, rfl⟩

/-- An accepted `ENCODE` or `DECODE` of an input that fits (40 R136, R137). -/
theorem startRun_fits (m : Mode) (p : Phase) (s : State) (h : s.inLen.toNat ≤ s.ibufCap) :
    startRun m p s = { initWork s with mode := m, run := .busy, phase := p } := by
  unfold startRun admitRun
  exact if_neg (Nat.not_lt.mpr h)

/-- An accepted `ENCODE` or `DECODE` of an input that does not fit (60 R232). -/
theorem startRun_tooLong (m : Mode) (p : Phase) (s : State) (h : s.ibufCap < s.inLen.toNat) :
    startRun m p s =
      raise .inputUnavailable (s.inLen.setWidth 64) { initWork s with mode := m } := by
  unfold startRun admitRun
  exact if_pos h

end Sys2Proof.Machine
end

