-- ==== Sys2Proof/Laws/PerInstr.lean ====
section
/-! SUPPORT. Statements for all operations, proved operation by operation. -/

namespace Sys2Proof.Laws.EncodingRow

/-- The encoder gives a selection of the operation's own row of the table (30_encoding.md rules R101
and R102). -/
def Statement (i : Instr) : Prop :=
  wellFormed i = true → Machine.RowSelects i (encode i)

theorem cmdNop : Statement .cmdNop := fun _ => rfl

theorem cmdEncode : Statement .cmdEncode := fun _ => rfl

theorem cmdDecode : Statement .cmdDecode := fun _ => rfl

theorem cmdClear : Statement .cmdClear := fun _ => rfl

theorem cmdRsvd (code : Byte) : Statement (.cmdRsvd code) := fun _ =>
  congrArg some ((commandCode_commandWord 0#24 code).symm.trans (commandCode_eq_extract _))

theorem fcCnt : Statement .fcCnt := fun _ => ⟨rfl, rfl⟩

theorem fcEnd : Statement .fcEnd := fun _ => ⟨rfl, rfl⟩

theorem tbInit : Statement .tbInit := fun _ => ⟨rfl, trivial⟩

theorem tbMerge : Statement .tbMerge := fun _ => ⟨rfl, rfl⟩

theorem tbFin : Statement .tbFin := fun _ => ⟨rfl, rfl⟩

theorem cgGen : Statement .cgGen := fun _ => ⟨rfl, trivial⟩

theorem ccWrh : Statement .ccWrh := fun _ => ⟨rfl, trivial⟩

theorem bpSym : Statement .bpSym := fun _ => ⟨rfl, rfl⟩

theorem bpFlush : Statement .bpFlush := fun _ => ⟨rfl, rfl⟩

theorem ccRdh : Statement .ccRdh := fun _ => ⟨rfl, trivial⟩

theorem buDone : Statement .buDone := fun _ => ⟨rfl, rfl⟩

theorem buRun : Statement .buRun := fun _ => ⟨rfl, rfl, rfl⟩

theorem buBit : Statement .buBit := fun _ => ⟨rfl, rfl, rfl⟩

end Sys2Proof.Laws.EncodingRow
end

