-- ==== Sys2Proof/Laws/Reset.lean ====
section
/-! SUPPORT. What `InitWork` and reset leave (10_state.md rules R40 and R41). -/

namespace Sys2Proof.Machine

/-- Every entry of a table filled with none reads as none. -/
theorem join_get?_fill {α : Type} (n i : Nat) :
    ((Table.fill n (none : Option α)).get? i).join = none := by
  by_cases h : i < n
  · simp [Table.get?_eq_get _ _ h]
  · simp [Table.get?_eq_none _ _ (Nat.le_of_not_lt h)]

/-- `InitWork` clears the working registers and tables (R41). -/
theorem initWork_cleared (s : State) : WorkCleared (initWork s) := by
  constructor <;> intros <;>
    simp [State.weight, State.leftChild, State.rightChild, join_get?_fill]

/-- So does reset (R40). -/
theorem resetWith_cleared (ibufCap obufCap : Nat) : WorkCleared (State.resetWith ibufCap obufCap) := by
  constructor <;> intros <;>
    simp [State.resetWith, State.weight, State.leftChild, State.rightChild, join_get?_fill]

/-- The rest of the state does not matter to it. -/
theorem WorkCleared.congr {s t : State} (h : WorkCleared s)
    (e : { s with
      run := t.run, phase := t.phase, mode := t.mode, err := t.err, errInfo := t.errInfo
      inLen := t.inLen, ibuf := t.ibuf, obuf := t.obuf, ibufCap := t.ibufCap, obufCap := t.obufCap
      schedule := t.schedule, hostData := t.hostData, freeReads := t.freeReads
      resets := t.resets } = t) : WorkCleared t := by
  obtain ⟨h1, h2, h3, h4, h5, h6, h7, h8, h9, h10, h11, h12, h13, h14, h15, h16, h17, h18⟩ := h
  rw [← e]
  exact ⟨h1, h2, h3, h4, h5, h6, h7, h8, h9, h10, h11, h12, h13, h14, h15, h16, h17, h18⟩

/-- After reset both buffers are in canonical form. -/
theorem reset_memory_wf : State.reset.ibuf.wf ∧ State.reset.obuf.wf :=
  ⟨.nil, .nil⟩

end Sys2Proof.Machine
end

