-- ==== Sys2Proof/Tests/Slice0.lean ====
section
/-! SUPPORT. Tests of single steps against the vectors of spec/95_test_vectors.md (named in each
comment) and the encodings of spec/30_encoding.md, and for every statement with hypotheses a
concrete state and operands that meet them. -/

namespace Sys2Proof.Tests

open Sys2Proof.Machine

-- One theorem at a time: the kernel evaluations of many tests at once take too many threads.
set_option Elab.async false

/-! ### Helpers -/

/-- The next state of an outcome, if it is one. -/
def nextOf (r : Result) : Option State :=
  match r with
  | .next s => some s
  | .fault _ => none
  | .refused _ => none

/-- A table of 256 entries with the listed ones set. -/
def entries {α : Type} (zero : α) (l : List (Byte × α)) : Table α 256 :=
  l.foldl (fun t x => t.set x.1.toNat x.2) (Table.fill 256 zero)

/-- An input buffer that holds the listed bytes from address 0 on. -/
def bytesAt (l : List Byte) : Memory := l.zipIdx.map fun x => (x.2, x.1)

/-- After reset, with small buffers. -/
def idle : State := State.resetWith 2048 2048

/-- A run in a phase. -/
def running (p : Phase) (m : Mode) : State := { idle with run := .busy, phase := p, mode := m }

/-- The counts of `aaabbc`. -/
def abcFreq : Table Count 256 := entries 0#32 [(0x61#8, 3#32), (0x62#8, 2#32), (0x63#8, 1#32)]

/-- The input `aaabbc` in an encode run. -/
def abcInput (p : Phase) : State :=
  { running p .encode with
    ibuf := bytesAt [0x61#8, 0x61#8, 0x61#8, 0x62#8, 0x62#8, 0x63#8], inLen := 6#32 }

/-- The leaves of `aaabbc` (vector T2). -/
def abcLeaves (m : Mode) : State :=
  { running Phase.pTbm m with
    freq := abcFreq, pq := [0x61#9, 0x62#9, 0x63#9]
    nodeW := ((Table.fill 511 none).set 0x61 (some 3#40)).set 0x62 (some 2#40) |>.set 0x63 (some 1#40) }

/-- `aaabbc` after its first merge (vector T3). -/
def abcMerged : State :=
  { abcLeaves .encode with
    pq := [0x61#9, 256#9], nint := 1#9
    nodeW := (abcLeaves .encode).nodeW.set 256 (some 3#40)
    nodeL := (Table.fill 255 none).set 0 (some 0x63#9)
    nodeR := (Table.fill 255 none).set 0 (some 0x62#9) }

/-- The tree of `aaabbc` in a phase that reads it (vectors T5, T6). -/
def abcTree (p : Phase) (m : Mode) : State :=
  { abcMerged with
    phase := p, mode := m, pq := [], nint := 2#9
    nodeW := abcMerged.nodeW.set 257 (some 6#40)
    nodeL := abcMerged.nodeL.set 1 (some 0x61#9)
    nodeR := abcMerged.nodeR.set 1 (some 256#9)
    root := some 257#9, cur := some 257#9, rootKind := .internal, nsym := 6#40 }

/-- `aaabbc` being packed, its header written (vector B1). -/
def abcPacking : State :=
  { abcTree Phase.pBp .encode with
    ibuf := (abcInput Phase.pBp).ibuf, inLen := 6#32, outPos := 1024#64
    code := entries none [(0x61#8, some [false]), (0x62#8, some [true, true]), (0x63#8, some [true, false])] }

/-- The `aaabbc` container being walked: `IBUF` from 1024 on is 1F 00 (vector U1). -/
def abcWalking : State :=
  { abcTree Phase.pBu .decode with
    ibuf := [(1024, 0x1F#8), (1025, 0x00#8)], inLen := 1026#32, inPos := 1024#32 }

/-- A single-leaf decode run: four `z` to emit (vectors U9, U12). -/
def zRun : State :=
  { running Phase.pBu .decode with
    inLen := 1024#32, inPos := 1024#32, nsym := 4#40, freq := entries 0#32 [(0x7A#8, 4#32)]
    root := some 0x7A#9, cur := some 0x7A#9, rootKind := .leaf
    nodeW := (Table.fill 511 none).set 0x7A (some 4#40) }

/-! ### The configuration record -/

/-- The values of 00 R6, the two open parameters as they are given. -/
theorem test_parameters (i o : Nat) :
    Config.parameters i o =
      { zeroFreqPolicy := .exclude, tieBreak := .weightThenId, bitOrder := .msbFirst
        hdrByteOrder := .bigEndian, padBit := false, emptyStreamBytes := 0, weightW := 40, nodeIdW := 9
        maxNodes := 511, maxCodeLen := 255, inLenW := 32, ibufCap := i, obufCap := o } := rfl

/-- The widths of the record are those of the state's registers and tables (00 R6). -/
theorem test_parameter_widths (s : State) :
    BitVec s.config.weightW = Weight ∧ BitVec s.config.nodeIdW = NodeId ∧
      s.inLen.toNat < 2 ^ s.config.inLenW ∧ s.nodeW.rows.length = s.config.maxNodes :=
  ⟨rfl, rfl, s.inLen.isLt, s.nodeW.len⟩

/-! ### Well-formedness -/

/-- The codes below 0x04 are not reserved (30 R103). -/
theorem test_rsvd_code_three_is_ill_formed : wellFormed (.cmdRsvd 0x03#8) = false := by decide

theorem test_rsvd_code_four_is_well_formed : wellFormed (.cmdRsvd 0x04#8) = true := by decide

/-! ### Decoding: words written out from 30 R97, R101, R102 -/

theorem test_decode_nop : decode (.command 0x00000000#32) = .ok .cmdNop := by decide

/-- K5: bits 31:8 are ignored. -/
theorem test_decode_encode : decode (.command 0xFFFFFF01#32) = .ok .cmdEncode := by decide

theorem test_decode_decode : decode (.command 0x00000002#32) = .ok .cmdDecode := by decide

theorem test_decode_clear : decode (.command 0x00000003#32) = .ok .cmdClear := by decide

/-- The six blocks of `CMD.RSVD`, at their least codes. -/
theorem test_decode_rsvd :
    [0x04#32, 0x08#32, 0x10#32, 0x20#32, 0x40#32, 0x80#32].map (fun w => decode (.command w)) =
      [.ok (.cmdRsvd 0x04#8), .ok (.cmdRsvd 0x08#8), .ok (.cmdRsvd 0x10#8), .ok (.cmdRsvd 0x20#8),
        .ok (.cmdRsvd 0x40#8), .ok (.cmdRsvd 0x80#8)] := by decide

/-- `{PHASE, 0, MODE, RUN}` = 0001 0 0 01 and its guards. -/
theorem test_decode_fc :
    decode (.phase 0b00010001#8 { Guards.none with inPos := .lt }) = .ok .fcCnt ∧
      decode (.phase 0b00010001#8 Guards.none) = .ok .fcEnd := by decide

theorem test_decode_tb :
    decode (.phase 0b00100101#8 Guards.none) = .ok .tbInit ∧
      decode (.phase 0b00110001#8 { Guards.none with pqMany := true }) = .ok .tbMerge ∧
      decode (.phase 0b00110101#8 Guards.none) = .ok .tbFin := by decide

theorem test_decode_cg : decode (.phase 0b01000001#8 Guards.none) = .ok .cgGen := by decide

theorem test_decode_cc :
    decode (.phase 0b01010001#8 Guards.none) = .ok .ccWrh ∧
      decode (.phase 0b01110101#8 Guards.none) = .ok .ccRdh := by decide

theorem test_decode_bp :
    decode (.phase 0b01100001#8 { Guards.none with inPos := .lt }) = .ok .bpSym ∧
      decode (.phase 0b01100001#8 Guards.none) = .ok .bpFlush := by decide

theorem test_decode_bu :
    decode (.phase 0b10000101#8 Guards.none) = .ok .buDone ∧
      decode (.phase 0b10000101#8 { Guards.none with emitted := .lt, rootLeaf := true }) = .ok .buRun ∧
      decode (.phase 0b10000101#8 { Guards.none with emitted := .lt }) = .ok .buBit := by decide

/-- R104: the reserved phase 9, and `BUSY` with `P_NONE`. -/
theorem test_decode_reserved :
    decode (.phase 0b10010001#8 Guards.none) = .error (.reservedDispatch 0x91#8) ∧
      decode (.phase 0b00000001#8 Guards.none) = .error (.reservedDispatch 0x01#8) := by decide

/-! ### Commands -/

/-- K2. -/
theorem test_nop_in_done :
    (nextOf (step { idle with run := .done, outPos := 1026#64, schedule := [.host (.writeReg 0 0#32)] })).map
      (fun t => (t.status, t.outLen)) = some (0x0002#32, 1026#64) := by decide +kernel

/-- K3 and K8: `IN_LEN` up to `IBUF_CAP` is accepted. -/
theorem test_encode_accepted :
    (nextOf (exec .cmdEncode { State.resetWith 6 2048 with inLen := 6#32, mode := .decode })).map
      (fun t => (t.status, t.outLen, t.nsym)) = some (0x0011#32, 0#64, 0#40) := by decide +kernel

/-- K6. -/
theorem test_encode_too_long :
    (nextOf (exec .cmdEncode { State.resetWith 5 2048 with inLen := 6#32 })).map
      (fun t => (t.status, errCode t.err, t.errInfo)) = some (0x0003#32, 1#4, 6#64) := by decide +kernel

/-- K4. -/
theorem test_decode_accepted :
    (nextOf (exec .cmdDecode { idle with inLen := 1026#32 })).map State.status = some 0x0075#32 := by
  decide +kernel

/-- K7. -/
theorem test_decode_too_long :
    (nextOf (exec .cmdDecode { State.resetWith 5 2048 with inLen := 6#32 })).map
      (fun t => (t.status, errCode t.err, t.errInfo)) = some (0x0007#32, 1#4, 6#64) := by decide +kernel

/-- K13. -/
theorem test_clear_after_error :
    (nextOf (exec .cmdClear { abcWalking with
      run := .error, phase := Phase.pNone, err := .streamTruncated, errInfo := 1025#64 })).map
      (fun t => (t.status, errCode t.err, t.errInfo, t.inLen)) = some (0x0004#32, 0#4, 0#64, 1026#32) := by
  decide +kernel

/-- K15: `CLEAR` is dropped while `BUSY`. -/
theorem test_clear_dropped_when_busy :
    (nextOf (exec .cmdClear abcWalking)).map State.status = some 0x0385#32 := by decide +kernel

/-- K11, through the register window. -/
theorem test_rsvd_raises :
    (nextOf (step { idle with schedule := [.host (.writeReg 0 0x00001280#32)] })).map
      (fun t => (t.status, errCode t.err, t.errInfo)) = some (0x0003#32, 7#4, 0x80#64) := by decide +kernel

/-- K18. -/
theorem test_rsvd_dropped_in_done :
    (nextOf (exec (.cmdRsvd 0x80#8) { idle with run := .done })).map State.status = some 0x0002#32 := by
  decide +kernel

/-! ### Frequency Counter -/

/-- F1, selected by the sequencer. -/
theorem test_fc_cnt :
    (nextOf (step { abcInput Phase.pFc with inPos := 2#32, freq := entries 0#32 [(0x61#8, 2#32)] })).map
      (fun t => (byteEntry t.freq 0x61#8, byteEntry t.freq 0x62#8, t.inPos, t.status)) =
      some (3#32, 0#32, 3#32, 0x0011#32) := by decide +kernel

/-- F7. -/
theorem test_fc_cnt_overflow :
    (nextOf (exec .fcCnt { abcInput Phase.pFc with
      ibuf := bytesAt (List.replicate 6 0x61#8), inPos := 5#32, freq := entries 0#32 [(0x61#8, 0xFFFFFFFF#32)] })).map
      (fun t => (errCode t.err, t.errInfo, byteEntry t.freq 0x61#8, t.inPos)) =
      some (8#4, 5#64, 0xFFFFFFFF#32, 5#32) := by decide +kernel

/-- F2, selected by the sequencer. -/
theorem test_fc_end :
    (nextOf (step { abcInput Phase.pFc with inPos := 6#32, freq := abcFreq })).map
      (fun t => (t.nsym, t.inPos, t.status)) = some (6#40, 0#32, 0x0021#32) := by decide +kernel

/-! ### Tree Builder -/

/-- T2. -/
theorem test_tb_init :
    (nextOf (step { running Phase.pTbi .encode with freq := abcFreq })).map
      (fun t => (t.pq, [0x61#9, 0x62#9, 0x63#9, 0x64#9].map t.weight, t.status)) =
      some ([0x61#9, 0x62#9, 0x63#9], [some 3#40, some 2#40, some 1#40, none], 0x0031#32) := by
  decide +kernel

/-- T3. -/
theorem test_tb_merge_first :
    (nextOf (step (abcLeaves .encode))).map
      (fun t => (t.weight 256#9, t.leftChild 256#9, t.rightChild 256#9, t.pq, t.nint)) =
      some (some 3#40, some 0x63#9, some 0x62#9, [0x61#9, 256#9], 1#9) := by decide +kernel

/-- T4: on equal weights the leaf comes first. -/
theorem test_tb_merge_tie :
    (nextOf (step abcMerged)).map
      (fun t => (t.weight 257#9, t.leftChild 257#9, t.rightChild 257#9, t.pq, t.nint)) =
      some (some 6#40, some 0x61#9, some 256#9, [257#9], 2#9) := by decide +kernel

/-- T6. -/
theorem test_tb_fin_decode :
    (nextOf (step { abcTree Phase.pTbm .decode with
      pq := [257#9], root := none, cur := none, rootKind := .none })).map
      (fun t => (t.root, t.cur, t.pq, t.status)) = some (some 257#9, some 257#9, [], 0x0385#32) := by
  decide +kernel

/-- T7. -/
theorem test_tb_fin_empty :
    (nextOf (step (running Phase.pTbm .encode))).map
      (fun t => (t.root, t.cur, t.status)) = some (none, none, 0x0141#32) := by decide +kernel

/-! ### Code Table Generator -/

/-- G1c. -/
theorem test_cg_gen :
    (nextOf (step (abcTree Phase.pCg .encode))).map
      (fun t => ([0x61#8, 0x62#8, 0x63#8, 0x64#8].map (byteEntry t.code), t.status)) =
      some ([some [false], some [true, true], some [true, false], none], 0x0351#32) := by decide +kernel

/-- G1b. -/
theorem test_cg_gen_single_leaf :
    (nextOf (step { zRun with phase := Phase.pCg, mode := .encode })).map
      (fun t => (byteEntry t.code 0x7A#8, t.status)) = some (some [false], 0x0251#32) := by decide +kernel

/-! ### Container Codec -/

/-- C3. -/
theorem test_cc_wrh :
    (nextOf (exec .ccWrh { running Phase.pWrh .encode with
      freq := entries 0#32 [(0x00#8, 0x12345678#32), (0xFF#8, 0x000000FF#32)] })).map
      (fun t => (t.outPos, t.obuf.take 4, t.phase)) =
      some (1024#64, [(0, 0x12#8), (1, 0x34#8), (2, 0x56#8), (3, 0x78#8)], Phase.pBp) := by decide +kernel

/-- C4. -/
theorem test_cc_wrh_full :
    (nextOf (step { abcTree Phase.pWrh .encode with obufCap := 1000 })).map
      (fun t => (errCode t.err, t.errInfo, t.status, t.outPos, t.outLen)) =
      some (2#4, 1000#64, 0x0303#32, 1000#64, 0#64) := by decide +kernel

/-- C5, one entry of the header. -/
theorem test_cc_rdh_entry :
    headerCount { running Phase.pRdh .decode with
      inLen := 1024#32, ibuf := [(260, 0x01#8), (261, 0x02#8), (262, 0x03#8), (263, 0x04#8)] } 65 =
      0x01020304#32 := by decide +kernel

/-- C8. -/
theorem test_cc_rdh_short :
    (nextOf (step { running Phase.pRdh .decode with inLen := 1023#32 })).map
      (fun t => (errCode t.err, t.errInfo, t.status, t.nsym)) =
      some (3#4, 1023#64, 0x0007#32, 0#40) := by decide +kernel

/-! ### Bit Packer -/

/-- B1, the sixth `BP.SYM`. -/
theorem test_bp_sym :
    (nextOf (step { abcPacking with inPos := 5#32, acc := 0x1E#8, nacc := 7#3, totalBits := 7#40 })).map
      (fun t => ((t.obuf, t.acc, t.nacc), t.totalBits, t.outPos, t.inPos)) =
      some (([(1024, 0x1F#8)], 0x00#8, 1#3), 9#40, 1025#64, 6#32) := by decide +kernel

/-- B4a. -/
theorem test_bp_sym_full :
    (nextOf (step { abcPacking with
      obufCap := 1024, inPos := 5#32, acc := 0x1E#8, nacc := 7#3, totalBits := 7#40 })).map
      (fun t => (errCode t.err, t.errInfo, t.acc, t.nacc, t.totalBits, t.inPos, t.outPos)) =
      some (2#4, 1024#64, 0x1F#8, 7#3, 8#40, 5#32, 1024#64) := by decide +kernel

/-- B1, the last row. -/
theorem test_bp_flush :
    (nextOf (step { abcPacking with inPos := 6#32, nacc := 1#3, totalBits := 9#40, outPos := 1025#64 })).map
      (fun t => (t.obuf, t.nacc, t.outLen, t.status)) =
      some ([(1025, 0x00#8)], 0#3, 1026#64, 0x0302#32) := by decide +kernel

/-- B3d. -/
theorem test_bp_flush_full :
    (nextOf (step { abcPacking with inPos := 6#32, nacc := 1#3, outPos := 1025#64, obufCap := 1025 })).map
      (fun t => (errCode t.err, t.errInfo, t.status, t.outLen)) =
      some (2#4, 1025#64, 0x0303#32, 0#64) := by decide +kernel

/-! ### Bit Unpacker -/

/-- U1, the end. -/
theorem test_bu_done :
    (nextOf (step { abcWalking with emitted := 6#40, outPos := 6#64 })).map
      (fun t => (t.status, t.outLen)) = some (0x0306#32, 6#64) := by decide +kernel

/-- U9: no bit is consumed. -/
theorem test_bu_run :
    (nextOf (step zRun)).map (fun t => (t.obuf, t.emitted, t.inPos, t.bitPos)) =
      some ([(0, 0x7A#8)], 1#40, 1024#32, 0#3) := by decide +kernel

/-- U12, the third `BU.RUN`. -/
theorem test_bu_run_full :
    (nextOf (step { zRun with obufCap := 2, outPos := 2#64, emitted := 2#40 })).map
      (fun t => (errCode t.err, t.errInfo, t.status, t.emitted)) =
      some (2#4, 2#64, 0x0207#32, 2#40) := by decide +kernel

/-- U1, the eighth bit: the last of its byte, to an internal node. -/
theorem test_bu_bit_crosses_a_byte :
    (nextOf (step { abcWalking with bitPos := 7#3, emitted := 5#40, outPos := 5#64 })).map
      (fun t => (t.inPos, t.bitPos, t.cur, t.emitted)) =
      some (1025#32, 0#3, some 256#9, 5#40) := by decide +kernel

/-- U8, the fifth bit: the leaf is reached and the buffer is full. -/
theorem test_bu_bit_full :
    (nextOf (step { abcWalking with
      obufCap := 3, bitPos := 4#3, cur := some 256#9, emitted := 3#40, outPos := 3#64 })).map
      (fun t => (errCode t.err, t.errInfo, t.inPos, t.bitPos, t.cur, t.emitted, t.outPos)) =
      some (2#4, 3#64, 1024#32, 5#3, some 0x62#9, 3#40, 3#64) := by decide +kernel

/-! ### Host moves -/

/-- K20. -/
theorem test_busy_input_is_the_cores :
    (nextOf (Host.Core.run core 2 { abcInput Phase.pFc with
      schedule := [.host (.writeReg 0x14 9#32), .host (.writeIbuf 0 0xFF#8)] })).map
      (fun t => (t.inLen, t.ibuf.read 0)) = some (6#32, some 0x61#8) := by decide +kernel

/-- R28: an offset at or above 0x28 reads 0; U9: an unaligned access is refused. -/
theorem test_window_edges :
    (nextOf (step { idle with hostData := 7#32, schedule := [.host (.readReg 0x28)] })).map State.hostData =
      some 0#32 ∧
    nextOf (step { idle with schedule := [.host (.readReg 0x06)] }) = none := by decide +kernel

/-! ### Witnesses: a state and operands that meet the hypotheses of each statement -/

theorem nextOf_some {r : Result} {t : State} (h : nextOf r = some t) : r = .next t := by
  cases r <;> simp [nextOf] at h
  exact congrArg _ h

/-- An outcome that is a next state of which something decidable holds. -/
theorem next_of_all {r : Result} {p : State → Bool} (h : (nextOf r).any p = true) :
    ∃ t, r = .next t ∧ p t = true := by
  cases hr : nextOf r with
  | none => rw [hr] at h; cases h
  | some t => rw [hr] at h; exact ⟨t, nextOf_some hr, h⟩

/-- The forest of `aaabbc`: its leaves, then two merges (vectors T2 to T4). -/
def abcForest : State :=
  { running Phase.pTbi .decode with
    freq := abcFreq, nodeW := leafWeights { running Phase.pTbi .decode with freq := abcFreq }
    pq := leavesOf .exclude abcFreq, nint := 0#9, phase := Phase.pTbm }

/-- After the first merge. -/
def abcForest1 : State :=
  makeNode 0x63#9 0x62#9 (1#40 + 2#40) ((abcForest.pq.erase 0x63#9).erase 0x62#9) abcForest

/-- After the second merge. -/
def abcForest2 : State :=
  makeNode 0x61#9 256#9 (3#40 + 3#40) ((abcForest1.pq.erase 0x61#9).erase 256#9) abcForest1

/-- After `TB.FIN`, in phase `P_BU`. -/
def abcBuilt : State :=
  { abcForest2 with
    root := some 257#9, cur := some 257#9
    rootKind := if isLeaf 257#9 then .leaf else .internal, pq := [], phase := Phase.pBu }

theorem abcForest_forest : Forest abcForest :=
  tbInit_forest { running Phase.pTbi .decode with freq := abcFreq } Phase.pTbm

theorem abcForest1_forest : Forest abcForest1 :=
  tbMerge_forest abcForest_forest (by decide +kernel) (by decide) (by decide +kernel)
    (by decide +kernel) (by decide +kernel) (by decide +kernel)

theorem abcForest2_forest : Forest abcForest2 :=
  tbMerge_forest abcForest1_forest (by decide +kernel) (by decide) (by decide +kernel)
    (by decide +kernel) (by decide +kernel) (by decide +kernel)

theorem abcBuilt_tree : Tree abcBuilt :=
  tbFin_tree abcForest2_forest (by decide +kernel) Phase.pBu

/-- A decode run of `aaabbc` whose tree is built, no bit of its stream read (vector U1). -/
def abcDecoding : State :=
  { abcBuilt with inLen := 1026#32, inPos := 1024#32, nsym := 6#40, ibuf := [(1024, 0x1F#8), (1025, 0#8)] }

theorem abcDecoding_inv : MachineInv abcDecoding := by
  constructor <;>
    simp [abcDecoding, abcBuilt, abcForest2, abcForest1, makeNode, abcForest, running, idle,
      State.resetWith, PhaseMode, Memory.wf]

theorem abcDecoding_codes : CodeFresh abcDecoding := fun _ => byteEntry_fill _ _

theorem abcDecoding_run : RunInv abcDecoding := by
  have hp : abcDecoding.phase = Phase.pBu := rfl
  refine ⟨abcDecoding_inv, fun _ => ⟨?_, ?_, ?_, ?_, ?_, ?_, ?_, fun _ => ⟨abcDecoding_codes, ?_, ?_, rfl, ?_⟩⟩⟩
  all_goals first
    | (intro h; rw [hp] at h; simp at h)
    | skip
  · decide +kernel
  · exact abcBuilt_tree.congr rfl rfl rfl rfl rfl rfl rfl
  · intro _
    exact ⟨257#9, rfl, by decide, .inr (by decide)⟩

/-- A state of a run just started, of an empty input. -/
theorem started_inv : MachineInv (running Phase.pFc .encode) := by
  constructor <;> simp [running, idle, State.resetWith, PhaseMode, Memory.wf]

theorem started_run : RunInv (running Phase.pFc .encode) := by
  have hp : (running Phase.pFc .encode).phase = Phase.pFc := rfl
  refine ⟨started_inv, fun _ => ⟨fun _ => ⟨⟨rfl, rfl, rfl, rfl⟩, fun _ => byteEntry_fill _ _, ?_, ?_⟩,
    ?_, ?_, ?_, ?_, ?_, ?_, ?_⟩⟩
  · decide +kernel
  · intro v
    rw [show (running Phase.pFc .encode).freq = Table.fill 256 0#32 from rfl, byteEntry_fill]
    rfl
  all_goals (intro h; rw [hp] at h; simp at h)

/-- The forest of `zzzz`: one leaf (vector U12). -/
def zForest : State :=
  { running Phase.pTbi .decode with
    freq := zRun.freq, nodeW := leafWeights { running Phase.pTbi .decode with freq := zRun.freq }
    pq := leavesOf .exclude zRun.freq, nint := 0#9, phase := Phase.pTbm }

/-- After `TB.FIN`, in phase `P_BU`. -/
def zBuilt : State :=
  { zForest with
    root := some 0x7A#9, cur := some 0x7A#9
    rootKind := if isLeaf 0x7A#9 then .leaf else .internal, pq := [], phase := Phase.pBu }

/-- With its header read and no symbol emitted. -/
def zDecoding : State :=
  { zBuilt with inLen := 1024#32, inPos := 1024#32, nsym := 4#40 }

theorem zBuilt_tree : Tree zBuilt :=
  tbFin_tree (tbInit_forest { running Phase.pTbi .decode with freq := zRun.freq } Phase.pTbm)
    (by decide +kernel) Phase.pBu

theorem zDecoding_run : RunInv zDecoding := by
  have hp : zDecoding.phase = Phase.pBu := rfl
  refine ⟨?_, fun _ => ⟨?_, ?_, ?_, ?_, ?_, ?_, ?_, fun _ => ⟨fun _ => byteEntry_fill _ _, ?_, ?_,
    rfl, ?_⟩⟩⟩
  · constructor <;>
      simp [zDecoding, zBuilt, zForest, running, idle, State.resetWith, PhaseMode, Memory.wf]
  all_goals first
    | (intro h; rw [hp] at h; simp at h)
    | skip
  · decide +kernel
  · exact zBuilt_tree.congr rfl rfl rfl rfl rfl rfl rfl
  · intro h; exact absurd h (by decide)

/-- An encode run of `aaabbc` whose tree is built. -/
def abcCoding : State :=
  { abcBuilt with
    mode := .encode, phase := Phase.pCg, inLen := 6#32, nsym := 6#40
    ibuf := [(0, 0x61#8), (1, 0x61#8), (2, 0x61#8), (3, 0x62#8), (4, 0x62#8), (5, 0x63#8)] }

theorem abcCoding_run : RunInv abcCoding := by
  have hp : abcCoding.phase = Phase.pCg := rfl
  refine ⟨?_, fun _ => ⟨?_, ?_, ?_, ?_, fun _ => ⟨⟨rfl, rfl, rfl, rfl⟩, fun _ => byteEntry_fill _ _,
    fun _ => ?_, ?_, rfl, ?_⟩, ?_, ?_, ?_⟩⟩
  · constructor <;>
      simp [abcCoding, abcBuilt, abcForest2, abcForest1, makeNode, abcForest, running, idle,
        State.resetWith, PhaseMode, Memory.wf]
  all_goals first
    | (intro h; rw [hp] at h; simp at h)
    | skip
  · decide +kernel
  · decide +kernel
  · exact abcBuilt_tree.congr rfl rfl rfl rfl rfl rfl rfl

theorem witness_DecodeEncodeRoundTrip :
    wellFormed (.cmdRsvd 0x04#8) = true ∧ wellFormed (.cmdRsvd 0xFF#8) = true := by decide

theorem witness_BusySelectsExactlyOneOperation :
    MachineInv abcDecoding ∧ abcDecoding.run = .busy := ⟨abcDecoding_inv, rfl⟩

theorem witness_CoreTurnRunsTheSelectedOperation :
    (abcInput Phase.pFc).turn = .core ∧ (abcInput Phase.pFc).run = .busy ∧
      decode (abcInput Phase.pFc).selection = .ok .fcCnt := by decide +kernel

theorem witness_CommandWriteRunsTheCommand :
    { idle with schedule := [.host (.writeReg 0 0x00001280#32), .core] }.schedule =
      .host (.writeReg 0 0x00001280#32) :: [.core] := rfl

/-- Both clauses: no run, and a run in the reserved phase 9. -/
theorem witness_CoreTurnWithoutAnOperation :
    (idle.turn = .core ∧ idle.run ≠ .busy) ∧
      (running 9#4 .encode).turn = .core ∧ (running 9#4 .encode).run = .busy ∧
      ∀ i, decode (running 9#4 .encode).selection ≠ .ok i := by
  refine ⟨by decide, rfl, rfl, fun i h => ?_⟩
  have : decode (running 9#4 .encode).selection = .error (.reservedDispatch 0x91#8) := by
    decide +kernel
  rw [this] at h
  cases h

/-- Both clauses, for the commands that act somewhere; `NOP` acts nowhere. -/
theorem witness_CommandsActOnlyWhereAccepted :
    isCommand (.cmdRsvd 0x80#8) = true ∧ commandActs (.cmdRsvd 0x80#8) .done = false ∧
      commandActs (.cmdRsvd 0x80#8) .idle = true ∧ isCommand .cmdClear = true ∧
      commandActs .cmdClear .idle = false ∧ commandActs .cmdClear .error = true ∧
      isCommand .cmdNop = true ∧ commandActs .cmdNop .idle = false := by decide

/-- `IN_LEN = IBUF_CAP`, the greatest that fits. -/
theorem witness_EncodeStartsARun :
    { State.resetWith 6 2048 with inLen := 6#32 }.run = .idle ∧
      { State.resetWith 6 2048 with inLen := 6#32 }.inLen.toNat ≤
        { State.resetWith 6 2048 with inLen := 6#32 }.ibufCap := by decide

/-- An input that fits exactly, in a state left by a decode run. -/
theorem witness_DecodeStartsARun :
    { abcDecoding with run := .idle, ibufCap := 1026 }.run = .idle ∧
      { abcDecoding with run := .idle, ibufCap := 1026 }.inLen.toNat ≤
        { abcDecoding with run := .idle, ibufCap := 1026 }.ibufCap := by decide

/-- One more than fits. -/
theorem witness_StartRaisesInputUnavailable :
    { State.resetWith 5 2048 with inLen := 6#32 }.run = .idle ∧
      { State.resetWith 5 2048 with inLen := 6#32 }.ibufCap <
        { State.resetWith 5 2048 with inLen := 6#32 }.inLen.toNat := by decide

/-- Both run states. -/
theorem witness_ClearReturnsToIdle :
    ({ idle with run := .done }.run = .done ∨ { idle with run := .done }.run = .error) ∧
      ({ idle with run := .error }.run = .done ∨ { idle with run := .error }.run = .error) := by decide

theorem witness_ReservedCommandRaisesBadCommand : idle.run = .idle ∧ 4 ≤ (0x04#8).toNat := by decide

/-- A fresh state and one with what an earlier run computed. -/
theorem witness_RunsStartFresh :
    idle.run = .idle ∧ { idle with freq := abcFreq, outPos := 9#64, mode := .decode }.run = .idle ∧
      BuffersKept idle { idle with freq := abcFreq, outPos := 9#64, mode := .decode } :=
  ⟨rfl, rfl, rfl, rfl, rfl, rfl, rfl, rfl, rfl, rfl, rfl⟩

/-- At the last byte of `aaabbc`, in a buffer of six bytes, its count given. -/
def lastByte (c : Count) : State :=
  { abcInput Phase.pFc with inPos := 5#32, ibufCap := 6, freq := entries 0#32 [(0x63#8, c)] }

/-- The count is one below the greatest. -/
theorem witness_FcCntCountsTheByte :
    (lastByte 0xFFFFFFFE#32).inPos.toNat < (lastByte 0xFFFFFFFE#32).inLen.toNat ∧
      (lastByte 0xFFFFFFFE#32).inPos.toNat < (lastByte 0xFFFFFFFE#32).ibufCap ∧
      byteEntry (lastByte 0xFFFFFFFE#32).freq
        ((lastByte 0xFFFFFFFE#32).inputByte (lastByte 0xFFFFFFFE#32).inPos.toNat) ≠ 0xFFFFFFFF#32 := by
  decide +kernel

theorem witness_FcCntRaisesCountOverflow :
    (lastByte 0xFFFFFFFF#32).inPos.toNat < (lastByte 0xFFFFFFFF#32).inLen.toNat ∧
      (lastByte 0xFFFFFFFF#32).inPos.toNat < (lastByte 0xFFFFFFFF#32).ibufCap ∧
      byteEntry (lastByte 0xFFFFFFFF#32).freq
        ((lastByte 0xFFFFFFFF#32).inputByte (lastByte 0xFFFFFFFF#32).inPos.toNat) = 0xFFFFFFFF#32 := by
  decide +kernel

/-- Both kinds of id: a leaf with a count, a leaf with none, an internal id. -/
theorem witness_TbInitInsertsTheLeaves :
    byteEntry abcFreq 0x61#8 ≠ 0#32 ∧
      (isLeaf 0x64#9 = false ∨ byteEntry abcFreq (leafByte 0x64#9) = 0#32) ∧
      (isLeaf 256#9 = false ∨ byteEntry abcFreq (leafByte 256#9) = 0#32) := by decide +kernel

/-- Two members, and the last id free. -/
def lastMerge : State := { abcMerged with nint := 254#9 }

theorem witness_TbMergeJoinsTheTwoLeast :
    (lastMerge.pq.Pairwise fun a b => a.toNat < b.toNat) ∧
      (∀ id ∈ lastMerge.pq, ∃ w, lastMerge.weight id = some w) ∧
      2 ≤ lastMerge.pq.length ∧ lastMerge.nint.toNat ≤ 254 := by
  refine ⟨by decide, fun id h => ?_, by decide, by decide⟩
  have h : id = 0x61#9 ∨ id = 256#9 := by simpa [lastMerge, abcMerged] using h
  rcases h with rfl | rfl
  · exact ⟨3#40, by decide +kernel⟩
  · exact ⟨3#40, by decide +kernel⟩

/-- An empty `PQ`, and one member at the two sides of the leaf bit. -/
theorem witness_TbFinRecordsTheRoot :
    idle.pq = [] ∧ { idle with pq := [255#9] }.pq = [255#9] ∧ { idle with pq := [256#9] }.pq = [256#9] :=
  ⟨rfl, rfl, rfl⟩

theorem witness_CgGenDegenerateTrees :
    { zRun with rootKind := .empty }.rootKind = .empty ∧ zRun.rootKind = .leaf ∧
      0x7A#8 = leafByte zRun.rootId := by decide

theorem witness_CgGenCodesExactlyTheSymbols : Tree abcDecoding ∧ CodeFresh abcDecoding :=
  ⟨abcBuilt_tree.congr rfl rfl rfl rfl rfl rfl rfl, abcDecoding_codes⟩

/-- The code of `b` in `aaabbc` (vector G1c). -/
theorem witness_CgGenCodesAreRootToLeafPaths :
    (abcTree Phase.pCg .encode).rootKind = .internal ∧
      (abcTree Phase.pCg .encode).root = some 257#9 ∧ CodeFresh (abcTree Phase.pCg .encode) ∧
      ∃ t, exec .cgGen (abcTree Phase.pCg .encode) = .next t ∧
        byteEntry t.code 0x62#8 = some [true, true] := by
  refine ⟨rfl, rfl, fun _ => byteEntry_fill _ _, ?_⟩
  obtain ⟨t, h, e⟩ := next_of_all (r := exec .cgGen (abcTree Phase.pCg .encode))
    (p := fun t => decide (byteEntry t.code 0x62#8 = some [true, true])) (by decide +kernel)
  exact ⟨t, h, by simpa using e⟩

theorem witness_CgGenCodesArePrefixFree :
    CodeFresh (abcTree Phase.pCg .encode) ∧ (0x62#8 : Byte) ≠ 0x63#8 ∧
      ∃ t, exec .cgGen (abcTree Phase.pCg .encode) = .next t ∧
        byteEntry t.code 0x62#8 = some [true, true] ∧ byteEntry t.code 0x63#8 = some [true, false] := by
  refine ⟨fun _ => byteEntry_fill _ _, by decide, ?_⟩
  obtain ⟨t, h, e⟩ := next_of_all (r := exec .cgGen (abcTree Phase.pCg .encode))
    (p := fun t => decide (byteEntry t.code 0x62#8 = some [true, true] ∧
      byteEntry t.code 0x63#8 = some [true, false])) (by decide +kernel)
  exact ⟨t, h, by simpa using e⟩

/-- Room for the header and no byte more. -/
theorem witness_CcWrhAppendsTheHeader :
    { idle with obufCap := 1024 }.outPos.toNat + 1024 ≤ { idle with obufCap := 1024 }.obufCap ∧
      { idle with obufCap := 1024 }.obufCap < 2 ^ 64 := by decide

/-- One byte too few, and no byte at all. -/
theorem witness_CcWrhRaisesWhenFull :
    ∀ cap ∈ [1023, 0], { idle with obufCap := cap }.outPos.toNat ≤ { idle with obufCap := cap }.obufCap ∧
      { idle with obufCap := cap }.obufCap < { idle with obufCap := cap }.outPos.toNat + 1024 ∧
      { idle with obufCap := cap }.obufCap < 2 ^ 64 := by decide

theorem witness_CcRdhLoadsTheHeader :
    1024 ≤ { idle with inLen := 1024#32, ibufCap := 1024 }.inLen.toNat ∧
      1024 ≤ { idle with inLen := 1024#32, ibufCap := 1024 }.ibufCap := by decide

theorem witness_CcRdhRaisesMalformedContainer :
    { idle with inLen := 1023#32 }.inLen.toNat < 1024 ∧ idle.inLen.toNat < 1024 := by decide

/-- Before the sixth `BP.SYM` of vector B1, in an output buffer of `cap` bytes. -/
def sixthSymbol (cap : Nat) : State :=
  { abcPacking with inPos := 5#32, acc := 0x1E#8, nacc := 7#3, totalBits := 7#40, obufCap := cap }

/-- Room for its one byte and no more. -/
theorem witness_BpSymAppendsTheCode :
    (sixthSymbol 1025).inPos.toNat < (sixthSymbol 1025).inLen.toNat ∧
      (sixthSymbol 1025).inPos.toNat < (sixthSymbol 1025).ibufCap ∧
      byteEntry (sixthSymbol 1025).code ((sixthSymbol 1025).inputByte (sixthSymbol 1025).inPos.toNat) =
        some [true, false] ∧
      (sixthSymbol 1025).outPos.toNat + ((sixthSymbol 1025).nacc.toNat + [true, false].length) / 8 ≤
        (sixthSymbol 1025).obufCap ∧
      (sixthSymbol 1025).obufCap < 2 ^ 64 := by decide +kernel

/-- No room (vector B4a). -/
theorem witness_BpSymRaisesWhenFull :
    (sixthSymbol 1024).inPos.toNat < (sixthSymbol 1024).inLen.toNat ∧
      (sixthSymbol 1024).inPos.toNat < (sixthSymbol 1024).ibufCap ∧
      byteEntry (sixthSymbol 1024).code ((sixthSymbol 1024).inputByte (sixthSymbol 1024).inPos.toNat) =
        some [true, false] ∧
      (sixthSymbol 1024).outPos.toNat ≤ (sixthSymbol 1024).obufCap ∧
      (sixthSymbol 1024).obufCap <
        (sixthSymbol 1024).outPos.toNat + ((sixthSymbol 1024).nacc.toNat + [true, false].length) / 8 ∧
      (sixthSymbol 1024).obufCap < 2 ^ 64 := by decide +kernel

/-- `aaabbc` with no code table. -/
def noCodes : State := { abcPacking with code := Table.fill 256 none }

theorem witness_BpSymRaisesInternalConsistency :
    noCodes.inPos.toNat < noCodes.inLen.toNat ∧ noCodes.inPos.toNat < noCodes.ibufCap ∧
      byteEntry noCodes.code (noCodes.inputByte noCodes.inPos.toNat) = none := by decide +kernel

/-- No bits held; bits and room for the last byte; bits and none. -/
theorem witness_BpFlushEndsTheRun :
    abcPacking.nacc = 0#3 ∧
      ({ abcPacking with nacc := 1#3, obufCap := 1025 }.nacc ≠ 0#3 ∧
        { abcPacking with nacc := 1#3, obufCap := 1025 }.outPos.toNat ≠
          { abcPacking with nacc := 1#3, obufCap := 1025 }.obufCap) ∧
      ({ abcPacking with nacc := 7#3, obufCap := 1024 }.nacc ≠ 0#3 ∧
        { abcPacking with nacc := 7#3, obufCap := 1024 }.outPos.toNat =
          { abcPacking with nacc := 7#3, obufCap := 1024 }.obufCap) := by decide

theorem witness_BuRunEmitsTheOnlySymbol :
    0x7A#8 = leafByte zRun.rootId ∧ zRun.outPos.toNat ≠ zRun.obufCap ∧
      0x7A#8 = leafByte (State.rootId { zRun with obufCap := 0 }) ∧
      { zRun with obufCap := 0 }.outPos.toNat = { zRun with obufCap := 0 }.obufCap := by decide

/-- The `aaabbc` container at the last bit of its first byte, a 1 (vector U1), with some children and
some room. -/
def lastBit (right : Option NodeId) (cap : Nat) : State :=
  { abcWalking with
    bitPos := 7#3, obufCap := cap, nodeR := abcWalking.nodeR.set 1 right }

/-- The hypotheses but those of the clauses, for the four clauses. -/
theorem witness_BuBitWalksOneEdge :
    ∀ s ∈ [lastBit (some 256#9) 1, lastBit (some 0xFF#9) 1, lastBit (some 0xFF#9) 0, lastBit none 1],
      s.rootKind = .internal ∧ s.inPos.toNat < s.inLen.toNat ∧ s.inPos.toNat < s.ibufCap ∧
        257#9 = s.curId ∧
        true = (s.inputByte s.inPos.toNat).getLsbD (7 - s.bitPos.toNat) ∧
        1025#32 = (if s.bitPos = 7#3 then s.inPos + 1#32 else s.inPos) ∧
        0#3 = (if s.bitPos = 7#3 then 0#3 else s.bitPos + 1#3) := by decide +kernel

/-- The four clauses: an internal child, a leaf with room, a leaf with none, no child. -/
theorem witness_BuBitWalksOneEdge_clauses :
    ((lastBit (some 256#9) 1).rightChild 257#9 = some 256#9 ∧ 256 ≤ (256#9).toNat) ∧
      ((lastBit (some 0xFF#9) 1).rightChild 257#9 = some (leafId 0xFF#8) ∧
        (lastBit (some 0xFF#9) 1).root = some 257#9 ∧
        (lastBit (some 0xFF#9) 1).outPos.toNat ≠ (lastBit (some 0xFF#9) 1).obufCap) ∧
      ((lastBit (some 0xFF#9) 0).rightChild 257#9 = some (leafId 0xFF#8) ∧
        (lastBit (some 0xFF#9) 0).outPos.toNat = (lastBit (some 0xFF#9) 0).obufCap) ∧
      (lastBit none 1).rightChild 257#9 = none := by
  decide +kernel

theorem witness_BuBitRaisesBeforeTheWalk :
    { abcWalking with rootKind := .empty }.rootKind ≠ .internal ∧ abcWalking.rootKind = .internal ∧
      { abcWalking with inPos := 1026#32 }.inPos = { abcWalking with inPos := 1026#32 }.inLen := by
  decide

/-- Each clause: a member without a weight; a root without a left child; one with a leaf on the left and
nothing on the right; a node below the root without a child. -/
theorem witness_UnwrittenReadsFault :
    (2 ≤ { idle with pq := [0x61#9, 256#9] }.pq.length ∧
      ∃ id ∈ { idle with pq := [0x61#9, 256#9] }.pq, State.weight { idle with pq := [0x61#9, 256#9] } id = none) ∧
    ({ abcWalking with nodeL := Table.fill 255 none }.rootKind = .internal ∧
      State.rootId { abcWalking with nodeL := Table.fill 255 none } = 257#9 ∧ isLeaf 257#9 = false ∧
      State.leftChild { abcWalking with nodeL := Table.fill 255 none } 257#9 = none) ∧
    (State.leftChild { abcWalking with nodeR := Table.fill 255 none } 257#9 = some 0x61#9 ∧
      isLeaf 0x61#9 = true ∧ State.rightChild { abcWalking with nodeR := Table.fill 255 none } 257#9 = none) ∧
    (follow { abcWalking with nodeL := abcWalking.nodeL.set 0 none } 257#9 [true] = some 256#9 ∧
      isLeaf 256#9 = false ∧
      State.leftChild { abcWalking with nodeL := abcWalking.nodeL.set 0 none } 256#9 = none) := by
  decide +kernel

/-- A walk of a run, the single leaf and the code table of another; unwritten `ROOT` and `CUR` with a
byte to load, with no internal root, and at the end of the input. -/
theorem witness_RootAndCurAreWrittenWhereRead :
    (RunInv abcDecoding ∧ abcDecoding.run = .busy ∧ decode abcDecoding.selection = .ok .buBit) ∧
      (RunInv zDecoding ∧ zDecoding.run = .busy ∧ decode zDecoding.selection = .ok .buRun) ∧
      (RunInv abcCoding ∧ abcCoding.run = .busy ∧ decode abcCoding.selection = .ok .cgGen ∧
        abcCoding.rootKind ≠ .empty) ∧
      ({ abcDecoding with root := none, cur := none }.inPos.toNat <
          { abcDecoding with root := none, cur := none }.inLen.toNat ∧
        { abcDecoding with root := none, cur := none }.inPos.toNat <
          { abcDecoding with root := none, cur := none }.ibufCap) ∧
      { zDecoding with root := none }.rootKind ≠ .internal ∧
      { abcDecoding with inPos := 1026#32, cur := none }.inPos =
        { abcDecoding with inPos := 1026#32, cur := none }.inLen :=
  ⟨⟨abcDecoding_run, rfl, by decide +kernel⟩, ⟨zDecoding_run, rfl, by decide +kernel⟩,
    ⟨abcCoding_run, rfl, by decide +kernel, by decide⟩, by decide, by decide, rfl⟩

/-- An unwritten `ROOT` does not stop `BU.RUN`: some byte is appended (93 U8 (c), log 13). -/
theorem test_bu_run_unwritten_root :
    ∃ b, exec .buRun { zRun with root := none } = .next { zRun with
      root := none, obuf := [(0, b)], outPos := 1#64, emitted := 1#40 } := ⟨_, rfl⟩

/-- One member; two members and no id left. -/
def noIdLeft : State := { abcMerged with nint := 255#9 }

theorem witness_MergeWithoutTwoMembersStops :
    { idle with pq := [256#9] }.pq.length ≤ 1 ∧ 2 ≤ noIdLeft.pq.length ∧
      (∀ id ∈ noIdLeft.pq, ∃ w, noIdLeft.weight id = some w) ∧ 255 ≤ noIdLeft.nint.toNat :=
  ⟨by decide, by decide, witness_TbMergeJoinsTheTwoLeast.2.1, by decide⟩

/-- The cursor at the end of the input, and at the end of the buffer; a short buffer; the first
address beyond it; an odd offset. -/
theorem witness_AccessesThatDoNotExistStop :
    ((abcInput Phase.pFc).inLen.toNat ≤ { abcInput Phase.pFc with inPos := 6#32 }.inPos.toNat ∨
      idle.ibufCap ≤ (6#32).toNat) ∧
    (idle.inLen.toNat ≤ 2048 ∨ idle.ibufCap ≤ 2048) ∧
    (1024 ≤ { State.resetWith 1023 2048 with inLen := 1024#32 }.inLen.toNat ∧
      { State.resetWith 1023 2048 with inLen := 1024#32 }.ibufCap < 1024) ∧
    ({ abcDecoding with inPos := 1027#32 }.inLen.toNat ≤ { abcDecoding with inPos := 1027#32 }.inPos.toNat ∧
      { abcDecoding with inPos := 1027#32 }.rootKind = .internal ∧
      { abcDecoding with inPos := 1027#32 }.inPos ≠ { abcDecoding with inPos := 1027#32 }.inLen) ∧
    idle.ibufCap ≤ 2048 ∧ idle.run ≠ .busy ∧ 0x16 % 4 ≠ 0 := by decide

theorem witness_WindowReadsTheRegisters : 0x28 ≤ 0x28 ∧ 0x28 ≤ 0xFFC := by decide

theorem witness_HostReadsChangeNothing :
    0x24 % 4 = 0 ∧ (∃ t, hostMove (.readIbuf 0) abcPacking = .next t) ∧
      ∃ t, hostMove (.readObuf 0) abcPacking = .next t :=
  ⟨rfl, ⟨_, rfl⟩, _, rfl⟩

theorem witness_BusyInputIsTheCores :
    abcPacking.run = .busy ∧ 0x28 % 4 = 0 ∧ 0x28 ≠ 0 ∧ 0x28 ≠ 0x14 := by decide

/-- The last address of the buffer. -/
theorem witness_HostWritesLandOutsideARun : idle.run ≠ .busy ∧ 2047 < idle.ibufCap := by decide

/-- The last byte declared valid; the first one beyond; any byte in `ERROR`. -/
theorem witness_ObufReadsAreDefinedWhenDone :
    ({ idle with run := .done, outPos := 1#64, obuf := [(0, 7#8)] }.run = .done ∧
      0 < { idle with run := .done, outPos := 1#64, obuf := [(0, 7#8)] }.outPos.toNat ∧
      Memory.read [(0, 7#8)] 0 = some 7#8) ∧
    ({ idle with run := .done, outPos := 1#64 }.run ≠ .done ∨
      { idle with run := .done, outPos := 1#64 }.outPos.toNat ≤ 1) ∧
    ({ idle with run := .error, outPos := 1#64 }.run ≠ .done ∨
      { idle with run := .error, outPos := 1#64 }.outPos.toNat ≤ 0) := by decide

/-- The invariant in `DONE` with a result of one byte. -/
theorem witness_ObufReadsAreDefinedWhenDone_inv :
    MachineInv { idle with run := .done, outPos := 1#64, obuf := [(0, 7#8)] } := by
  constructor
  case obufFilled =>
    intro a h
    have h : a < 1 := h
    obtain rfl : a = 0 := by omega
    exact ⟨7#8, rfl⟩
  all_goals simp [idle, State.resetWith, Memory.wf]

theorem witness_PhaseGraphIsFollowed :
    (abcDecoding.run = .busy ∧ ∃ t, coreTurn abcDecoding = .next t) ∧
      decode abcDecoding.selection = .ok .buBit ∧ ∃ t, hostMove (.writeReg 0 1#32) idle = .next t := by
  refine ⟨⟨rfl, ?_⟩, by decide +kernel, ?_⟩
  · obtain ⟨t, h, _⟩ := next_of_all (r := coreTurn abcDecoding) (p := fun _ => true) (by decide +kernel)
    exact ⟨t, h⟩
  · obtain ⟨t, h, _⟩ := next_of_all (r := hostMove (.writeReg 0 1#32) idle) (p := fun _ => true)
      (by decide +kernel)
    exact ⟨t, h⟩

/-- A turn of a run and one outside. -/
theorem witness_CoreTurnsLeaveTheInputAlone :
    (∃ t, coreTurn abcDecoding = .next t) ∧ coreTurn idle = .next idle :=
  ⟨witness_PhaseGraphIsFollowed.1.2, rfl⟩

/-- The turn writes a byte: `a` is emitted. -/
theorem witness_WrittenOutputIsNeverOverwritten :
    abcDecoding.outPos.toNat ≤ abcDecoding.obufCap ∧ abcDecoding.obufCap < 2 ^ 64 ∧
      ∃ t, coreTurn abcDecoding = .next t :=
  ⟨by decide, by decide, witness_PhaseGraphIsFollowed.1.2⟩

theorem witness_RaisingLeavesTheTables :
    { abcDecoding with inPos := 1026#32 }.run = .busy ∧
      ∃ t, coreTurn { abcDecoding with inPos := 1026#32 } = .next t ∧ t.run = .error := by
  refine ⟨rfl, ?_⟩
  obtain ⟨t, h, e⟩ := next_of_all (r := coreTurn { abcDecoding with inPos := 1026#32 })
    (p := fun t => decide (t.run = .error)) (by decide +kernel)
  exact ⟨t, h, by simpa using e⟩

theorem witness_OutcomesAreStable :
    ({ idle with run := .done }.run = .done ∨ { idle with run := .done }.run = .error) ∧
      ∃ t, step { idle with run := .done } = .next t := ⟨.inl rfl, _, rfl⟩

theorem witness_CoreTurnsDecreaseTheVariant :
    abcDecoding.run = .busy ∧ ∃ t, coreTurn abcDecoding = .next t :=
  witness_PhaseGraphIsFollowed.1

/-- Two buffers that differ at `IN_LEN`, the first address beyond the input. -/
theorem witness_CoreReadsOnlyTheDeclaredInput :
    SameInput (abcInput Phase.pFc)
      { abcInput Phase.pFc with ibuf := (abcInput Phase.pFc).ibuf.write 6 0xFF#8 } := by
  refine ⟨rfl, fun a h => ?_⟩
  have h : a < 6 := h
  unfold State.inputByte
  rw [Memory.read_write_ne _ _ (by omega)]

theorem witness_StepKeepsTheMachineInvariant :
    MachineInv abcDecoding ∧ ∃ t, step abcDecoding = .next t :=
  ⟨abcDecoding_inv, witness_PhaseGraphIsFollowed.1.2⟩

/-- A run that walks its tree, and one just started. -/
theorem witness_StepKeepsTheRunInvariant :
    (RunInv abcDecoding ∧ ∃ t, step abcDecoding = .next t) ∧ RunInv (running Phase.pFc .encode) :=
  ⟨⟨abcDecoding_run, witness_PhaseGraphIsFollowed.1.2⟩, started_run⟩

theorem witness_BusyCoreTurnsNeverStop :
    RunInv abcDecoding ∧ abcDecoding.run = .busy ∧ abcDecoding.turn = .core :=
  ⟨abcDecoding_run, rfl, rfl⟩

end Sys2Proof.Tests
end

section
/-! PROOF. What is no access of the block stops by name (O39): the loads of the core outside the input
(00_scope.md rule R9), the accesses of the host outside `IBUF` (20_memory.md rule R60) and the unaligned
ones of the register window (93_implementation_defined.md U9). -/

namespace Sys2Proof.Machine

/-- A core load outside the declared input or outside the buffer faults (00 R9, 20 R60). -/
theorem loadInput_outside {s : State} {a : Nat} (h : s.inLen.toNat ≤ a ∨ s.ibufCap ≤ a) :
    loadInput s a = .error (.inputAddress a) := by
  unfold loadInput
  exact if_neg (by omega)

section
variable {s : State} (h : s.inLen.toNat ≤ s.inPos.toNat ∨ s.ibufCap ≤ s.inPos.toNat)
include h

theorem execFcCnt_outside : execFcCnt s = .fault (.inputAddress s.inPos.toNat) := by
  simp only [execFcCnt, loadInput_outside h]

theorem execBpSym_outside : execBpSym s = .fault (.inputAddress s.inPos.toNat) := by
  simp only [execBpSym, loadInput_outside h]

/-- `BU.BIT` loads only past its two tests (45 R203): with an internal root, away from `IN_LEN`. -/
theorem execBuBit_outside (hk : s.rootKind = .internal) (hne : s.inPos ≠ s.inLen) :
    execBuBit s = .fault (.inputAddress s.inPos.toNat) := by
  simp only [execBuBit, hk, hne, ne_eq, not_true, if_false, loadInput_outside h]

end

/-- A declared length short of a header (46 R217, 60 R234). -/
theorem execCcRdh_short {s : State} (hl : s.inLen.toNat < 1024) :
    execCcRdh s = .next (raise .malformedContainer (s.inLen.setWidth 64) s) := if_pos hl

/-- A header that was declared but does not fit the buffer (46 R217). -/
theorem execCcRdh_outside {s : State} (hl : 1024 ≤ s.inLen.toNat) (hc : s.ibufCap < 1024) :
    execCcRdh s = .fault (.inputAddress s.ibufCap) := by
  rw [execCcRdh, Config.hdrBytes, if_neg (Nat.not_lt.mpr hl), if_pos hc]

theorem hostReadIbuf_outside {s : State} {a : Nat} (h : s.ibufCap ≤ a) :
    hostReadIbuf a s = .fault (.hostInputAddress a) := if_pos h

/-- Outside a run only: while the core owns the buffer the write is discarded (70 R266). -/
theorem hostWriteIbuf_outside {s : State} {a : Nat} (b : Byte) (h : s.ibufCap ≤ a)
    (hr : s.run ≠ .busy) : hostWriteIbuf a b s = .fault (.hostInputAddress a) := by
  unfold hostWriteIbuf
  rw [if_neg hr, if_pos h]

theorem hostReadReg_unaligned (s : State) {off : Nat} (h : off % 4 ≠ 0) :
    hostReadReg off s = .refused (.registerAccess off) := if_pos h

theorem hostWriteReg_unaligned (s : State) {off : Nat} (v : BitVec 32) (h : off % 4 ≠ 0) :
    hostWriteReg off v s = .refused (.registerAccess off) := if_pos h

/-- Settles O39, access by access. -/
theorem accessesThatDoNotExistStop : Obligations.AccessesThatDoNotExistStop := fun s =>
  ⟨fun h => ⟨execFcCnt_outside h, execBpSym_outside h, execBuBit_outside h⟩,
    execCcRdh_outside,
    fun _ b h => ⟨hostReadIbuf_outside h, hostWriteIbuf_outside b h⟩,
    fun _ v h => ⟨hostReadReg_unaligned s h, hostWriteReg_unaligned s v h⟩⟩

end Sys2Proof.Machine
end

section
/-! PROOF. The core reads the declared input only (O55; 00_scope.md rule R9, 70_reset_and_hazards.md
rule R262). Every operation a core turn selects commutes with putting other contents into `IBUF` that
agree below `IN_LEN`; the loads are where the agreement is used, everything else does not look at
`IBUF`. -/

namespace Sys2Proof.Machine

/-! ### What the table walks depend on -/

/-- The choice of the least key reads the state through `NODE_W` only (42 R161). -/
theorem leastMember_congr {s t : State} (h : ∀ id, s.weight id = t.weight id) (best : NodeId)
    (l : List NodeId) : leastMember s best l = leastMember t best l := by
  induction l generalizing best with
  | nil => rfl
  | cons id rest ih =>
    simp only [leastMember, h, ih]

/-- extract-min reads the state through `PQ` and `NODE_W` only (42 R161). -/
theorem extractMin_congr {s t : State} (hq : s.pq = t.pq) (h : ∀ id, s.weight id = t.weight id) :
    extractMin s = extractMin t := by
  simp only [extractMin, hq, leastMember_congr h]

/-- The traversal reads the state through `NODE_L` and `NODE_R` only (43 R181). -/
theorem visit_congr {s t : State} (hl : ∀ id, s.leftChild id = t.leftChild id)
    (hr : ∀ id, s.rightChild id = t.rightChild id) (fuel : Nat) (n : NodeId) (p : Code)
    (c : Table (Option Code) Config.freqEntries) : visit s fuel n p c = visit t fuel n p c := by
  induction fuel generalizing n p c with
  | zero => rfl
  | succ fuel ih => simp only [visit, hl, hr, ih]

/-! ### Outcomes with other contents of `IBUF` -/

/-- The outcome with `m` in `IBUF`, if it is a next state. -/
def resultWithIbuf (m : Memory) : Result → Result
  | .next s => .next { s with ibuf := m }
  | .fault f => .fault f
  | .refused r => .refused r

/-- The flow with `m` in `IBUF`, however far it has come. -/
def flowWithIbuf (m : Memory) : Flow → Flow
  | .cont s => .cont { s with ibuf := m }
  | .halt r => .halt (resultWithIbuf m r)

theorem sameButIbuf_resultWithIbuf (m : Memory) (r : Result) :
    SameButIbuf r (resultWithIbuf m r) := by
  cases r <;> rfl

theorem finish_flowWithIbuf (m : Memory) (f : Flow) :
    (flowWithIbuf m f).finish = resultWithIbuf m f.finish := by
  cases f <;> rfl

theorem andThen_flowWithIbuf {m : Memory} {k : State → Flow}
    (hk : ∀ s : State, k { s with ibuf := m } = flowWithIbuf m (k s)) (f : Flow) :
    (flowWithIbuf m f).andThen k = flowWithIbuf m (f.andThen k) := by
  cases f with
  | cont s => exact hk s
  | halt r => rfl

/-! ### What does not look at `IBUF` -/

theorem outByte_withIbuf (m : Memory) (v : Byte) (s : State) :
    outByte v { s with ibuf := m } = flowWithIbuf m (outByte v s) := by
  unfold outByte
  split <;> rfl

theorem outBytes_withIbuf (m : Memory) (vs : List Byte) (s : State) :
    outBytes vs { s with ibuf := m } = flowWithIbuf m (outBytes vs s) := by
  induction vs generalizing s with
  | nil => rfl
  | cons v vs ih => rw [outBytes, outByte_withIbuf, andThen_flowWithIbuf ih, outBytes]

theorem emitAcc_withIbuf (m : Memory) (s : State) :
    emitAcc { s with ibuf := m } = flowWithIbuf m (emitAcc s) := by
  unfold emitAcc
  rw [outByte_withIbuf, andThen_flowWithIbuf fun _ => rfl]

theorem packBit_withIbuf (m : Memory) (bit : Bool) (s : State) :
    packBit bit { s with ibuf := m } = flowWithIbuf m (packBit bit s) := by
  unfold packBit
  split
  · exact emitAcc_withIbuf m (placeBit bit s)
  · rfl

theorem packBits_withIbuf (m : Memory) (bits : Code) (s : State) :
    packBits bits { s with ibuf := m } = flowWithIbuf m (packBits bits s) := by
  induction bits generalizing s with
  | nil => rfl
  | cons bit bits ih => rw [packBits, packBit_withIbuf, andThen_flowWithIbuf ih, packBits]

theorem flushAcc_withIbuf (m : Memory) (s : State) :
    flushAcc { s with ibuf := m } = flowWithIbuf m (flushAcc s) := by
  unfold flushAcc
  split
  · rfl
  · exact emitAcc_withIbuf m (padAcc s)

theorem advanceBit_withIbuf (m : Memory) (s : State) :
    advanceBit { s with ibuf := m } = { advanceBit s with ibuf := m } := by
  simp only [advanceBit_eq]

theorem moveTo_withIbuf (m : Memory) (d : NodeId) (s : State) :
    moveTo d { s with ibuf := m } = flowWithIbuf m (moveTo d s) := by
  unfold moveTo
  split
  · rw [← andThen_flowWithIbuf fun _ => rfl, ← outByte_withIbuf]
  · rfl

theorem walkBit_withIbuf (m : Memory) (bit : Bool) (s : State) :
    walkBit bit { s with ibuf := m } = resultWithIbuf m (walkBit bit s) := by
  have hchild : State.child { s with ibuf := m } bit (State.curId { s with ibuf := m }) =
    s.child bit s.curId := rfl
  unfold walkBit
  rw [hchild]
  cases s.child bit s.curId with
  | none => rfl
  | some d => simp only [moveTo_withIbuf, finish_flowWithIbuf]

theorem codeTable_withIbuf (m : Memory) (s : State) :
    codeTable { s with ibuf := m } = codeTable s := by
  have hvisit := visit_congr (s := { s with ibuf := m }) (t := s) (fun _ => rfl) fun _ => rfl
  unfold codeTable
  simp only [hvisit]
  rfl

theorem execTbMerge_withIbuf (m : Memory) (s : State) :
    execTbMerge { s with ibuf := m } = resultWithIbuf m (execTbMerge s) := by
  have hweight : ∀ id, State.weight { s with ibuf := m } id = s.weight id := fun _ => rfl
  have hfirst : extractMin { s with ibuf := m } = extractMin s := extractMin_congr rfl hweight
  have hsecond : ∀ q, extractMin { s with ibuf := m, pq := q } = extractMin { s with pq := q } :=
    fun q => extractMin_congr rfl hweight
  simp only [execTbMerge, hfirst, hsecond, hweight, config_maxNodes]
  cases extractMin s with
  | error f => rfl
  | ok first =>
    obtain ⟨a, q⟩ := first
    dsimp only
    cases extractMin { s with pq := q } with
    | error f => rfl
    | ok second =>
      obtain ⟨b, q'⟩ := second
      dsimp only
      by_cases hn : 511 ≤ 256 + s.nint.toNat
      · simp only [hn, if_true]
        rfl
      simp only [hn, if_false]
      cases s.weight a with
      | none => rfl
      | some wa =>
        dsimp only
        cases s.weight b <;> rfl

theorem execTbFin_withIbuf (m : Memory) (s : State) :
    execTbFin { s with ibuf := m } = resultWithIbuf m (execTbFin s) := by
  have hmin : extractMin { s with ibuf := m } = extractMin s := extractMin_congr rfl fun _ => rfl
  simp only [execTbFin, hmin]
  cases s.pq with
  | nil => rfl
  | cons id rest => cases extractMin s <;> rfl

/-! ### The loads -/

section
variable {s : State} {m : Memory} (h : SameInput s { s with ibuf := m })
include h

/-- A load answers the same byte below `IN_LEN` and faults alike elsewhere (00 R9). -/
theorem loadInput_withIbuf (a : Nat) : loadInput { s with ibuf := m } a = loadInput s a := by
  by_cases ha : a < s.inLen.toNat ∧ a < s.ibufCap
  · rw [loadInput_eq (s := s) ha.1 ha.2, loadInput_eq (s := { s with ibuf := m }) ha.1 ha.2, h.2 a ha.1]
  · rw [loadInput_outside (s := s) (by omega),
      loadInput_outside (s := { s with ibuf := m }) (show s.inLen.toNat ≤ a ∨ s.ibufCap ≤ a by omega)]

/-- The header lies below `IN_LEN` when the test of its length passes (46 R217). -/
theorem headerCounts_withIbuf (hl : 1024 ≤ s.inLen.toNat) :
    headerCounts { s with ibuf := m } = headerCounts s := by
  refine Table.ext_get fun i hi => ?_
  have hi : i < 256 := hi
  have hbyte : ∀ a, a < 4 * i + 4 → State.inputByte { s with ibuf := m } a = s.inputByte a :=
    fun a ha => (h.2 a (by omega)).symm
  simp only [headerCounts, Table.get_tabulate, headerCount]
  rw [hbyte (4 * i) (by omega), hbyte (4 * i + 1) (by omega), hbyte (4 * i + 2) (by omega),
    hbyte (4 * i + 3) (by omega)]

theorem execFcCnt_withIbuf : execFcCnt { s with ibuf := m } = resultWithIbuf m (execFcCnt s) := by
  simp only [execFcCnt, loadInput_withIbuf h]
  cases loadInput s s.inPos.toNat with
  | error f => rfl
  | ok b => dsimp only; split <;> rfl

theorem execBpSym_withIbuf : execBpSym { s with ibuf := m } = resultWithIbuf m (execBpSym s) := by
  simp only [execBpSym, loadInput_withIbuf h]
  cases loadInput s s.inPos.toNat with
  | error f => rfl
  | ok b =>
    dsimp only
    cases byteEntry s.code b with
    | none => rfl
    | some bits =>
      simp only [packBits_withIbuf]
      rw [andThen_flowWithIbuf fun _ => rfl, finish_flowWithIbuf]

theorem execBuBit_withIbuf : execBuBit { s with ibuf := m } = resultWithIbuf m (execBuBit s) := by
  simp only [execBuBit, loadInput_withIbuf h]
  split
  · rfl
  split
  · rfl
  cases loadInput s s.inPos.toNat with
  | error f => rfl
  | ok b => simp only [advanceBit_withIbuf, walkBit_withIbuf]

theorem execCcRdh_withIbuf : execCcRdh { s with ibuf := m } = resultWithIbuf m (execCcRdh s) := by
  by_cases hl : 1024 ≤ s.inLen.toNat
  · by_cases hc : 1024 ≤ s.ibufCap
    · rw [execCcRdh_ok s hl hc, execCcRdh_ok { s with ibuf := m } hl hc, headerCounts_withIbuf h hl,
        resultWithIbuf]
    · rw [execCcRdh_outside (s := s) hl (Nat.lt_of_not_le hc),
        execCcRdh_outside (s := { s with ibuf := m }) hl (Nat.lt_of_not_le hc)]
      rfl
  · rw [execCcRdh_short (s := s) (Nat.lt_of_not_le hl),
      execCcRdh_short (s := { s with ibuf := m }) (Nat.lt_of_not_le hl)]
    rfl

/-! ### A core turn -/

/-- What the phase and the guards select commutes with other contents of `IBUF` beyond the declared
input. -/
theorem exec_withIbuf {i : Instr} (hi : Selected s i) :
    exec i { s with ibuf := m } = resultWithIbuf m (exec i s) := by
  cases hi with
  | fcEnd | tbInit | buDone => rfl
  | fcCnt => exact execFcCnt_withIbuf h
  | tbMerge => exact execTbMerge_withIbuf m s
  | tbFin => exact execTbFin_withIbuf m s
  | cgGen =>
    simp only [exec, execCgGen, codeTable_withIbuf]
    cases codeTable s <;> rfl
  | ccWrh =>
    simp only [exec, execCcWrh]
    rw [← finish_flowWithIbuf, ← andThen_flowWithIbuf fun _ => rfl, ← outBytes_withIbuf]
  | bpSym => exact execBpSym_withIbuf h
  | bpFlush =>
    simp only [exec, execBpFlush]
    rw [flushAcc_withIbuf, andThen_flowWithIbuf fun _ => rfl, finish_flowWithIbuf]
  | ccRdh => exact execCcRdh_withIbuf h
  | buRun =>
    simp only [exec, execBuRun]
    rw [← finish_flowWithIbuf, ← andThen_flowWithIbuf fun _ => rfl, ← outByte_withIbuf]
    rfl
  | buBit => exact execBuBit_withIbuf h

/-- The selection does not look at `IBUF`, and what it selects commutes. -/
theorem coreTurn_withIbuf : coreTurn { s with ibuf := m } = resultWithIbuf m (coreTurn s) := by
  by_cases hr : s.run = .busy
  · have hsel : State.selection { s with ibuf := m } = s.selection := rfl
    rw [coreTurn_busy s hr, coreTurn_busy { s with ibuf := m } hr, hsel]
    unfold execSelection
    cases hi : decode s.selection with
    | ok i => exact exec_withIbuf h (selected_of_decode hr hi)
    | error e => cases e <;> rfl
  · rw [coreTurn_idle s hr, coreTurn_idle { s with ibuf := m } hr]
    rfl

end

/-- Settles O55: the second state is the first with other contents of `IBUF`, and the turn commutes
with them. -/
theorem coreReadsOnlyTheDeclaredInput : Obligations.CoreReadsOnlyTheDeclaredInput := by
  intro s u h
  obtain ⟨m, rfl⟩ : ∃ m, u = { s with ibuf := m } := ⟨u.ibuf, h.1.symm⟩
  rw [coreTurn_withIbuf h]
  exact sameButIbuf_resultWithIbuf m (coreTurn s)

end Sys2Proof.Machine
end

section
/-! PROOF. What every core turn of a run leaves alone (O49): the registers and the buffer the host owns
(10_state.md rules R27 and R33, 20_memory.md rule R60). -/

namespace Sys2Proof.Machine

/-- `MODE`, `IN_LEN`, `IBUF`, the capacities and the model's own fields are as they were. -/
structure HostSideKept (s t : State) : Prop where
  mode : t.mode = s.mode
  inLen : t.inLen = s.inLen
  ibuf : t.ibuf = s.ibuf
  ibufCap : t.ibufCap = s.ibufCap
  obufCap : t.obufCap = s.obufCap
  schedule : t.schedule = s.schedule
  hostData : t.hostData = s.hostData
  freeReads : t.freeReads = s.freeReads
  resets : t.resets = s.resets

theorem HostSideKept.refl (s : State) : HostSideKept s s := ⟨rfl, rfl, rfl, rfl, rfl, rfl, rfl, rfl, rfl⟩

/-- Appending to the output leaves the host's side alone. -/
theorem Appended.hostSideKept {s t : State} (h : Appended s t) : HostSideKept s t := by
  rw [h.frame]
  constructor <;> rfl

/-- So does packing. -/
theorem PackedOnly.hostSideKept {s t : State} (h : PackedOnly s t) : HostSideKept s t := by
  rw [h.frame]
  constructor <;> rfl

/-- So does consuming a bit. -/
theorem advanceBit_hostSideKept (s : State) : HostSideKept s (advanceBit s) := by
  rw [advanceBit_eq]
  constructor <;> rfl

/-- Every next state of a run has the host's side as it was. -/
theorem CoreNext.hostSideKept {s t : State} (h : CoreNext s t) : HostSideKept s t := by
  cases h with
  | ccWrh _ u hu _ | ccWrhFull _ u hu _ => exact { hu.hostSideKept with }
  | bpSym _ _ _ _ u hu _ | bpSymFull _ _ u hu _ => exact { hu.hostSideKept with }
  | buInner | buLeaf | buLeafFull | buMissing => exact { advanceBit_hostSideKept s with }
  | _ => exact { HostSideKept.refl s with }

/-- A core turn has, in a run or outside one. -/
theorem coreTurn_hostSideKept {s t : State} (h : coreTurn s = .next t) : HostSideKept s t := by
  by_cases hr : s.run = .busy
  · exact (coreTurn_next hr h).hostSideKept
  · rw [coreTurn_idle s hr] at h
    cases h
    exact .refl s

/-- Settles O49, next state by next state. -/
theorem coreTurnsLeaveTheInputAlone : Obligations.CoreTurnsLeaveTheInputAlone := by
  intro s t h
  obtain ⟨h1, h2, h3, h4, h5, h6, h7, h8, h9⟩ := coreTurn_hostSideKept h
  exact ⟨h1, h2, h3, h4, h5, h6, h7, h8, h9⟩

end Sys2Proof.Machine
end

section
/-! PROOF. The invariant of the machine (O56, O57): it falls into what holds of the stored data whatever
`RUN` is, the agreement of the status registers, and the bounds of a run; every turn keeps each part. -/

namespace Sys2Proof.Machine

/-! ### The parts of the invariant -/

/-- The buffers are in canonical form within their capacities, and `PQ` is a set (10 R24, 20 R60). -/
structure StoreOk (s : State) : Prop extends OutOk s where
  ibufWf : s.ibuf.wf
  ibufBelow : ∀ c ∈ s.ibuf, c.1 < s.ibufCap
  pqRising : s.pq.Pairwise fun a b => a.toNat < b.toNat

/-- `RUN`, `PHASE`, `ERR` and `ERR_INFO` agree (10 R25, R31, R32). -/
structure StatusOk (s : State) : Prop where
  phaseNone : s.phase = Phase.pNone ↔ s.run ≠ .busy
  phaseNamed : s.phase.toNat ≤ 8
  errExactly : s.err ≠ .none ↔ s.run = .error
  errInfoZero : s.err = .none → s.errInfo = 0#64

/-- The bounds of a run: the cursor, the mode of its phase, the symbols emitted (10 R21, R26, 40 R132). -/
structure BusyOk (s : State) : Prop where
  cursor : s.inPos.toNat ≤ s.inLen.toNat
  fits : s.inLen.toNat ≤ s.ibufCap
  mode : PhaseMode s.phase s.mode
  unemitted : s.phase ≠ Phase.pBu → s.emitted = 0#40
  emitted : s.emitted.toNat ≤ s.nsym.toNat

theorem MachineInv.storeOk {s : State} (h : MachineInv s) : StoreOk s :=
  ⟨⟨h.obufWf, h.obufBelow, h.outPosBound, h.obufFilled⟩, h.ibufWf, h.ibufBelow, h.pqRising⟩

theorem MachineInv.statusOk {s : State} (h : MachineInv s) : StatusOk s :=
  ⟨h.phaseNone, h.phaseNamed, h.errExactly, h.errInfoZero⟩

theorem MachineInv.busyOk {s : State} (h : MachineInv s) (hr : s.run = .busy) : BusyOk s :=
  ⟨h.busyCursor hr, h.busyFits hr, h.busyMode hr, h.busyUnemitted hr, h.busyEmitted hr⟩

theorem MachineInv.of_parts {s : State} (hstore : StoreOk s) (hstatus : StatusOk s)
    (hbusy : s.run = .busy → BusyOk s) : MachineInv s where
  ibufWf := hstore.ibufWf
  ibufBelow := hstore.ibufBelow
  obufWf := hstore.wf
  obufBelow := hstore.below
  pqRising := hstore.pqRising
  phaseNone := hstatus.phaseNone
  phaseNamed := hstatus.phaseNamed
  errExactly := hstatus.errExactly
  errInfoZero := hstatus.errInfoZero
  outPosBound := hstore.bound
  obufFilled := hstore.filled
  busyCursor hr := (hbusy hr).cursor
  busyFits hr := (hbusy hr).fits
  busyMode hr := (hbusy hr).mode
  busyUnemitted hr := (hbusy hr).unemitted
  busyEmitted hr := (hbusy hr).emitted

/-- In a run there is no error. -/
theorem StatusOk.err_busy {s : State} (h : StatusOk s) (hr : s.run = .busy) : s.err = .none := by
  by_contra he
  have := h.errExactly.mp he
  rw [hr] at this
  cases this

/-- Error entry makes the status registers agree, whatever they were (60 R240). -/
theorem statusOk_raise {e : ErrKind} (he : e ≠ .none) (info : BitVec 64) (s : State) :
    StatusOk (raise e info s) where
  phaseNone := by simp
  phaseNamed := by simp
  errExactly := by simp [he]
  errInfoZero h := absurd h he

/-- A state outside a run with no error pending. -/
theorem statusOk_quiet {s : State} (hp : s.phase = Phase.pNone) (hr : s.run = .idle ∨ s.run = .done)
    (he : s.err = .none) (hi : s.errInfo = 0#64) : StatusOk s := by
  constructor <;> rcases hr with hr | hr <;> simp [hp, hr, he, hi]

/-- A state of a run, in a named phase. -/
theorem statusOk_busy {s : State} (hp : s.phase ≠ Phase.pNone) (hn : s.phase.toNat ≤ 8)
    (hr : s.run = .busy) (he : s.err = .none) (hi : s.errInfo = 0#64) : StatusOk s := by
  refine ⟨?_, hn, ?_, fun _ => hi⟩
  · simpa [hr] using hp
  · simp [hr, he]

/-! ### Core turns -/

/-- `PQ` stays a set (10 R24). -/
theorem CoreNext.pqRising {s t : State} (h : CoreNext s t)
    (hq : s.pq.Pairwise fun a b => a.toNat < b.toNat) :
    t.pq.Pairwise fun a b => a.toNat < b.toNat := by
  cases h with
  | tbInit => exact leavesOf_rising _ _
  | tbMerge => exact insertMember_rising _ _ (erase_rising (erase_rising hq _) _)
  | tbFinEmpty | tbFin => exact .nil
  | ccWrh _ u hu _ | ccWrhFull _ u hu _ => rw [hu.frame]; exact hq
  | bpSym _ _ _ _ u hu _ | bpSymFull _ _ u hu _ => rw [hu.frame]; exact hq
  | buInner | buLeaf | buLeafFull | buMissing => rw [advanceBit_eq]; exact hq
  | _ => exact hq

/-- How a core turn of a run ends: the run goes on in a named phase, is done, or has raised. -/
inductive Ending (s t : State) : Prop where
  | busy (hr : t.run = s.run) (hp : t.phase ≠ Phase.pNone) (hn : t.phase.toNat ≤ 8)
      (he : t.err = s.err) (hi : t.errInfo = s.errInfo)
  | done (hr : t.run = .done) (hp : t.phase = Phase.pNone) (he : t.err = s.err)
      (hi : t.errInfo = s.errInfo)
  | raised (e : ErrKind) (info : BitVec 64) (u : State) (he : e ≠ .none) (ht : t = raise e info u)

theorem CoreNext.ending {s t : State} (h : CoreNext s t) : Ending s t := by
  cases h with
  | bpFlushNone | bpFlush | buDone => exact .done rfl rfl rfl rfl
  | fcCnt hp | buRun hp => exact .busy rfl (by simp [hp]) (by simp [hp]) rfl rfl
  | tbMerge hp => exact .busy rfl (by simp [makeNode, hp]) (by simp [makeNode, hp]) rfl rfl
  | fcEnd | tbInit | cgGen | ccRdh => exact .busy rfl (by simp) (by simp) rfl rfl
  | tbFinEmpty | tbFin =>
    cases s.mode <;> exact .busy rfl (by simp [phaseAfterTree]) (by simp [phaseAfterTree]) rfl rfl
  | ccWrh _ u hu _ => rw [hu.frame]; exact .busy rfl (by simp) (by simp) rfl rfl
  | bpSym hp _ _ _ u hu _ => rw [hu.frame]; exact .busy rfl (by simp [hp]) (by simp [hp]) rfl rfl
  | buInner hp | buLeaf hp =>
    rw [advanceBit_eq]; exact .busy rfl (by simp [hp]) (by simp [hp]) rfl rfl
  | _ => exact .raised _ _ _ (by simp) rfl

theorem Ending.statusOk {s t : State} (h : Ending s t) (hs : StatusOk s) (hr : s.run = .busy) :
    StatusOk t := by
  have he := hs.err_busy hr
  have hi := hs.errInfoZero he
  cases h with
  | busy hr' hp hn he' hi' => exact statusOk_busy hp hn (hr'.trans hr) (he'.trans he) (hi'.trans hi)
  | done hr' hp he' hi' => exact statusOk_quiet hp (.inr hr') (he'.trans he) (hi'.trans hi)
  | raised e info u hne ht => rw [ht]; exact statusOk_raise hne info u

/-- Consuming a bit below `IN_LEN` leaves the cursor at most there. -/
theorem advanceBit_cursor {s : State} (h : s.inPos.toNat < s.inLen.toNat) :
    (advanceBit s).inPos.toNat ≤ s.inLen.toNat := by
  have := inPos_succ h
  rw [advanceBit_eq]
  dsimp only
  split <;> omega

/-- The cursor stays within the input (10 R26). -/
theorem CoreNext.cursor {s t : State} (h : CoreNext s t) (hc : s.inPos.toNat ≤ s.inLen.toNat) :
    t.inPos.toNat ≤ t.inLen.toNat := by
  cases h with
  | fcCnt _ hg =>
    have := inPos_succ hg
    show (s.inPos + 1#32).toNat ≤ s.inLen.toNat
    omega
  | fcEnd => exact Nat.zero_le _
  | ccRdh _ hg => exact hg
  | ccWrh _ u hu _ | ccWrhFull _ u hu _ => rw [hu.frame]; exact hc
  | bpSym _ hg _ _ u hu _ =>
    have := inPos_succ hg
    rw [hu.frame]
    show (s.inPos + 1#32).toNat ≤ s.inLen.toNat
    omega
  | bpSymFull _ _ u hu _ => rw [hu.frame]; exact hc
  | buInner _ _ _ hi | buLeaf _ _ _ hi | buLeafFull _ hi | buMissing _ _ hi =>
    have hadv := advanceBit_cursor hi
    rw [← (advanceBit_hostSideKept s).inLen] at hadv
    exact hadv
  | _ => exact hc

/-- Every phase is entered in its mode (40 R132). -/
theorem CoreNext.phaseMode {s t : State} (h : CoreNext s t) (hm : PhaseMode s.phase s.mode) :
    PhaseMode t.phase t.mode := by
  cases h with
  | fcEnd | tbInit | ccRdh | bpFlushNone | bpFlush | buDone => simp [PhaseMode]
  | tbFinEmpty | tbFin => cases s.mode <;> simp [PhaseMode, phaseAfterTree]
  | cgGen hp => simpa [PhaseMode, hp] using hm
  | ccWrh hp u hu _ => rw [hu.frame]; simpa [PhaseMode, hp] using hm
  | bpSym _ _ _ _ u hu _ => rw [hu.frame]; exact hm
  | buInner | buLeaf => rw [advanceBit_eq]; exact hm
  | fcCnt | tbMerge | buRun => exact hm
  | _ => simp [PhaseMode]

/-- One symbol more, with one left to emit (45 R202, R203). -/
theorem emitted_succ {s : State} (h : s.emitted.toNat < s.nsym.toNat) :
    (s.emitted + 1#40).toNat = s.emitted.toNat + 1 := by
  have := s.nsym.isLt
  rw [BitVec.toNat_add]
  simp
  omega

/-- No operation of another phase than `P_BU` emits a symbol (10 R21). -/
theorem CoreNext.unemitted {s t : State} (h : CoreNext s t) (hr : t.run = .busy)
    (hs : s.phase ≠ Phase.pBu → s.emitted = 0#40) (ht : t.phase ≠ Phase.pBu) : t.emitted = 0#40 := by
  cases h with
  | fcCnt hp | fcEnd hp | tbInit hp | tbMerge hp | tbFinEmpty hp | tbFin hp | cgGen hp | ccRdh hp =>
    exact hs (by simp [hp])
  | ccWrh hp u hu _ => rw [hu.frame]; exact hs (by simp [hp])
  | bpSym hp _ _ _ u hu _ => rw [hu.frame]; exact hs (by simp [hp])
  | buRun hp => exact absurd hp ht
  | buInner hp | buLeaf hp => rw [advanceBit_eq] at ht; exact absurd hp ht
  | _ => cases hr

/-- No more symbols are emitted than the run has (45 R201). -/
theorem CoreNext.emitted {s t : State} (h : CoreNext s t)
    (hs : s.phase ≠ Phase.pBu → s.emitted = 0#40) (he : s.emitted.toNat ≤ s.nsym.toNat) :
    t.emitted.toNat ≤ t.nsym.toNat := by
  cases h with
  | fcEnd hp | ccRdh hp => dsimp only; rw [hs (by simp [hp])]; exact Nat.zero_le _
  | ccWrh _ u hu _ | ccWrhFull _ u hu _ => rw [hu.frame]; exact he
  | bpSym _ _ _ _ u hu _ | bpSymFull _ _ u hu _ => rw [hu.frame]; exact he
  | buRun _ hg => rw [emitted_succ hg]; exact hg
  | buLeaf _ hg => rw [advanceBit_eq, emitted_succ hg]; exact hg
  | buInner | buLeafFull | buMissing => rw [advanceBit_eq]; exact he
  | _ => exact he

/-- A run that goes on keeps its bounds. -/
theorem CoreNext.busyOk {s t : State} (h : CoreNext s t) (hr : t.run = .busy) (hb : BusyOk s) :
    BusyOk t where
  cursor := h.cursor hb.cursor
  fits := by rw [h.hostSideKept.inLen, h.hostSideKept.ibufCap]; exact hb.fits
  mode := h.phaseMode hb.mode
  unemitted := h.unemitted hr hb.unemitted
  emitted := h.emitted hb.unemitted hb.emitted

/-- A core turn keeps the invariant of the machine. -/
theorem coreTurn_machineInv {s t : State} (h : coreTurn s = .next t) (hs : MachineInv s) :
    MachineInv t := by
  by_cases hr : s.run = .busy
  · have hnext := coreTurn_next hr h
    have hkept := hnext.hostSideKept
    refine .of_parts ⟨(coreTurn_grown hr h).ok hs.storeOk.toOutOk, ?_, ?_, hnext.pqRising hs.pqRising⟩
      (hnext.ending.statusOk hs.statusOk hr) fun hr' => hnext.busyOk hr' (hs.busyOk hr)
    · rw [hkept.ibuf]; exact hs.ibufWf
    · rw [hkept.ibuf, hkept.ibufCap]; exact hs.ibufBelow
  · rw [coreTurn_idle s hr] at h
    cases h
    exact hs

/-! ### Commands -/

/-- The next states of a command, with the run state it acts in (40 R135 to R140). -/
inductive CommandNext (s : State) : State → Prop where
  | dropped : CommandNext s s
  | started (m : Mode) (p : Phase) (hmp : m = .encode ∧ p = Phase.pFc ∨ m = .decode ∧ p = Phase.pRdh)
      (hr : s.run = .idle) (hfit : s.inLen.toNat ≤ s.ibufCap) :
      CommandNext s { initWork s with mode := m, run := .busy, phase := p }
  | tooLong (m : Mode) (hr : s.run = .idle) (hlong : s.ibufCap < s.inLen.toNat) :
      CommandNext s (raise .inputUnavailable (s.inLen.setWidth 64) { initWork s with mode := m })
  | clear : CommandNext s { initWork s with run := .idle, phase := Phase.pNone }
  | badCommand (code : Byte) (hr : s.run = .idle) :
      CommandNext s (raise .badCommand (code.setWidth 64) s)

theorem startRun_commandNext {s : State} (hr : s.run = .idle) {m : Mode} {p : Phase}
    (hmp : m = .encode ∧ p = Phase.pFc ∨ m = .decode ∧ p = Phase.pRdh) :
    CommandNext s (startRun m p s) := by
  by_cases hfit : s.inLen.toNat ≤ s.ibufCap
  · rw [startRun_fits m p s hfit]
    exact .started m p hmp hr hfit
  · rw [startRun_tooLong m p s (Nat.lt_of_not_le hfit)]
    exact .tooLong m hr (Nat.lt_of_not_le hfit)

theorem execCmdEncode_next {s t : State} (h : execCmdEncode s = .next t) : CommandNext s t := by
  unfold execCmdEncode at h
  split at h <;> cases h
  case h_1 hr => exact startRun_commandNext hr (.inl ⟨rfl, rfl⟩)
  all_goals exact .dropped

theorem execCmdDecode_next {s t : State} (h : execCmdDecode s = .next t) : CommandNext s t := by
  unfold execCmdDecode at h
  split at h <;> cases h
  case h_1 hr => exact startRun_commandNext hr (.inr ⟨rfl, rfl⟩)
  all_goals exact .dropped

theorem execCmdClear_next {s t : State} (h : execCmdClear s = .next t) : CommandNext s t := by
  unfold execCmdClear at h
  split at h <;> cases h
  · exact .clear
  · exact .clear
  all_goals exact .dropped

theorem execCmdRsvd_next {s t : State} {code : Byte} (h : execCmdRsvd code s = .next t) :
    CommandNext s t := by
  unfold execCmdRsvd at h
  split at h <;> cases h
  case h_1 hr => exact .badCommand code hr
  all_goals exact .dropped

/-- Everything a command word can do. -/
theorem command_next {code : Byte} {s t : State} (h : exec (decodeCommand code) s = .next t) :
    CommandNext s t := by
  unfold decodeCommand at h
  repeat' split at h
  · cases h; exact .dropped
  · exact execCmdEncode_next h
  · exact execCmdDecode_next h
  · exact execCmdClear_next h
  · exact execCmdRsvd_next h

/-- `InitWork` keeps the buffers as they are and empties `PQ`; with `OUT_POS` = 0 nothing need be
written (10 R41). -/
theorem storeOk_initWork {s : State} (h : StoreOk s) : StoreOk (initWork s) where
  wf := h.wf
  below := h.below
  bound := Nat.zero_le _
  filled a ha := absurd ha (Nat.not_lt_zero a)
  ibufWf := h.ibufWf
  ibufBelow := h.ibufBelow
  pqRising := .nil

/-- What holds of the stored data holds whatever stands in the status registers. -/
theorem StoreOk.withStatus {s : State} (h : StoreOk s) (r : Run) (p : Phase) (m : Mode) (e : ErrKind)
    (info : BitVec 64) :
    StoreOk { s with run := r, phase := p, mode := m, err := e, errInfo := info } where
  wf := h.wf
  below := h.below
  bound := h.bound
  filled := h.filled
  ibufWf := h.ibufWf
  ibufBelow := h.ibufBelow
  pqRising := h.pqRising

/-- A run just started is within its bounds. -/
theorem busyOk_started {s : State} (hfit : s.inLen.toNat ≤ s.ibufCap) {m : Mode} {p : Phase}
    (hm : PhaseMode p m) : BusyOk { initWork s with mode := m, run := .busy, phase := p } where
  cursor := Nat.zero_le _
  fits := hfit
  mode := hm
  unemitted _ := rfl
  emitted := Nat.zero_le _

/-- A command keeps the invariant of the machine. -/
theorem CommandNext.machineInv {s t : State} (h : CommandNext s t) (hs : MachineInv s) :
    MachineInv t := by
  have hwork := storeOk_initWork hs.storeOk
  cases h with
  | dropped => exact hs
  | started m p hmp hr hfit =>
    obtain ⟨hp, hn, hm⟩ : p ≠ Phase.pNone ∧ p.toNat ≤ 8 ∧ PhaseMode p m := by
      rcases hmp with ⟨rfl, rfl⟩ | ⟨rfl, rfl⟩ <;> simp [PhaseMode]
    exact .of_parts (hwork.withStatus _ _ _ _ _) (statusOk_busy hp hn rfl rfl rfl)
      fun _ => busyOk_started hfit hm
  | tooLong m hr hlong =>
    exact .of_parts (hwork.withStatus _ _ _ _ _) (statusOk_raise (by simp) _ _) nofun
  | clear =>
    exact .of_parts (hwork.withStatus _ _ _ _ _) (statusOk_quiet rfl (.inl rfl) rfl rfl) nofun
  | badCommand code hr =>
    exact .of_parts (hs.storeOk.withStatus _ _ _ _ _) (statusOk_raise (by simp) _ _) nofun

/-! ### Host moves -/

/-- Reset with any capacities meets the invariant of the machine (10 R40). -/
theorem resetWith_machineInv (ibufCap obufCap : Nat) : MachineInv (State.resetWith ibufCap obufCap) := by
  constructor <;> simp [State.resetWith, Memory.wf]

/-- The invariant of the machine does not look at the model's own fields. -/
theorem MachineInv.withHost {s : State} (h : MachineInv s) (q : List Turn) (d : BitVec 32) (n r : Nat) :
    MachineInv { s with schedule := q, hostData := d, freeReads := n, resets := r } := { h with }

/-- The host may write `IN_LEN` and `IBUF` below its capacity outside a run. -/
theorem MachineInv.withInput {s : State} (h : MachineInv s) (len : BitVec 32) (m : Memory)
    (hbusy : s.run = .busy → len = s.inLen ∧ m = s.ibuf)
    (hm : m = s.ibuf ∨ ∃ a b, a < s.ibufCap ∧ m = s.ibuf.write a b) :
    MachineInv { s with inLen := len, ibuf := m } := by
  obtain ⟨hwf, hbelow⟩ : m.wf ∧ ∀ c ∈ m, c.1 < s.ibufCap := by
    rcases hm with rfl | ⟨a, b, ha, rfl⟩
    · exact ⟨h.ibufWf, h.ibufBelow⟩
    · refine ⟨Memory.wf_write h.ibufWf a b, fun c hc => ?_⟩
      rcases Memory.mem_write hc with rfl | hc
      · exact ha
      · exact h.ibufBelow c hc
  refine .of_parts { h.storeOk with ibufWf := hwf, ibufBelow := hbelow } { h.statusOk with } fun hr => ?_
  obtain ⟨rfl, rfl⟩ := hbusy hr
  exact h.busyOk hr

/-- A host move keeps the invariant of the machine. -/
theorem hostMove_machineInv {m : HostMove} {s t : State} (h : hostMove m s = .next t)
    (hs : MachineInv s) : MachineInv t := by
  rcases hostMove_cases m s t h with ⟨w, rfl, hcmd⟩ | ⟨rfl, rfl⟩ | ⟨hframe, hbusy, hibuf⟩
  · exact (command_next hcmd).machineInv hs
  · exact (resetWith_machineInv _ _).withHost _ _ _ _
  · rw [hframe]
    exact (hs.withInput t.inLen t.ibuf hbusy hibuf).withHost _ _ _ _

/-! ### The step -/

/-- A turn, of the core or of the host, keeps the invariant of the machine. -/
theorem takeTurn_machineInv {turn : Turn} {s t : State} (h : takeTurn turn s = .next t)
    (hs : MachineInv s) : MachineInv t := by
  cases turn with
  | core => exact coreTurn_machineInv h hs
  | host m => exact hostMove_machineInv h hs

/-- Settles O56: reset is `resetWith` of the capacities of the test vectors. -/
theorem resetMeetsTheMachineInvariant : Obligations.ResetMeetsTheMachineInvariant :=
  resetWith_machineInv _ _

/-- Settles O57: taking the turn off the schedule changes nothing the invariant looks at, and the turn
keeps it. -/
theorem stepKeepsTheMachineInvariant : Obligations.StepKeepsTheMachineInvariant :=
  fun _ _ hs h => takeTurn_machineInv h (hs.withHost _ _ _ _)

end Sys2Proof.Machine
end

section
/-! PROOF. The code table a tree gives (43_code_table_generator.md rule R181 (d), R182 (a)), and what the
Bit Packer and the Container Codec leave where they complete: the facts the invariant of a run takes
from one phase to the next. -/

namespace Sys2Proof.Machine

/-- The codes of a tree with an internal root: the paths to its leaves, none of them empty. -/
theorem codeTable_internal_complete {s : State} {u : Table (Option Code) Config.freqEntries}
    (ht : Tree s) (hfresh : CodeFresh s) (hk : s.rootKind = .internal) (hu : codeTable s = .ok u)
    (b : Byte) :
    (byteEntry s.freq b = 0#32 → byteEntry u b = none) ∧
      (byteEntry s.freq b ≠ 0#32 →
        ∃ p, byteEntry u b = some p ∧ 1 ≤ p.length ∧ p.length ≤ Config.maxCodeLen) := by
  obtain ⟨r, hroot, hrl, hrm, hroots⟩ := ht.internal hk
  rw [codeTable_internal s hk, rootId_some hroot] at hu
  obtain ⟨hentry, hleaf⟩ := visit_spec hu
  have hentry := hentry b
  rw [hfresh b] at hentry
  constructor
  · intro h0
    rcases hentry with hnone | ⟨q, -, hq, -⟩
    · exact hnone
    · exact absurd h0 (ht.toNodeTable.follow_made hrm hq).leaf
  · intro hne
    obtain ⟨q, hq⟩ := reached ht.toNodeTable hroots (leafId b) (.inl ⟨by simp, by simpa using hne⟩)
    obtain ⟨q', hsome⟩ := hleaf b q hq
    rcases hentry with hnone | ⟨p, hp, hpath, hlen⟩
    · rw [hnone] at hsome
      cases hsome
    · refine ⟨p, hp, Nat.pos_of_ne_zero fun h0 => ?_, hlen⟩
      rw [List.length_eq_zero_iff.mp h0, follow_nil, Option.some_inj] at hpath
      rw [hpath, isLeaf_leafId] at hrl
      cases hrl

/-- On a tree the code table holds a code of 1 to 255 bits exactly for the byte values that occur. -/
theorem codeTable_complete {s : State} {u : Table (Option Code) Config.freqEntries} (ht : Tree s)
    (hfresh : CodeFresh s) (hu : codeTable s = .ok u) (b : Byte) :
    (byteEntry s.freq b = 0#32 → byteEntry u b = none) ∧
      (byteEntry s.freq b ≠ 0#32 →
        ∃ p, byteEntry u b = some p ∧ 1 ≤ p.length ∧ p.length ≤ Config.maxCodeLen) := by
  match hk : s.rootKind with
  | .none => exact absurd hk ht.kind
  | .empty =>
    rw [codeTable_empty s (.inl hk)] at hu
    cases hu
    exact ⟨fun _ => hfresh b, fun hne => absurd (ht.empty hk b) hne⟩
  | .leaf =>
    obtain ⟨r, hroot, -, honly⟩ := ht.leaf hk
    rw [codeTable_leaf s hk, rootId_some hroot] at hu
    cases hu
    rw [byteEntry_set, honly b, hfresh b]
    refine ⟨fun h0 => if_neg fun e => ?_, fun e => ⟨_, if_pos e.symm, by decide, by decide⟩⟩
    exact (honly b).mpr e.symm h0
  | .internal => exact codeTable_internal_complete ht hfresh hk hu b

/-- The children of a node of the tree are nodes of the tree. -/
theorem NodeTable.child_made {s : State} (h : NodeTable s) {c d : NodeId} {bit : Bool}
    (hc : Made s s.nint.toNat c) (hd : s.child bit c = some d) : Made s s.nint.toNat d :=
  h.follow_made hc (p := [bit]) (follow_cons [] (by rw [← State.child_eq]; exact hd))

/-- `OutByte` of a list that went through found room for all of it. -/
theorem outBytes_cont {vs : List Byte} {s t : State} (h : outBytes vs s = .cont t)
    (h0 : s.outPos.toNat ≤ s.obufCap) (hc : s.outPos.toNat + vs.length < 2 ^ 64) :
    t.outPos = s.outPos + BitVec.ofNat 64 vs.length := by
  by_cases hroom : s.outPos.toNat + vs.length ≤ s.obufCap
  · rw [outBytes_room vs s hroom hc] at h
    cases h
    rfl
  · rw [outBytes_full vs s h0 (by omega) (by omega)] at h
    cases h

/-- The loop of `BP.SYM`, if it went through, found room for every byte it wrote. -/
theorem packBits_packed {p : Code} {s t : State} (h : packBits p s = .cont t)
    (h0 : s.outPos.toNat ≤ s.obufCap)
    (hc : s.outPos.toNat + (s.nacc.toNat + p.length) / 8 < 2 ^ 64) : Packed p s t := by
  by_cases hroom : s.outPos.toNat + (s.nacc.toNat + p.length) / 8 ≤ s.obufCap
  · obtain ⟨t', ht, hpacked⟩ := packBits_room p s hroom hc
    rw [ht] at h
    cases h
    exact hpacked
  · obtain ⟨t', ht, -⟩ := packBits_full p s h0 (by omega) (by omega)
    rw [ht] at h
    cases h

end Sys2Proof.Machine
end

section
/-! PROOF. The invariant of a run (O58, O59): what holds in each phase holds after the operation that
leads to it (10_state.md rules R37, R38 and R43). -/

namespace Sys2Proof.Machine

/-! ### The invariant of one phase

In each phase only its own clause speaks. -/

section
variable {s : State}

theorem phaseInv_fc (hp : s.phase = Phase.pFc) (h : OutputFresh s ∧ CodeFresh s ∧
    freqSum s = s.inPos.toNat ∧
    ∀ v : Byte, (byteEntry s.freq v).toNat = inputCount s s.inPos.toNat v) : PhaseInv s := by
  constructor
  case fc => exact fun _ => h
  all_goals simp [hp]

theorem phaseInv_rdh (hp : s.phase = Phase.pRdh) (h : OutputFresh s ∧ CodeFresh s) : PhaseInv s := by
  constructor
  case rdh => exact fun _ => h
  all_goals simp [hp]

theorem phaseInv_tbi (hp : s.phase = Phase.pTbi) (h : OutputFresh s ∧ CodeFresh s ∧
    InputCounted s ∧ s.nsym.toNat = freqSum s ∧ (s.mode = .encode → s.inPos = 0#32)) :
    PhaseInv s := by
  constructor
  case tbi => exact fun _ => h
  all_goals simp [hp]

theorem phaseInv_tbm (hp : s.phase = Phase.pTbm) (h : OutputFresh s ∧ CodeFresh s ∧
    InputCounted s ∧ s.nsym.toNat = freqSum s ∧ (s.mode = .encode → s.inPos = 0#32) ∧ Forest s) :
    PhaseInv s := by
  constructor
  case tbm => exact fun _ => h
  all_goals simp [hp]

theorem phaseInv_cg (hp : s.phase = Phase.pCg) (h : OutputFresh s ∧ CodeFresh s ∧ InputCounted s ∧
    s.nsym.toNat = freqSum s ∧ s.inPos = 0#32 ∧ Tree s) : PhaseInv s := by
  constructor
  case cg => exact fun _ => h
  all_goals simp [hp]

theorem phaseInv_wrh (hp : s.phase = Phase.pWrh) (h : OutputFresh s ∧ CodeComplete s ∧
    InputCounted s ∧ s.nsym.toNat = freqSum s ∧ s.inPos = 0#32 ∧ Tree s) : PhaseInv s := by
  constructor
  case wrh => exact fun _ => h
  all_goals simp [hp]

theorem phaseInv_bp (hp : s.phase = Phase.pBp) (h : CodeComplete s ∧ InputCounted s ∧
    s.nsym.toNat = freqSum s ∧ Tree s ∧ AccClear s ∧ s.totalBits.toNat ≤ 255 * s.inPos.toNat ∧
    s.totalBits.toNat % 8 = s.nacc.toNat ∧
    s.outPos.toNat = Config.streamOff + s.totalBits.toNat / 8) : PhaseInv s := by
  constructor
  case bp => exact fun _ => h
  all_goals simp [hp]

theorem phaseInv_bu (hp : s.phase = Phase.pBu) (h : CodeFresh s ∧ s.nsym.toNat = freqSum s ∧
    Tree s ∧ s.outPos.toNat = s.emitted.toNat ∧
    (s.rootKind = .internal → ∃ c, s.cur = some c ∧ isLeaf c = false ∧ Made s s.nint.toNat c)) :
    PhaseInv s := by
  constructor
  case bu => exact fun _ => h
  all_goals simp [hp]

/-- The tree just built: the run goes on with the phase its mode has (42 R164). -/
theorem phaseInv_afterTree (hp : s.phase = phaseAfterTree s.mode) (hout : OutputFresh s)
    (hcode : CodeFresh s) (hcounted : InputCounted s) (hsum : s.nsym.toNat = freqSum s)
    (hpos : s.mode = .encode → s.inPos = 0#32) (ht : Tree s) (hem : s.emitted = 0#40)
    (hcur : s.rootKind = .internal →
      ∃ c, s.cur = some c ∧ isLeaf c = false ∧ Made s s.nint.toNat c) : PhaseInv s := by
  cases hm : s.mode with
  | encode =>
    exact phaseInv_cg (by rw [hp, hm]; rfl) ⟨hout, hcode, hcounted, hsum, hpos hm, ht⟩
  | decode =>
    obtain ⟨hzero, -⟩ := hout
    exact phaseInv_bu (by rw [hp, hm]; rfl) ⟨hcode, hsum, ht, by rw [hzero, hem]; rfl, hcur⟩

end

/-! ### The model's own fields -/

/-- The forest depends on few fields. -/
theorem Forest.congr {s t : State} (h : Forest s) (h1 : t.nint = s.nint) (h2 : t.freq = s.freq)
    (h3 : t.nodeW = s.nodeW) (h4 : t.nodeL = s.nodeL) (h5 : t.nodeR = s.nodeR) (h6 : t.pq = s.pq) :
    Forest t := by
  have hweight : ∀ id, t.weight id = s.weight id := fun id => by simp [State.weight, h3]
  have hleft : ∀ id, t.leftChild id = s.leftChild id := fun id => by simp [State.leftChild, h4]
  have hright : ∀ id, t.rightChild id = s.rightChild id := fun id => by simp [State.rightChild, h5]
  have hmade : ∀ j id, Made t j id ↔ Made s j id := fun j id => by simp [Made, h2]
  refine ⟨h.toNodeTable.congr h1 h2 h3 h4 h5, ?_, ?_, ?_, ?_⟩
  · simpa only [h1, h6, hmade] using h.members
  · simpa only [h1, h6, symbolCount, h2] using h.count
  · simpa only [queueWeight, freqSum, hweight, h2, h6] using h.total
  · simpa only [h1, h6, hmade, IsChild, hleft, hright] using h.roots

/-- What holds in a phase does not depend on the turns to come nor on what the host has read. -/
theorem PhaseInv.withHost {s : State} (h : PhaseInv s) (q : List Turn) (d : BitVec 32) (n : Nat) :
    PhaseInv { s with schedule := q, hostData := d, freeReads := n } := by
  have htree : Tree s → Tree { s with schedule := q, hostData := d, freeReads := n } :=
    fun ht => ht.congr rfl rfl rfl rfl rfl rfl rfl
  refine ⟨h.fc, h.rdh, h.tbi, fun hp => ?_, fun hp => ?_, fun hp => ?_, fun hp => ?_, fun hp => ?_⟩
  · obtain ⟨hout, hcode, hcounted, hsum, hpos, hforest⟩ := h.tbm hp
    exact ⟨hout, hcode, hcounted, hsum, hpos, hforest.congr rfl rfl rfl rfl rfl rfl⟩
  · obtain ⟨hout, hcode, hcounted, hsum, hpos, ht⟩ := h.cg hp
    exact ⟨hout, hcode, hcounted, hsum, hpos, htree ht⟩
  · obtain ⟨hout, hcode, hcounted, hsum, hpos, ht⟩ := h.wrh hp
    exact ⟨hout, hcode, hcounted, hsum, hpos, htree ht⟩
  · obtain ⟨hcode, hcounted, hsum, ht, hpacker⟩ := h.bp hp
    exact ⟨hcode, hcounted, hsum, htree ht, hpacker⟩
  · obtain ⟨hcode, hsum, ht, hwalker⟩ := h.bu hp
    exact ⟨hcode, hsum, htree ht, hwalker⟩

theorem RunInv.withHost {s : State} (h : RunInv s) (q : List Turn) (d : BitVec 32) (n : Nat) :
    RunInv { s with schedule := q, hostData := d, freeReads := n } :=
  ⟨h.toMachineInv.withHost q d n s.resets, fun hr => (h.busyPhase hr).withHost q d n⟩

/-! ### The operations, by the phase they lead to -/

/-- `FC.CNT` counts one byte more (41 R150, R151). -/
theorem fcCnt_phaseInv {s : State} (h : PhaseInv s) (hp : s.phase = Phase.pFc)
    (hg : s.inPos.toNat < s.inLen.toNat)
    (hn : byteEntry s.freq (s.inputByte s.inPos.toNat) ≠ 0xFFFFFFFF#32) :
    PhaseInv { s with
      freq := s.freq.set (s.inputByte s.inPos.toNat).toNat
        (byteEntry s.freq (s.inputByte s.inPos.toNat) + 1#32)
      inPos := s.inPos + 1#32 } := by
  obtain ⟨hout, hcode, hsum, hcount⟩ := h.fc hp
  have hpos := inPos_succ hg
  refine phaseInv_fc hp ⟨hout, hcode, ?_, fun v => ?_⟩
  · exact (freqSum_count s.freq _ hn).trans (by rw [hpos, ← hsum]; rfl)
  · show (byteEntry (s.freq.set _ _) v).toNat = inputCount s (s.inPos + 1#32).toNat v
    rw [hpos, inputCount_succ, ← hcount v, byteEntry_set]
    split
    · rename_i hv
      rw [hv] at hn ⊢
      have hlt := (byteEntry s.freq v).isLt
      have hne : (byteEntry s.freq v).toNat ≠ 0xFFFFFFFF := fun e => hn (BitVec.eq_of_toNat_eq e)
      rw [BitVec.toNat_add]
      simp
      omega
    · rfl

/-- `FC.END`: the counts are those of the whole input (41 R152). -/
theorem fcEnd_phaseInv {s : State} (h : PhaseInv s) (hp : s.phase = Phase.pFc)
    (hg : s.inPos = s.inLen) :
    PhaseInv { s with nsym := s.inLen.setWidth 40, inPos := 0#32, phase := Phase.pTbi } := by
  obtain ⟨hout, hcode, hsum, hcount⟩ := h.fc hp
  rw [hg] at hsum hcount
  refine phaseInv_tbi rfl ⟨hout, hcode, fun _ => hcount, ?_, fun _ => rfl⟩
  have := s.inLen.isLt
  have e : (s.inLen.setWidth 40).toNat = s.inLen.toNat := by
    rw [BitVec.toNat_setWidth]
    omega
  exact e.trans hsum.symm

/-- `N` taken from the counts is their sum, which cannot wrap (30 R99). -/
theorem nsym_freqSum {s : State} (h : s.nsym = sumCounts s.freq) : s.nsym.toNat = freqSum s := by
  rw [h, sumCounts_toNat, freqSum]

/-- `CC.RDH`: `N` is the sum of the counts (46 R217). -/
theorem ccRdh_phaseInv {s : State} (h : PhaseInv s) (hp : s.phase = Phase.pRdh)
    (hm : s.mode = .decode) :
    PhaseInv { s with
      freq := headerCounts s, nsym := sumCounts (headerCounts s)
      inPos := 1024#32, bitPos := 0#3, phase := Phase.pTbi } := by
  obtain ⟨hout, hcode⟩ := h.rdh hp
  have hne : s.mode ≠ .encode := by simp [hm]
  exact phaseInv_tbi rfl ⟨hout, hcode, fun he => absurd he hne, nsym_freqSum (by dsimp only),
    fun he => absurd he hne⟩

/-- `TB.FIN` on the last member of `PQ` (42 R164). -/
theorem tbFin_phaseInv {s : State} (h : PhaseInv s) (hp : s.phase = Phase.pTbm)
    (hem : s.emitted = 0#40) {r : NodeId} (hq : s.pq = [r]) :
    PhaseInv { s with
      root := some r, cur := some r, rootKind := if isLeaf r then .leaf else .internal
      pq := [], phase := phaseAfterTree s.mode } := by
  obtain ⟨hout, hcode, hcounted, hsum, hpos, hforest⟩ := h.tbm hp
  have ht := tbFin_tree hforest hq (phaseAfterTree s.mode)
  refine phaseInv_afterTree rfl hout hcode hcounted hsum hpos ht hem fun hk => ?_
  obtain ⟨c, hroot, hcl, hcm, -⟩ := ht.internal hk
  exact ⟨c, hroot, hcl, hcm⟩

/-- `CC.WRH`: the header stands at addresses 0 to 1023, and no bit is packed (46 R216). -/
theorem ccWrh_phaseInv {s t : State} (h : PhaseInv s) (hp : s.phase = Phase.pWrh)
    (ha : Appended s t) (he : outBytes (headerBytes s.config.hdrByteOrder s.freq) s = .cont t) :
    PhaseInv { t with phase := Phase.pBp } := by
  obtain ⟨⟨hzero, hacc, hnacc, htotal⟩, hcode, hcounted, hsum, -, ht⟩ := h.wrh hp
  have hout : t.outPos = s.outPos + 1024#64 := by
    simpa using outBytes_cont he (by simp [hzero]) (by simp [hzero])
  rw [hzero] at hout
  rw [ha.frame, hout]
  refine phaseInv_bp rfl ⟨hcode, hcounted, hsum, ht.congr rfl rfl rfl rfl rfl rfl rfl, ?_, ?_, ?_, ?_⟩
  · intro i _
    simp [hacc]
  · simp [htotal]
  · simp [htotal, hnacc]
  · simp [htotal, Config.streamOff]

/-- `BP.SYM`: a code of at most 255 bits more is packed (44 R191, 10 R37, R38). -/
theorem bpSym_phaseInv {s t : State} (h : PhaseInv s) (hp : s.phase = Phase.pBp)
    (hb : s.outPos.toNat ≤ s.obufCap) (hg : s.inPos.toNat < s.inLen.toNat) {bits : Code}
    (hc : byteEntry s.code (s.inputByte s.inPos.toNat) = some bits)
    (he : packBits bits s = .cont t) : PhaseInv { t with inPos := s.inPos + 1#32 } := by
  obtain ⟨hcode, hcounted, hsum, ht, hclear, hbits, hmod, hout⟩ := h.bp hp
  have hlen : bits.length ≤ 255 := by
    obtain ⟨hnone, hsome⟩ := hcode (s.inputByte s.inPos.toNat)
    obtain ⟨p, hcp, -, hlen⟩ := hsome fun h0 => by rw [hnone h0] at hc; cases hc
    rw [hcp, Option.some_inj] at hc
    exact hc ▸ hlen
  have hpos := inPos_succ hg
  have hinLen := s.inLen.isLt
  rw [Config.streamOff] at hout
  have hpacked := packBits_packed he hb (by omega)
  have htotal : t.totalBits.toNat = s.totalBits.toNat + bits.length := by
    rw [hpacked.total, BitVec.toNat_add, BitVec.toNat_ofNat]
    omega
  have hnacc := hpacked.nacc
  have hout' := hpacked.outPos
  have hclear' := hpacked.clear hclear
  rw [hpacked.frame]
  refine phaseInv_bp hp ⟨hcode, hcounted, hsum, ht.congr rfl rfl rfl rfl rfl rfl rfl, hclear', ?_, ?_, ?_⟩
  · show t.totalBits.toNat ≤ 255 * (s.inPos + 1#32).toNat
    omega
  · show t.totalBits.toNat % 8 = t.nacc.toNat
    omega
  · show t.outPos.toNat = 1024 + t.totalBits.toNat / 8
    omega

/-- In `P_BU` one byte is written for each symbol emitted (45 R202, R203). -/
theorem outPos_emitted_succ {s : State} (ho : s.outPos.toNat = s.emitted.toNat)
    (hg : s.emitted.toNat < s.nsym.toNat) :
    (s.outPos + 1#64).toNat = (s.emitted + 1#40).toNat := by
  have := s.nsym.isLt
  rw [emitted_succ hg, outPos_succ s (by omega), ho]

/-- `BU.RUN` (45 R202). -/
theorem buRun_phaseInv {s : State} (h : PhaseInv s) (hp : s.phase = Phase.pBu)
    (hg : s.emitted.toNat < s.nsym.toNat) (m : Memory) :
    PhaseInv { s with obuf := m, outPos := s.outPos + 1#64, emitted := s.emitted + 1#40 } := by
  obtain ⟨hcode, hsum, ht, ho, hcur⟩ := h.bu hp
  exact phaseInv_bu hp ⟨hcode, hsum, ht.congr rfl rfl rfl rfl rfl rfl rfl, outPos_emitted_succ ho hg, hcur⟩

/-- `BU.BIT` at an internal node: the walker goes to a node of the tree (45 R203). -/
theorem buInner_phaseInv {s : State} (h : PhaseInv s) (hp : s.phase = Phase.pBu)
    (hk : s.rootKind = .internal) {bit : Bool} {d : NodeId} (hd : s.child bit s.curId = some d)
    (hl : isLeaf d = false) : PhaseInv { advanceBit s with cur := some d } := by
  obtain ⟨hcode, hsum, ht, ho, hcur⟩ := h.bu hp
  obtain ⟨c, hc, -, hcm⟩ := hcur hk
  rw [curId_some hc] at hd
  rw [advanceBit_eq]
  exact phaseInv_bu hp ⟨hcode, hsum, ht.congr rfl rfl rfl rfl rfl rfl rfl, ho,
    fun _ => ⟨d, rfl, hl, ht.toNodeTable.child_made hcm hd⟩⟩

/-- `BU.BIT` at a leaf: the walker goes back to the root (45 R203). -/
theorem buLeaf_phaseInv {s : State} (h : PhaseInv s) (hp : s.phase = Phase.pBu)
    (hg : s.emitted.toNat < s.nsym.toNat) (hk : s.rootKind = .internal) (m : Memory) :
    PhaseInv { advanceBit s with
      cur := some s.rootId, emitted := s.emitted + 1#40, obuf := m, outPos := s.outPos + 1#64 } := by
  obtain ⟨hcode, hsum, ht, ho, -⟩ := h.bu hp
  obtain ⟨r, hroot, hrl, hrm, -⟩ := ht.internal hk
  rw [advanceBit_eq, rootId_some hroot]
  exact phaseInv_bu hp ⟨hcode, hsum, ht.congr rfl rfl rfl rfl rfl rfl rfl, outPos_emitted_succ ho hg,
    fun _ => ⟨r, rfl, hrl, hrm⟩⟩

/-! ### Core turns -/

/-- A run that goes on is in a phase whose clause holds. -/
theorem CoreNext.phaseInv {s t : State} (hnext : CoreNext s t) (hr : t.run = .busy)
    (hs : MachineInv s) (hb : BusyOk s) (h : PhaseInv s) : PhaseInv t := by
  cases hnext with
  | fcCnt hp hg hn => exact fcCnt_phaseInv h hp hg hn
  | fcEnd hp hg => exact fcEnd_phaseInv h hp hg
  | tbInit hp =>
    obtain ⟨hout, hcode, hcounted, hsum, hpos⟩ := h.tbi hp
    exact phaseInv_tbm rfl ⟨hout, hcode, hcounted, hsum, hpos, tbInit_forest s Phase.pTbm⟩
  | tbMerge hp hg hn a b wa wb ha hb hwa hwb =>
    obtain ⟨hout, hcode, hcounted, hsum, hpos, hforest⟩ := h.tbm hp
    exact phaseInv_tbm hp ⟨hout, hcode, hcounted, hsum, hpos,
      tbMerge_forest hforest hs.pqRising hn ha hb hwa hwb⟩
  | tbFinEmpty hp hq =>
    obtain ⟨hout, hcode, hcounted, hsum, hpos, hforest⟩ := h.tbm hp
    exact phaseInv_afterTree rfl hout hcode hcounted hsum hpos (tbFin_empty_tree hforest hq _)
      (hb.unemitted (by simp [hp])) nofun
  | tbFin hp r hq => exact tbFin_phaseInv h hp (hb.unemitted (by simp [hp])) hq
  | cgGen hp u hu =>
    obtain ⟨hout, hcode, hcounted, hsum, hpos, ht⟩ := h.cg hp
    have hcomplete := codeTable_complete ht hcode hu
    exact phaseInv_wrh rfl ⟨hout, hcomplete, hcounted, hsum, hpos,
      ht.congr rfl rfl rfl rfl rfl rfl rfl⟩
  | ccWrh hp u hu he => exact ccWrh_phaseInv h hp hu he
  | ccRdh hp hg =>
    obtain ⟨-, hdecode⟩ := hb.mode
    exact ccRdh_phaseInv h hp (hdecode (.inl hp))
  | bpSym hp hg bits hc u hu he => exact bpSym_phaseInv h hp hs.outPosBound hg hc he
  | buRun hp hg hk hroom => exact buRun_phaseInv h hp hg _
  | buInner hp hg hk hi bit d hd hl => exact buInner_phaseInv h hp hk hd hl
  | buLeaf hp hg hk hi bit d hd hl hroom => exact buLeaf_phaseInv h hp hg hk _
  | _ => cases hr

/-- A core turn keeps the invariant of a run. -/
theorem coreTurn_runInv {s t : State} (h : coreTurn s = .next t) (hs : RunInv s) : RunInv t := by
  refine ⟨coreTurn_machineInv h hs.toMachineInv, fun hr => ?_⟩
  by_cases hbusy : s.run = .busy
  · exact (coreTurn_next hbusy h).phaseInv hr hs.toMachineInv (hs.toMachineInv.busyOk hbusy)
      (hs.busyPhase hbusy)
  · rw [coreTurn_idle s hbusy] at h
    cases h
    exact absurd hr hbusy

/-! ### Host moves -/

/-- A run just started: nothing is counted, packed or written (10 R41). -/
theorem started_phaseInv {s : State} {m : Mode} {p : Phase}
    (hmp : m = .encode ∧ p = Phase.pFc ∨ m = .decode ∧ p = Phase.pRdh) :
    PhaseInv { initWork s with mode := m, run := .busy, phase := p } := by
  have hout : OutputFresh { initWork s with mode := m, run := .busy, phase := p } :=
    ⟨rfl, rfl, rfl, rfl⟩
  have hcode : CodeFresh { initWork s with mode := m, run := .busy, phase := p } :=
    fun b => byteEntry_fill none b
  rcases hmp with ⟨-, rfl⟩ | ⟨-, rfl⟩
  · refine phaseInv_fc rfl ⟨hout, hcode, ?_, fun v => ?_⟩
    · simp [freqSum, Table.fill]
    · simp [inputCount]
  · exact phaseInv_rdh rfl ⟨hout, hcode⟩

/-- A command keeps the invariant of a run. -/
theorem CommandNext.runInv {s t : State} (h : CommandNext s t) (hs : RunInv s) : RunInv t := by
  refine ⟨h.machineInv hs.toMachineInv, fun hr => ?_⟩
  cases h with
  | dropped => exact hs.busyPhase hr
  | started m p hmp => exact started_phaseInv hmp
  | tooLong | clear | badCommand => cases hr

/-- Reset with any capacities meets the invariant of a run: there is none. -/
theorem resetWith_runInv (ibufCap obufCap : Nat) : RunInv (State.resetWith ibufCap obufCap) :=
  ⟨resetWith_machineInv ibufCap obufCap, nofun⟩

/-- A host move keeps the invariant of a run: while one goes on, the host writes nothing of it. -/
theorem hostMove_runInv {m : HostMove} {s t : State} (h : hostMove m s = .next t) (hs : RunInv s) :
    RunInv t := by
  refine ⟨hostMove_machineInv h hs.toMachineInv, fun hr => ?_⟩
  rcases hostMove_cases m s t h with ⟨w, rfl, hcmd⟩ | ⟨rfl, rfl⟩ | ⟨hframe, hbusy, -⟩
  · exact ((command_next hcmd).runInv hs).busyPhase hr
  · cases hr
  · have hrun : s.run = .busy := by rw [hframe] at hr; exact hr
    obtain ⟨hlen, hibuf⟩ := hbusy hrun
    rw [hlen, hibuf] at hframe
    rw [hframe]
    exact (hs.busyPhase hrun).withHost s.schedule t.hostData t.freeReads

/-! ### The step -/

/-- Settles O58: reset is `resetWith` of the capacities of the test vectors. -/
theorem resetMeetsTheRunInvariant : Obligations.ResetMeetsTheRunInvariant := resetWith_runInv _ _

/-- Settles O59: the turn is taken off the schedule, then made. -/
theorem stepKeepsTheRunInvariant : Obligations.StepKeepsTheRunInvariant := by
  intro s t hs h
  have hpop : RunInv s.popTurn := hs.withHost s.schedule.tail s.hostData s.freeReads
  unfold step at h
  cases hturn : s.turn with
  | core => rw [hturn] at h; exact coreTurn_runInv h hpop
  | host m => rw [hturn] at h; exact hostMove_runInv h hpop

end Sys2Proof.Machine
end

section
/-! PROOF. A run starts fresh (O14): the first state of a run is made of what `InitWork` keeps
(10_state.md rule R41), so it is the same for any two states that agree there. -/

namespace Sys2Proof.Machine

/-- What `InitWork` makes depends on what it keeps only; the three registers a run start writes after it
are given their values here (10 R41, 40 R136, R137). -/
theorem initWork_congr {s u : State} (h : BuffersKept s u) (m : Mode) (r : Run) (p : Phase) :
    { initWork s with mode := m, run := r, phase := p } =
      { initWork u with mode := m, run := r, phase := p } := by
  obtain ⟨hlen, hibuf, hobuf, hicap, hocap, hsched, hdata, hfree, hresets⟩ := h
  simp only [initWork, hlen, hibuf, hobuf, hicap, hocap, hsched, hdata, hfree, hresets]

/-- So does what a run start leaves, of an input that fits or of one that does not (60 R232). -/
theorem startRun_congr {s u : State} (h : BuffersKept s u) (m : Mode) (p : Phase) :
    startRun m p s = startRun m p u := by
  have ⟨hlen, _, _, hcap, _⟩ := h
  by_cases hfit : s.inLen.toNat ≤ s.ibufCap
  · rw [startRun_fits m p s hfit, startRun_fits m p u (by rw [hlen, hcap]; exact hfit)]
    exact initWork_congr h m .busy p
  · have hlong := Nat.lt_of_not_le hfit
    rw [startRun_tooLong m p s hlong, startRun_tooLong m p u (by rw [hlen, hcap]; exact hlong), hlen]
    have hraised := congrArg (raise .inputUnavailable (s.inLen.setWidth 64))
      (initWork_congr h m .error Phase.pNone)
    exact hraised

/-- Settles O14. -/
theorem runsStartFresh : Obligations.RunsStartFresh := by
  intro s u hs hu h
  simp only [exec, execCmdEncode, execCmdDecode, hs, hu, startRun_congr h, and_self]

end Sys2Proof.Machine
end

section
/-! PROOF. Where the entries of the node tables, `ROOT` and `CUR` are read (O36, O37; 10_state.md rule
R42): an unwritten entry stops the operation that reads it, and no run reads `ROOT` or `CUR` before it
has written them. -/

namespace Sys2Proof.Machine

/-! ### Unwritten weights -/

/-- extract-min over two or more members reads a weight of each it compares (42 R161). -/
theorem extractMin_unwritten {s : State} (h2 : 2 ≤ s.pq.length) (h : ∃ id ∈ s.pq, s.weight id = none) :
    ∃ id ∈ s.pq, s.weight id = none ∧ extractMin s = .error (.unwrittenWeight id) := by
  match hq : s.pq with
  | [] => simp [hq] at h2
  | best :: rest =>
    rw [hq] at h h2
    have hrest : rest ≠ [] := by rintro rfl; simp at h2
    obtain ⟨id, hid, hnone, hleast⟩ := leastMember_unwritten s best rest hrest h
    exact ⟨id, hid, hnone, by simp [extractMin, hq, hleast]⟩

theorem execTbMerge_fault {s : State} {f : Fault} (h : extractMin s = .error f) :
    execTbMerge s = .fault f := by
  simp only [execTbMerge, h]

/-- `TB.FIN` extracts from a queue with members only (42 R164). -/
theorem execTbFin_fault {s : State} {f : Fault} (hq : s.pq ≠ []) (h : extractMin s = .error f) :
    execTbFin s = .fault f := by
  match hpq : s.pq with
  | [] => exact absurd hpq hq
  | _ :: _ => simp only [execTbFin, hpq, h]

/-! ### Unwritten children -/

theorem execCgGen_fault {s : State} {f : Fault} (h : codeTable s = .error f) :
    execCgGen s = .fault f := by
  simp only [execCgGen, h]

section
variable {s : State} (hk : s.rootKind = .internal) (hr : isLeaf s.rootId = false)
include hk

/-- Wherever some node on a path from the root lacks a child, the traversal does not go through: it
stops at such a node, or on a path of 255 edges. -/
theorem execCgGen_unwritten {n : NodeId} {p : Code} (hp : follow s s.rootId p = some n)
    (hn : isLeaf n = false) (hnone : s.leftChild n = none ∨ s.rightChild n = none) :
    (∃ m, isLeaf m = false ∧ (s.leftChild m = none ∨ s.rightChild m = none) ∧
      execCgGen s = .fault (.unwrittenChild m)) ∨
    (∃ m q, follow s s.rootId q = some m ∧ isLeaf m = false ∧ q.length = 255 ∧
      execCgGen s = .fault .traversalDoesNotEnd) := by
  have htable := codeTable_internal s hk
  cases hv : visit s Config.maxInternal s.rootId [] s.code with
  | ok u =>
    obtain ⟨hleft, hright⟩ := visit_ok_children hv hp hn
    exact absurd hnone (not_or.mpr ⟨hleft, hright⟩)
  | error f =>
    have hfault := execCgGen_fault (htable.trans hv)
    rcases visit_error hv with ⟨m, hm, hchild, rfl⟩ | ⟨m, q, hq, hm, hlen, rfl⟩
    · exact .inl ⟨m, hm, hchild, hfault⟩
    · exact .inr ⟨m, q, hq, hm, hlen, hfault⟩

include hr

/-- The left child of the root is the first that is read. -/
theorem execCgGen_rootLeft (hleft : s.leftChild s.rootId = none) :
    execCgGen s = .fault (.unwrittenChild s.rootId) := by
  refine execCgGen_fault ?_
  rw [codeTable_internal s hk, visit_internal s 254 [] s.code hr]
  simp only [hleft]

/-- The right child of the root is read once the left one, a leaf, has its code. -/
theorem execCgGen_rootRight {l : NodeId} (hleft : s.leftChild s.rootId = some l)
    (hl : isLeaf l = true) (hright : s.rightChild s.rootId = none) :
    execCgGen s = .fault (.unwrittenChild s.rootId) := by
  refine execCgGen_fault ?_
  rw [codeTable_internal s hk, visit_internal s 254 [] s.code hr]
  simp only [hleft, visit_leaf s 254 _ s.code hl, hright]

end

/-- Settles O36, table by table. -/
theorem unwrittenReadsFault : Obligations.UnwrittenReadsFault := by
  refine fun s => ⟨fun i hi h2 h => ?_, fun hk hr => execCgGen_rootLeft hk hr,
    fun l hk hr hleft hl hright => execCgGen_rootRight hk hr hleft hl hright,
    fun n p hk hp hn hnone => execCgGen_unwritten hk hp hn hnone⟩
  obtain ⟨id, hid, hnone, hmin⟩ := extractMin_unwritten h2 h
  refine ⟨id, hid, hnone, ?_⟩
  rcases hi with rfl | rfl
  · exact execTbMerge_fault hmin
  · exact execTbFin_fault (List.ne_nil_of_mem hid) hmin

/-! ### `ROOT` and `CUR` -/

/-- Where `BU.BIT` is selected in a run, symbols are left, so that the tree has an internal root. -/
theorem buBit_root {s : State} (h : PhaseInv s) (hp : s.phase = Phase.pBu)
    (hg : s.emitted.toNat < s.nsym.toNat) (hl : s.rootKind ≠ .leaf) :
    ∃ r c, s.root = some r ∧ s.cur = some c := by
  obtain ⟨-, hsum, ht, -, hcur⟩ := h.bu hp
  have hne := ht.not_empty (by omega)
  have hk : s.rootKind = .internal := by
    cases hk : s.rootKind with
    | none => exact absurd hk ht.kind
    | empty => exact absurd hk hne
    | leaf => exact absurd hk hl
    | internal => rfl
  obtain ⟨r, hroot, -⟩ := ht.internal hk
  obtain ⟨c, hc, -⟩ := hcur hk
  exact ⟨r, c, hroot, hc⟩

/-- In a run `ROOT` and `CUR` are written wherever the selected operation reads them (10 R42). -/
theorem root_cur_written {s : State} {i : Instr} (hs : RunInv s) (hr : s.run = .busy)
    (hi : decode s.selection = .ok i) :
    (i = .buRun ∨ (i = .cgGen ∧ s.rootKind ≠ .empty) → s.root = some s.rootId) ∧
      (i = .buBit → s.root = some s.rootId ∧ s.cur = some s.curId) := by
  have hphase := hs.busyPhase hr
  have hroot : ∀ {r}, s.root = some r → s.root = some s.rootId := fun h => by rw [rootId_some h, h]
  cases selected_of_decode hr hi with
  | buRun hp hg hk =>
    obtain ⟨-, -, ht, -⟩ := hphase.bu hp
    obtain ⟨r, h, -⟩ := ht.leaf hk
    exact ⟨fun _ => hroot h, nofun⟩
  | cgGen hp =>
    obtain ⟨-, -, -, -, -, ht⟩ := hphase.cg hp
    refine ⟨fun h => ?_, nofun⟩
    rcases h with h | ⟨-, hne⟩
    · cases h
    · obtain ⟨r, w, h, -⟩ := ht.rootWeight hne
      exact hroot h
  | buBit hp hg hl =>
    obtain ⟨r, c, h, hc⟩ := buBit_root hphase hp hg hl
    refine ⟨fun h => ?_, fun _ => ⟨hroot h, by rw [curId_some hc, hc]⟩⟩
    rcases h with h | ⟨h, -⟩ <;> cases h
  | _ =>
    refine ⟨fun h => ?_, nofun⟩
    rcases h with h | ⟨h, -⟩ <;> cases h

/-- `BU.RUN` completes in every state (45 R202). -/
theorem execBuRun_completes (s : State) : ∃ t, execBuRun s = .next t := by
  unfold execBuRun
  rcases outByte_cases (leafByte s.rootId) s with ⟨-, h⟩ | ⟨-, h⟩ <;> rw [h] <;> exact ⟨_, rfl⟩

/-- The walk along a bit completes in every state (45 R203). -/
theorem walkBit_completes (bit : Bool) (s : State) : ∃ t, walkBit bit s = .next t := by
  cases hd : s.child bit s.curId with
  | none => exact ⟨_, walkBit_missing hd⟩
  | some d =>
    cases hl : isLeaf d with
    | false => exact ⟨_, walkBit_inner hd hl⟩
    | true =>
      rw [← leafId_leafByte d hl] at hd
      by_cases hfull : s.outPos.toNat = s.obufCap
      · exact ⟨_, walkBit_leaf_full hd hfull⟩
      · exact ⟨_, walkBit_leaf hd hfull⟩

/-- `BU.BIT` completes with no internal root, at the end of the input, and where its load is one (45
R203). -/
theorem execBuBit_completes {s : State} (h : s.rootKind ≠ .internal ∨ s.inPos = s.inLen ∨
    (s.inPos.toNat < s.inLen.toNat ∧ s.inPos.toNat < s.ibufCap)) : ∃ t, execBuBit s = .next t := by
  by_cases hk : s.rootKind = .internal
  · rcases h with h | h | ⟨hlen, hcap⟩
    · exact absurd hk h
    · exact ⟨_, by simp only [execBuBit, hk, h, ne_eq, not_true, if_true, if_false]; rfl⟩
    · rw [execBuBit_walks s hk hlen hcap]
      exact walkBit_completes _ _
  · exact ⟨_, if_pos hk⟩

/-- Settles O37. -/
theorem rootAndCurAreWrittenWhereRead : Obligations.RootAndCurAreWrittenWhereRead :=
  ⟨fun _ _ => root_cur_written, execBuRun_completes, fun _ => execBuBit_completes⟩

end Sys2Proof.Machine
end

section
/-! PROOF. What the host sees and what it can do (O6, O40, O41, O44, O47): the fields of the status word
and of the window (10_state.md rules R28 to R35), a write of `CMD` (R29), and the host's own writes
outside a run (R33, 20_memory.md rule R60). -/

namespace Sys2Proof.Machine

/-- Settles O6: the command the low byte of the word selects. -/
theorem commandWriteRunsTheCommand : Obligations.CommandWriteRunsTheCommand := by
  intro s w rest h
  refine ⟨decodeCommand (commandCode w), rfl, decodeCommand_isCommand _, ?_⟩
  have hturn : s.turn = .host (.writeReg 0 w) := by simp [State.turn, h]
  have hpop : s.popTurn = { s with schedule := rest } := by simp [State.popTurn, h]
  rw [step, hturn, hpop]
  rfl

/-! ### The window -/

/-- The fields of a status word, each at its bits (10 R30). -/
theorem status_fields (kind : BitVec 2) (phase : BitVec 4) (mode : BitVec 1) (run : BitVec 2) :
    (0#22 ++ kind ++ phase ++ 0#1 ++ mode ++ run : BitVec 32).extractLsb' 0 2 = run ∧
    (0#22 ++ kind ++ phase ++ 0#1 ++ mode ++ run : BitVec 32).extractLsb' 2 1 = mode ∧
    (0#22 ++ kind ++ phase ++ 0#1 ++ mode ++ run : BitVec 32).extractLsb' 3 1 = 0#1 ∧
    (0#22 ++ kind ++ phase ++ 0#1 ++ mode ++ run : BitVec 32).extractLsb' 4 4 = phase ∧
    (0#22 ++ kind ++ phase ++ 0#1 ++ mode ++ run : BitVec 32).extractLsb' 8 2 = kind ∧
    (0#22 ++ kind ++ phase ++ 0#1 ++ mode ++ run : BitVec 32).extractLsb' 10 22 = 0#22 := by
  revert kind phase mode run
  decide +kernel

theorem runCode_eq (r : Run) : runCode r =
    if r = .idle then 0#2 else if r = .busy then 1#2 else if r = .done then 2#2 else 3#2 := by
  cases r <;> rfl

theorem modeBit_eq (m : Mode) : modeBit m = if m = .encode then 0#1 else 1#1 := by
  cases m <;> rfl

theorem rootKindCode_eq (k : RootKind) : rootKindCode k =
    if k = .none then 0#2 else if k = .empty then 1#2 else if k = .leaf then 2#2 else 3#2 := by
  cases k <;> rfl

/-- Settles O40. -/
theorem statusFieldsReadTheState : Obligations.StatusFieldsReadTheState := by
  refine ⟨fun s => ⟨fun _ => rfl, rfl, ?_⟩, rfl⟩
  rw [← runCode_eq, ← modeBit_eq, ← rootKindCode_eq]
  exact status_fields _ _ _ _

/-- A 64-bit register is its two halves (10 R28). -/
theorem halves_append (x : BitVec 64) : x.extractLsb' 32 32 ++ x.extractLsb' 0 32 = x :=
  (BitVec.extractLsb'_append_extractLsb'_eq_extractLsb' (start₁ := 0) (by decide)).trans
    BitVec.extractLsb'_eq_self

/-- `ERR` by the codes of 60 R231. -/
theorem errCode_eq (e : ErrKind) : (errCode e).setWidth 32 =
    if e = .none then 0#32 else if e = .inputUnavailable then 1#32
    else if e = .outputUnwritable then 2#32 else if e = .malformedContainer then 3#32
    else if e = .streamTruncated then 4#32 else if e = .streamCorrupt then 5#32
    else if e = .internalConsistency then 6#32 else if e = .badCommand then 7#32 else 8#32 := by
  cases e <;> rfl

/-- From 0x28 on the window reads 0 (log 9). -/
theorem readRegister_beyond (s : State) {off : Nat} (h : 0x28 ≤ off) : s.readRegister off = 0#32 := by
  unfold State.readRegister
  repeat rw [if_neg (by omega)]

/-- Settles O41, register by register. -/
theorem windowReadsTheRegisters : Obligations.WindowReadsTheRegisters := by
  refine fun s => ⟨rfl, errCode_eq s.err, halves_append s.errInfo, rfl, halves_append s.outLen, ?_,
    fun _ => readRegister_beyond s⟩
  exact (halves_append s.nsymView).trans (BitVec.setWidth_eq_append (by decide))

/-! ### The host's own writes -/

/-- `IBUF` after a write of one byte, read as the core and the host read it. -/
theorem inputByte_write (s : State) (a : Nat) (b : Byte) (c : Nat) :
    State.inputByte { s with ibuf := s.ibuf.write a b } c = if c = a then b else s.inputByte c := by
  simp only [State.inputByte, Memory.read_write]
  by_cases h : c = a <;> simp [h]

/-- Outside a run a byte of the buffer is written (20 R60). -/
theorem hostWriteIbuf_inside {s : State} {a : Nat} (b : Byte) (hr : s.run ≠ .busy) (ha : a < s.ibufCap) :
    hostWriteIbuf a b s = .next { s with ibuf := s.ibuf.write a b } := by
  unfold hostWriteIbuf
  rw [if_neg hr, if_neg (Nat.not_le.mpr ha)]

/-- Outside a run a byte of the buffer is read as it stands there (20 R60). -/
theorem hostReadIbuf_inside {s : State} {a : Nat} (hr : s.run ≠ .busy) (ha : a < s.ibufCap) :
    hostReadIbuf a s = .next { s with hostData := (s.inputByte a).setWidth 32 } := by
  unfold hostReadIbuf
  rw [if_neg (Nat.not_le.mpr ha), if_neg hr]

/-- Outside a run `IN_LEN` is the host's to write (10 R33). -/
theorem hostWriteInLen {s : State} (hr : s.run ≠ .busy) (v : BitVec 32) :
    hostMove (.writeReg 0x14 v) s = .next { s with inLen := v } := by
  have hwrite : s.writeRegister 0x14 v = { s with inLen := v } := if_neg hr
  rw [← hwrite]
  rfl

/-- Settles O44: the state after a write is that with the byte in `IBUF`, and is read there. -/
theorem hostWritesLandOutsideARun : Obligations.HostWritesLandOutsideARun := by
  refine fun s hr => ⟨hostWriteInLen hr, fun a b ha => ?_, fun a => hostReadIbuf_inside hr⟩
  have hsame : State.inputByte { s with ibuf := s.ibuf.write a b } a = b := by
    rw [inputByte_write, if_pos rfl]
  refine ⟨_, hostWriteIbuf_inside b hr ha, hsame, fun c hc => ?_, rfl, ?_⟩
  · rw [inputByte_write, if_neg hc]
  · have hread := hostReadIbuf_inside (s := { s with ibuf := s.ibuf.write a b }) hr ha
    rwa [hsame] at hread

/-- Settles O47: reset is `resetWith` of the capacities of the test vectors. -/
theorem resetStateHasTheSpecsValues : Obligations.ResetStateHasTheSpecsValues :=
  ⟨rfl, rfl, rfl, rfl, rfl, rfl, by decide, rfl, rfl, resetWith_cleared _ _⟩

end Sys2Proof.Machine
end

section
/-! PROOF. The output is appended to and never read by the core, and a host read changes nothing in the
block (O50, O54, O42; 20_memory.md rules R60 and R67, 40_commands_and_sequencing.md rules R133 and
R145). -/

namespace Sys2Proof.Machine

/-! ### The output only grows -/

/-- A core turn only appends, in a run or outside one. -/
theorem grown_of_coreTurn {s t : State} (h : coreTurn s = .next t) : Grown s t := by
  by_cases hr : s.run = .busy
  · exact coreTurn_grown hr h
  · rw [coreTurn_idle s hr] at h
    cases h
    exact .of_eq rfl rfl rfl

/-- Settles O50: the output has only grown. -/
theorem writtenOutputIsNeverOverwritten : Obligations.WrittenOutputIsNeverOverwritten := by
  intro s t hle hcap h
  obtain ⟨hpos, -, hkept⟩ := (grown_of_coreTurn h).kept hle hcap
  exact ⟨hpos, hkept⟩

/-! ### A core turn does not read the output -/

/-- The two flows have come equally far and agree in everything but the contents of `OBUF`. -/
def FlowSameButObuf : Flow → Flow → Prop
  | .cont s, .cont t => { s with obuf := t.obuf } = t
  | .halt r, .halt q => SameButObuf r q
  | _, _ => False

/-- What `f` does to everything but `OBUF` does not depend on the contents of `OBUF`. -/
def BlindToObuf (f : State → Flow) : Prop :=
  ∀ (s : State) (o : Memory), FlowSameButObuf (f s) (f { s with obuf := o })

/-- The outcome of `f` in everything but `OBUF` does not depend on the contents of `OBUF`. -/
def ExecBlindToObuf (f : State → Result) : Prop :=
  ∀ (s : State) (o : Memory), SameButObuf (f s) (f { s with obuf := o })

theorem FlowSameButObuf.andThen {k : State → Flow} (hk : BlindToObuf k) {f g : Flow}
    (h : FlowSameButObuf f g) : FlowSameButObuf (f.andThen k) (g.andThen k) := by
  cases f with
  | cont s =>
    cases g with
    | cont t => exact (show { s with obuf := t.obuf } = t from h) ▸ hk s t.obuf
    | halt q => exact h.elim
  | halt r =>
    cases g with
    | cont t => exact h.elim
    | halt q => exact h

theorem FlowSameButObuf.finish {f g : Flow} (h : FlowSameButObuf f g) :
    SameButObuf f.finish g.finish := by
  cases f with
  | cont s =>
    cases g with
    | cont t => exact h
    | halt q => exact h.elim
  | halt r =>
    cases g with
    | cont t => exact h.elim
    | halt q => exact h

/-- Operations in sequence are blind to `OBUF` when each is. -/
theorem BlindToObuf.andThen {f k : State → Flow} (hf : BlindToObuf f) (hk : BlindToObuf k) :
    BlindToObuf fun s => (f s).andThen k := fun s o => (hf s o).andThen hk

/-- So is a choice between two, when what it compares does not look at `OBUF`. -/
theorem BlindToObuf.ite {c : State → Prop} [DecidablePred c] {f g : State → Flow}
    (hc : ∀ (s : State) (o : Memory), c { s with obuf := o } = c s) (hf : BlindToObuf f)
    (hg : BlindToObuf g) : BlindToObuf fun s => if c s then f s else g s := by
  intro s o
  by_cases h : c s
  · simpa only [hc, h, if_true] using hf s o
  · simpa only [hc, h, if_false] using hg s o

/-- A byte goes to `OUT_POS`, whatever is there (00 R9). -/
theorem outByte_blindToObuf (v : Byte) : BlindToObuf (outByte v) := by
  intro s o
  by_cases hf : s.outPos.toNat = s.obufCap
  · rw [outByte_full v s hf, outByte_full v { s with obuf := o } hf]
    rfl
  · rw [outByte_room v s hf, outByte_room v { s with obuf := o } hf]
    rfl

theorem outBytes_blindToObuf (vs : List Byte) : BlindToObuf (outBytes vs) := by
  induction vs with
  | nil => exact fun _ _ => rfl
  | cons v vs ih => exact (outByte_blindToObuf v).andThen ih

theorem emitAcc_blindToObuf : BlindToObuf emitAcc := by
  intro s o
  refine (outByte_blindToObuf s.acc s o).andThen ?_
  exact fun _ _ => rfl

theorem packBit_blindToObuf (bit : Bool) : BlindToObuf (packBit bit) := by
  refine .ite (fun _ _ => rfl) ?_ ?_
  · exact fun s => emitAcc_blindToObuf (placeBit bit s)
  · exact fun _ _ => rfl

theorem packBits_blindToObuf (bits : Code) : BlindToObuf (packBits bits) := by
  induction bits with
  | nil => exact fun _ _ => rfl
  | cons bit bits ih => exact (packBit_blindToObuf bit).andThen ih

theorem flushAcc_blindToObuf : BlindToObuf flushAcc := by
  refine .ite (fun _ _ => rfl) ?_ ?_
  · exact fun _ _ => rfl
  · exact emitAcc_blindToObuf

theorem moveTo_blindToObuf (d : NodeId) : BlindToObuf (moveTo d) := by
  refine .ite (fun _ _ => rfl) (fun s o => ?_) fun _ _ => rfl
  refine (outByte_blindToObuf (leafByte d) { s with cur := some d } o).andThen ?_
  exact fun _ _ => rfl

/-! ### The operations -/

theorem walkBit_blindToObuf (bit : Bool) : ExecBlindToObuf (walkBit bit) := by
  intro s o
  have hchild : State.child { s with obuf := o } bit (State.curId { s with obuf := o }) =
    s.child bit s.curId := rfl
  simp only [walkBit, hchild]
  cases s.child bit s.curId with
  | none => rfl
  | some d => exact (moveTo_blindToObuf d s o).finish

/-- A load does not look at `OBUF` (40 R145). -/
theorem loadInput_withObuf (s : State) (o : Memory) (a : Nat) :
    loadInput { s with obuf := o } a = loadInput s a := rfl

theorem execFcCnt_blindToObuf : ExecBlindToObuf execFcCnt := by
  intro s o
  simp only [execFcCnt, loadInput_withObuf]
  cases loadInput s s.inPos.toNat with
  | error f => rfl
  | ok b => dsimp only; split <;> rfl

/-- The two extractions and the sum of the weights look at `PQ` and `NODE_W` only (42 R161, R163). -/
theorem execTbMerge_blindToObuf : ExecBlindToObuf execTbMerge := by
  intro s o
  have hweight : ∀ id, State.weight { s with obuf := o } id = s.weight id := fun _ => rfl
  have hfirst : extractMin { s with obuf := o } = extractMin s := extractMin_congr rfl hweight
  have hsecond : ∀ q, extractMin { s with obuf := o, pq := q } = extractMin { s with pq := q } :=
    fun q => extractMin_congr rfl hweight
  simp only [execTbMerge, hfirst, hsecond, hweight, config_maxNodes]
  cases extractMin s with
  | error f => rfl
  | ok first =>
    obtain ⟨a, q⟩ := first
    dsimp only
    cases extractMin { s with pq := q } with
    | error f => rfl
    | ok second =>
      by_cases hn : 511 ≤ 256 + s.nint.toNat
      · simp only [hn, if_true]
        rfl
      · simp only [hn, if_false]
        cases s.weight a <;> cases s.weight second.1 <;> rfl

theorem execTbFin_blindToObuf : ExecBlindToObuf execTbFin := by
  intro s o
  have hmin : extractMin { s with obuf := o } = extractMin s := extractMin_congr rfl fun _ => rfl
  simp only [execTbFin, hmin]
  cases s.pq with
  | nil => rfl
  | cons id rest => cases extractMin s <;> rfl

/-- The traversal looks at the child tables only (43 R181). -/
theorem execCgGen_blindToObuf : ExecBlindToObuf execCgGen := by
  intro s o
  have htable : codeTable { s with obuf := o } = codeTable s := by
    have hvisit := visit_congr (s := { s with obuf := o }) (t := s) (fun _ => rfl) fun _ => rfl
    simp only [codeTable, hvisit]
    rfl
  simp only [execCgGen, htable]
  cases codeTable s <;> rfl

theorem execCcWrh_blindToObuf : ExecBlindToObuf execCcWrh := by
  intro s o
  refine ((outBytes_blindToObuf (headerBytes s.config.hdrByteOrder s.freq) s o).andThen ?_).finish
  exact fun _ _ => rfl

theorem execBpSym_blindToObuf : ExecBlindToObuf execBpSym := by
  intro s o
  simp only [execBpSym, loadInput_withObuf]
  cases loadInput s s.inPos.toNat with
  | error f => rfl
  | ok b =>
    dsimp only
    cases byteEntry s.code b with
    | none => rfl
    | some bits =>
      refine ((packBits_blindToObuf bits s o).andThen ?_).finish
      exact fun _ _ => rfl

theorem execBpFlush_blindToObuf : ExecBlindToObuf execBpFlush := by
  intro s o
  refine ((flushAcc_blindToObuf s o).andThen ?_).finish
  exact fun _ _ => rfl

theorem execCcRdh_blindToObuf : ExecBlindToObuf execCcRdh := by
  intro s o
  have hcounts : headerCounts { s with obuf := o } = headerCounts s := rfl
  simp only [execCcRdh, hcounts]
  split
  · rfl
  split
  · rfl
  · simp only [SameButObuf]

theorem execBuRun_blindToObuf : ExecBlindToObuf execBuRun := by
  intro s o
  refine ((outByte_blindToObuf (leafByte s.rootId) s o).andThen ?_).finish
  exact fun _ _ => rfl

theorem execBuBit_blindToObuf : ExecBlindToObuf execBuBit := by
  intro s o
  have hadvance : advanceBit { s with obuf := o } = { advanceBit s with obuf := o } := by
    simp only [advanceBit_eq]
  simp only [execBuBit, loadInput_withObuf, hadvance]
  split
  · rfl
  split
  · rfl
  cases loadInput s s.inPos.toNat with
  | error f => rfl
  | ok b => exact walkBit_blindToObuf _ (advanceBit s) o

/-! ### A core turn -/

/-- What the phase and the guards select is blind to `OBUF`. -/
theorem exec_blindToObuf {s : State} {i : Instr} (hi : Selected s i) : ExecBlindToObuf (exec i) := by
  cases hi with
  | fcEnd | tbInit | buDone => exact fun _ _ => rfl
  | fcCnt => exact execFcCnt_blindToObuf
  | tbMerge => exact execTbMerge_blindToObuf
  | tbFin => exact execTbFin_blindToObuf
  | cgGen => exact execCgGen_blindToObuf
  | ccWrh => exact execCcWrh_blindToObuf
  | bpSym => exact execBpSym_blindToObuf
  | bpFlush => exact execBpFlush_blindToObuf
  | ccRdh => exact execCcRdh_blindToObuf
  | buRun => exact execBuRun_blindToObuf
  | buBit => exact execBuBit_blindToObuf

/-- Settles O54: the selection does not look at `OBUF`, and neither does what it selects. -/
theorem coreNeverReadsTheOutput : Obligations.CoreNeverReadsTheOutput := by
  intro s o
  by_cases hr : s.run = .busy
  · have hsel : State.selection { s with obuf := o } = s.selection := rfl
    rw [coreTurn_busy s hr, coreTurn_busy { s with obuf := o } hr, hsel]
    unfold execSelection
    cases hi : decode s.selection with
    | ok i => exact exec_blindToObuf (selected_of_decode hr hi) s o
    | error e => cases e <;> rfl
  · rw [coreTurn_idle s hr, coreTurn_idle { s with obuf := o } hr]
    rfl

/-! ### Reads by the host -/

/-- An aligned register read gives the host the register (10 R28). -/
theorem hostReadReg_aligned (s : State) {off : Nat} (h : off % 4 = 0) :
    hostReadReg off s = .next { s with hostData := s.readRegister off } := if_neg (not_not_intro h)

/-- A read of `IBUF` faults, or gives an unspecified byte, or the byte that is there. -/
theorem hostReadIbuf_next {s t : State} {a : Nat} (h : hostReadIbuf a s = .next t) :
    t = { s with hostData := t.hostData, freeReads := t.freeReads } := by
  unfold hostReadIbuf at h
  split at h
  · cases h
  split at h <;> cases h <;> rfl

/-- A read of `OBUF` gives the byte that is there, or an unspecified one. -/
theorem hostReadObuf_next {s t : State} {a : Nat} (h : hostReadObuf a s = .next t) :
    t = { s with hostData := t.hostData, freeReads := t.freeReads } := by
  unfold hostReadObuf at h
  split at h
  · split at h <;> cases h <;> rfl
  · cases h
    rfl

/-- Settles O42, read by read. -/
theorem hostReadsChangeNothing : Obligations.HostReadsChangeNothing := by
  refine ⟨fun s _ => hostReadReg_aligned s, fun s t a h => ?_⟩
  obtain hibuf | hobuf := h
  · exact hostReadIbuf_next hibuf
  · exact hostReadObuf_next hobuf

end Sys2Proof.Machine
end

section
/-! PROOF. The decoder is the table of operations (O2; 30_encoding.md rules R101 and R102), so the encoder,
which gives a selection of the operation's own row, is undone by it (O1), and the written-out selections
decode as the table has them (O3). -/

namespace Sys2Proof.Machine

/-! ### Command words -/

/-- A code selects the command of its row, the reserved codes being those of `CMD.RSVD` (R101, R103). -/
theorem decodeCommand_eq_iff (code : Byte) (i : Instr) :
    decodeCommand code = i ↔ wellFormed i = true ∧ rowCode i = some code := by
  constructor
  · rintro rfl
    unfold decodeCommand
    split_ifs with hnop hencode hdecode hclear
    · exact ⟨rfl, hnop ▸ rfl⟩
    · exact ⟨rfl, hencode ▸ rfl⟩
    · exact ⟨rfl, hdecode ▸ rfl⟩
    · exact ⟨rfl, hclear ▸ rfl⟩
    · refine ⟨?_, rfl⟩
      simp only [wellFormed, decide_eq_true_eq]
      bv_omega
  · rintro ⟨hwf, hcode⟩
    cases i with
    | cmdNop | cmdEncode | cmdDecode | cmdClear => cases hcode; rfl
    | cmdRsvd reserved =>
      cases hcode
      simp only [wellFormed, decide_eq_true_eq] at hwf
      unfold decodeCommand
      rw [if_neg (by bv_omega), if_neg (by bv_omega), if_neg (by bv_omega), if_neg (by bv_omega)]
    | _ => cases hcode

/-! ### Dispatch bytes -/

/-- The two operations told apart by the cursor (R102). -/
theorem decodeCursor_ok_iff (sel : Byte) (g : Guards) (more done i : Instr) :
    decodeCursor sel g more done = .ok i ↔ (g.inPos = .lt ∧ more = i) ∨ (g.inPos = .eq ∧ done = i) := by
  unfold decodeCursor
  cases g.inPos <;> simp

/-- The three operations of `P_BU` (R102). -/
theorem decodeUnpacker_ok_iff (sel : Byte) (g : Guards) (i : Instr) :
    decodeUnpacker sel g = .ok i ↔
      (g.emitted = .eq ∧ .buDone = i) ∨
      (g.emitted = .lt ∧ g.rootLeaf = true ∧ .buRun = i) ∨
      (g.emitted = .lt ∧ g.rootLeaf = false ∧ .buBit = i) := by
  unfold decodeUnpacker
  cases g.emitted <;> cases g.rootLeaf <;> simp

/-- The operation a dispatch byte and the guards decode to is of the byte's row, and its guard holds. -/
theorem row_of_decodePhase {sel : Byte} {g : Guards} {i : Instr} (h : decodePhase sel g = .ok i) :
    rowMatch i = some (sel &&& selMask) ∧ rowGuard i g := by
  unfold decodePhase at h
  split at h
  · rename_i hm
    rw [hm]
    rcases (decodeCursor_ok_iff ..).mp h with ⟨hg, rfl⟩ | ⟨hg, rfl⟩ <;> exact ⟨rfl, hg⟩
  split at h
  · rename_i hm; cases h; exact ⟨hm ▸ rfl, trivial⟩
  split at h
  · rename_i hm
    cases h
    rw [hm]
    cases hg : g.pqMany <;> exact ⟨rfl, hg⟩
  split at h
  · rename_i hm; cases h; exact ⟨hm ▸ rfl, trivial⟩
  split at h
  · rename_i hm; cases h; exact ⟨hm ▸ rfl, trivial⟩
  split at h
  · rename_i hm
    rw [hm]
    rcases (decodeCursor_ok_iff ..).mp h with ⟨hg, rfl⟩ | ⟨hg, rfl⟩ <;> exact ⟨rfl, hg⟩
  split at h
  · rename_i hm; cases h; exact ⟨hm ▸ rfl, trivial⟩
  split at h
  · rename_i hm
    rw [hm]
    rcases (decodeUnpacker_ok_iff ..).mp h with ⟨hg, rfl⟩ | ⟨hg, hk, rfl⟩ | ⟨hg, hk, rfl⟩
    · exact ⟨rfl, hg⟩
    · exact ⟨rfl, hg, hk⟩
    · exact ⟨rfl, hg, hk⟩
  · cases h

/-- A dispatch byte of an operation's row, its guard holding, decodes to the operation. -/
theorem decodePhase_of_row {sel : Byte} {g : Guards} {i : Instr}
    (hm : rowMatch i = some (sel &&& selMask)) (hg : rowGuard i g) : decodePhase sel g = .ok i := by
  cases i with
  | fcCnt | fcEnd | bpSym | bpFlush =>
    have hm := Option.some.inj hm
    have hg : g.inPos = _ := hg
    simp [decodePhase, ← hm, decodeCursor, hg]
  | tbInit | cgGen | ccWrh | ccRdh =>
    have hm := Option.some.inj hm
    simp [decodePhase, ← hm]
  | tbMerge | tbFin =>
    have hm := Option.some.inj hm
    have hg : g.pqMany = _ := hg
    simp [decodePhase, ← hm, hg]
  | buDone =>
    have hm := Option.some.inj hm
    have hg : g.emitted = .eq := hg
    simp [decodePhase, ← hm, decodeUnpacker, hg]
  | buRun | buBit =>
    have hm := Option.some.inj hm
    obtain ⟨hg, hk⟩ := hg
    simp [decodePhase, ← hm, decodeUnpacker, hg, hk]
  | cmdNop | cmdEncode | cmdDecode | cmdClear | cmdRsvd => cases hm

/-- An operation with a match value carries no code, so it is well formed. -/
theorem wellFormed_of_rowMatch {i : Instr} {row : Byte} (h : rowMatch i = some row) :
    wellFormed i = true := by
  cases i with
  | cmdRsvd => cases h
  | _ => rfl

/-! ### The table -/

/-- Settles O2, format by format. -/
theorem decodeIsTheOperationTable : Obligations.DecodeIsTheOperationTable := by
  intro x i
  cases x with
  | command word =>
    simp only [decode, Except.ok.injEq, RowSelects, ← commandCode_eq_extract]
    exact decodeCommand_eq_iff _ i
  | phase sel g =>
    constructor
    · intro h
      have hrow := row_of_decodePhase h
      exact ⟨wellFormed_of_rowMatch hrow.1, hrow⟩
    · rintro ⟨-, hm, hg⟩
      exact decodePhase_of_row hm hg

/-! ### The encoder -/

/-- The code of a command word the encoder makes (R97). -/
theorem commandWord_code (ignored : BitVec 24) (code : Byte) :
    some code = some ((commandWord ignored code).extractLsb' 0 8) := by
  rw [← commandCode_eq_extract, commandCode_commandWord]

/-- The match value of a dispatch byte the encoder makes (R98). -/
theorem dispatchByte_row (mode : Bool) {row : Byte} (h : row &&& selMask = row) :
    some row = some (dispatchByte mode row &&& 0xF3#8) :=
  congrArg some (dispatchByte_mask mode row h).symm

/-- The encoder gives a selection of the operation's own row, whatever stands in what the row ignores. -/
theorem encodeWith_rowSelects (ignored : BitVec 24) (mode : Bool) (g : Guards) (i : Instr) :
    RowSelects i (encodeWith ignored mode g i) := by
  cases i with
  | cmdNop | cmdEncode | cmdDecode | cmdClear | cmdRsvd => exact commandWord_code ignored _
  | fcCnt | fcEnd | tbMerge | tbFin | bpSym | bpFlush | buDone =>
    exact ⟨dispatchByte_row mode (by decide), rfl⟩
  | tbInit | cgGen | ccWrh | ccRdh => exact ⟨dispatchByte_row mode (by decide), trivial⟩
  | buRun | buBit => exact ⟨dispatchByte_row mode (by decide), rfl, rfl⟩

/-- Settles O1: the encoded selection is of the operation's row, and the decoder is the table. -/
theorem decodeEncodeRoundTrip : Obligations.DecodeEncodeRoundTrip :=
  fun i ignored mode g hwf =>
    (decodeIsTheOperationTable _ i).mpr ⟨hwf, encodeWith_rowSelects ignored mode g i⟩

/-- Settles O3, by evaluating the decoder on each selection. -/
theorem tableWordsDecode : Obligations.TableWordsDecode := by
  unfold Obligations.TableWordsDecode
  decide

end Sys2Proof.Machine
end

section
/-! PROOF. The selection of a core turn (O4, O7): in a run within its invariant one operation of format
`PHASE` is selected (30_encoding.md rules R98 and R102), and a core turn that selects none does nothing
outside a run and is refused in one (R104). -/

namespace Sys2Proof.Machine

/-! ### One operation is selected -/

/-- The phases of a run (10 R25). -/
theorem phase_cases (p : Phase) (hnone : p ≠ Phase.pNone) (hnamed : p.toNat ≤ 8) :
    p = Phase.pFc ∨ p = Phase.pTbi ∨ p = Phase.pTbm ∨ p = Phase.pCg ∨ p = Phase.pWrh ∨
      p = Phase.pBp ∨ p = Phase.pRdh ∨ p = Phase.pBu := by
  revert p
  decide

/-- A register that is at most another is below it or equal to it. -/
theorem lt_or_eq_of_toNat_le {w : Nat} {a b : BitVec w} (h : a.toNat ≤ b.toNat) :
    a.toNat < b.toNat ∨ a = b := (Nat.lt_or_eq_of_le h).imp_right BitVec.eq_of_toNat_eq

/-- In every phase of a run some guard holds: the cursor and the symbols emitted are within their bounds
(10 R26, 30 R102). -/
theorem exists_selected {s : State} (hs : MachineInv s) (hr : s.run = .busy) : ∃ i, Selected s i := by
  have hcursor := lt_or_eq_of_toNat_le (hs.busyCursor hr)
  have hnone : s.phase ≠ Phase.pNone := fun h => hs.phaseNone.mp h hr
  rcases phase_cases s.phase hnone hs.phaseNamed with hp | hp | hp | hp | hp | hp | hp | hp
  · rcases hcursor with hg | hg
    · exact ⟨_, .fcCnt hp hg⟩
    · exact ⟨_, .fcEnd hp hg⟩
  · exact ⟨_, .tbInit hp⟩
  · by_cases hg : 2 ≤ s.pq.length
    · exact ⟨_, .tbMerge hp hg⟩
    · exact ⟨_, .tbFin hp (by omega)⟩
  · exact ⟨_, .cgGen hp⟩
  · exact ⟨_, .ccWrh hp⟩
  · rcases hcursor with hg | hg
    · exact ⟨_, .bpSym hp hg⟩
    · exact ⟨_, .bpFlush hp hg⟩
  · exact ⟨_, .ccRdh hp⟩
  · rcases lt_or_eq_of_toNat_le (hs.busyEmitted hr) with hg | hg
    · by_cases hk : s.rootKind = .leaf
      · exact ⟨_, .buRun hp hg hk⟩
      · exact ⟨_, .buBit hp hg hk⟩
    · exact ⟨_, .buDone hp hg⟩

/-- What a core turn selects is no command. -/
theorem Selected.isCommand_eq_false {s : State} {i : Instr} (h : Selected s i) : isCommand i = false := by
  cases h <;> rfl

/-- Settles O4: an operation is selected, and a row that matches is the one the decoder picks. -/
theorem busySelectsExactlyOneOperation : Obligations.BusySelectsExactlyOneOperation := by
  intro s hs hr
  obtain ⟨i, hi⟩ := exists_selected hs hr
  have hdec := decode_of_selected hr hi
  refine ⟨i, hdec, hi.isCommand_eq_false, fun k hm hg => ?_⟩
  have hk : decode s.selection = .ok k := decodePhase_of_row hm hg
  exact Except.ok.inj (hk.symm.trans hdec)

/-! ### None is selected -/

/-- A core turn with the turn off the schedule (log 4). -/
theorem step_core {s : State} (h : s.turn = .core) : step s = coreTurn s.popTurn := by
  rw [step, h, takeTurn]

theorem decodeCursor_error {sel : Byte} {g : Guards} {more done : Instr} {e : DecodeError}
    (h : decodeCursor sel g more done = .error e) : e = .noGuardHolds sel := by
  unfold decodeCursor at h
  split at h <;> cases h
  rfl

theorem decodeUnpacker_error {sel : Byte} {g : Guards} {e : DecodeError}
    (h : decodeUnpacker sel g = .error e) : e = .noGuardHolds sel := by
  unfold decodeUnpacker at h
  split at h <;> cases h
  rfl

/-- Why a dispatch byte and the guards select no operation: the byte matches no row, or no guard holds. -/
theorem decodePhase_error {sel : Byte} {g : Guards} {e : DecodeError} (h : decodePhase sel g = .error e) :
    e = .reservedDispatch sel ∨ e = .noGuardHolds sel := by
  unfold decodePhase at h
  split at h
  · exact .inr (decodeCursor_error h)
  split at h
  · cases h
  split at h
  · cases h
  split at h
  · cases h
  split at h
  · cases h
  split at h
  · exact .inr (decodeCursor_error h)
  split at h
  · cases h
  split at h
  · exact .inr (decodeUnpacker_error h)
  · cases h
    exact .inl rfl

/-- A run in which nothing is selected is refused (30 R104). -/
theorem coreTurn_unselected {s : State} (hr : s.run = .busy) (h : ∀ i, decode s.selection ≠ .ok i) :
    coreTurn s = .refused (.reservedDispatch s.sel) ∨ coreTurn s = .refused (.noGuardHolds s.sel) := by
  rw [coreTurn_busy s hr, execSelection]
  cases hdec : decode s.selection with
  | ok i => exact absurd hdec (h i)
  | error e =>
    rcases decodePhase_error hdec with rfl | rfl
    · exact .inl rfl
    · exact .inr rfl

/-- Settles O7: the turn taken off the schedule changes nothing the selection looks at. -/
theorem coreTurnWithoutAnOperation : Obligations.CoreTurnWithoutAnOperation := by
  intro s hturn
  rw [step_core hturn]
  exact ⟨coreTurn_idle s.popTurn, coreTurn_unselected (s := s.popTurn)⟩

end Sys2Proof.Machine
end

section
/-! PROOF. No core turn of a run stops (O60): in a state within the invariant of a run the selected
operation completes, and what it leaves is none of the errors 93_implementation_defined.md U17 calls
unreachable. -/

namespace Sys2Proof.Machine

/-! ### The selected operation completes -/

theorem execFcCnt_completes {s : State} (hlen : s.inPos.toNat < s.inLen.toNat)
    (hcap : s.inPos.toNat < s.ibufCap) : ∃ t, execFcCnt s = .next t := by
  simp only [execFcCnt, loadInput_eq hlen hcap]
  split <;> exact ⟨_, rfl⟩

/-- `TB.MERGE` meets no unwritten weight in a forest, and an id is left (10 R43 (c), 42 R163). -/
theorem execTbMerge_completes {s : State} (h : Forest s) (h2 : 2 ≤ s.pq.length) :
    ∃ t, execTbMerge s = .next t := by
  have hweight : ∀ id ∈ s.pq, ∃ w, s.weight id = some w :=
    fun id hid => h.toNodeTable.made_weight (h.members id hid)
  obtain ⟨a, b, wa, wb, hnext, -⟩ := tbMerge_spec s hweight h2 (h.nint_le h2)
  exact ⟨_, hnext⟩

/-- `TB.FIN` on at most one member compares no weights (42 R164). -/
theorem execTbFin_completes {s : State} (h : s.pq.length ≤ 1) : ∃ t, execTbFin s = .next t := by
  match hq : s.pq with
  | [] => simp only [execTbFin, hq]; exact ⟨_, rfl⟩
  | [r] => simp only [execTbFin, hq, extractMin_single s r hq]; exact ⟨_, rfl⟩
  | _ :: _ :: _ => simp [hq] at h

/-- A tree has a code table: every child is written, and no path is longer than the bound (42 R169). -/
theorem Tree.codeTable_total {s : State} (h : Tree s) : ∃ u, codeTable s = .ok u := by
  cases hk : s.rootKind with
  | none => exact absurd hk h.kind
  | empty => exact ⟨_, codeTable_empty s (.inl hk)⟩
  | leaf => exact ⟨_, codeTable_leaf s hk⟩
  | internal =>
    obtain ⟨r, hroot, -, hmade, -⟩ := h.internal hk
    rw [codeTable_internal s hk, rootId_some hroot]
    exact visit_total h.toNodeTable _ _ r [] s.code (Nat.le_refl _) h.nintBound hmade

theorem execCcWrh_completes (s : State) : ∃ t, execCcWrh s = .next t := by
  unfold execCcWrh
  obtain ⟨t, -, h | ⟨-, h⟩⟩ := outBytes_cases (headerBytes s.config.hdrByteOrder s.freq) s <;>
    rw [h] <;> exact ⟨_, rfl⟩

theorem execBpSym_completes {s : State} (hlen : s.inPos.toNat < s.inLen.toNat)
    (hcap : s.inPos.toNat < s.ibufCap) : ∃ t, execBpSym s = .next t := by
  simp only [execBpSym, loadInput_eq hlen hcap]
  cases byteEntry s.code (s.inputByte s.inPos.toNat) with
  | none => exact ⟨_, rfl⟩
  | some bits =>
    dsimp only
    obtain ⟨t, -, h | ⟨-, h⟩⟩ := packBits_cases bits s <;> rw [h] <;> exact ⟨_, rfl⟩

theorem execBpFlush_completes (s : State) : ∃ t, execBpFlush s = .next t := by
  simp only [execBpFlush, flushAcc, padAcc_eq, emitAcc]
  split
  · exact ⟨_, rfl⟩
  · rcases outByte_cases s.acc s with ⟨-, h⟩ | ⟨-, h⟩ <;> rw [h] <;> exact ⟨_, rfl⟩

/-- A header that was declared lies within an input that fits (46 R217). -/
theorem execCcRdh_completes {s : State} (hfits : s.inLen.toNat ≤ s.ibufCap) :
    ∃ t, execCcRdh s = .next t := by
  by_cases hl : 1024 ≤ s.inLen.toNat
  · exact ⟨_, execCcRdh_ok s hl (hl.trans hfits)⟩
  · exact ⟨_, execCcRdh_short (Nat.lt_of_not_le hl)⟩

/-- Every operation selected in a run completes. -/
theorem Selected.completes {s : State} {i : Instr} (h : Selected s i) (hb : BusyOk s) (hinv : PhaseInv s) :
    ∃ t, exec i s = .next t := by
  cases h with
  | fcEnd | tbInit | buDone => exact ⟨_, rfl⟩
  | fcCnt _ hg => exact execFcCnt_completes hg (hg.trans_le hb.fits)
  | tbMerge hp hg =>
    obtain ⟨-, -, -, -, -, hforest⟩ := hinv.tbm hp
    exact execTbMerge_completes hforest hg
  | tbFin _ hg => exact execTbFin_completes hg
  | cgGen hp =>
    obtain ⟨-, -, -, -, -, htree⟩ := hinv.cg hp
    obtain ⟨u, hu⟩ := htree.codeTable_total
    exact ⟨_, execCgGen_ok hu⟩
  | ccWrh => exact execCcWrh_completes s
  | bpSym _ hg => exact execBpSym_completes hg (hg.trans_le hb.fits)
  | bpFlush => exact execBpFlush_completes s
  | ccRdh => exact execCcRdh_completes hb.fits
  | buRun => exact execBuRun_completes s
  | buBit =>
    refine execBuBit_completes (.inr ?_)
    rcases lt_or_eq_of_toNat_le hb.cursor with hg | hg
    · exact .inr ⟨hg, hg.trans_le hb.fits⟩
    · exact .inl hg

/-! ### The errors no input reaches -/

/-- No count is at its greatest while bytes are left: it is at most the cursor (60 R239). -/
theorem fcCnt_noOverflow {s : State} (h : PhaseInv s) (hp : s.phase = Phase.pFc)
    (hg : s.inPos.toNat < s.inLen.toNat) (b : Byte) : byteEntry s.freq b ≠ 0xFFFFFFFF#32 := by
  obtain ⟨-, -, hsum, -⟩ := h.fc hp
  have hle : (byteEntry s.freq b).toNat ≤ freqSum s := entry_le_sum s.freq b
  have hlen := s.inLen.isLt
  intro hmax
  rw [hmax] at hle
  simp at hle
  omega

/-- The byte at the cursor occurs in the input, so it was counted and has a code (60 R237). -/
theorem bpSym_hasCode {s : State} (h : PhaseInv s) (hp : s.phase = Phase.pBp)
    (hm : PhaseMode s.phase s.mode) (hg : s.inPos.toNat < s.inLen.toNat) :
    byteEntry s.code (s.inputByte s.inPos.toNat) ≠ none := by
  obtain ⟨hcomplete, hcounted, -⟩ := h.bp hp
  obtain ⟨hencode, -⟩ := hm
  have hcount := hcounted (hencode (by simp [hp])) (s.inputByte s.inPos.toNat)
  have hpos := inputCount_pos s hg
  have hoccurs : byteEntry s.freq (s.inputByte s.inPos.toNat) ≠ 0#32 := by
    intro hzero
    rw [hzero] at hcount
    simp at hcount
    omega
  obtain ⟨-, hcode⟩ := hcomplete (s.inputByte s.inPos.toNat)
  obtain ⟨p, hsome, -⟩ := hcode hoccurs
  simp [hsome]

/-- With symbols left to emit, the root is a leaf or an internal node (60 R236). -/
theorem buBit_rootInternal {s : State} (h : PhaseInv s) (hp : s.phase = Phase.pBu)
    (hg : s.emitted.toNat < s.nsym.toNat) (hl : s.rootKind ≠ .leaf) : s.rootKind = .internal := by
  obtain ⟨-, hsum, htree, -⟩ := h.bu hp
  cases hk : s.rootKind with
  | none => exact absurd hk htree.kind
  | empty => exact absurd hk (htree.not_empty (by omega))
  | leaf => exact absurd hk hl
  | internal => rfl

/-- The walker stands at an internal node of the tree, which has both children (60 R236). -/
theorem buBit_hasChild {s : State} (h : PhaseInv s) (hp : s.phase = Phase.pBu)
    (hk : s.rootKind = .internal) (bit : Bool) : s.child bit s.curId ≠ none := by
  obtain ⟨-, -, htree, -, hcur⟩ := h.bu hp
  obtain ⟨c, hc, hcl, hmade⟩ := hcur hk
  obtain ⟨l, r, hleft, hright, -⟩ := htree.toNodeTable.child (Nat.le_refl _) hmade hcl
  rw [curId_some hc, State.child_eq]
  cases bit <;> simp [hleft, hright]

/-- No next state of a run has one of the errors no input reaches: the turns that would raise one have a
guard that fails, and the others raise another error or leave `ERR` alone. -/
theorem CoreNext.not_unreachable {s t : State} (h : CoreNext s t) (he : s.err = .none) (hb : BusyOk s)
    (hinv : PhaseInv s) : ¬ Unreachable t.err := by
  have hkept : ∀ {e : ErrKind}, e = s.err → ¬ Unreachable e := by
    rintro e rfl
    simp [he, Unreachable]
  cases h with
  | fcOverflow hp hg hn => exact absurd hn (fcCnt_noOverflow hinv hp hg _)
  | bpNoCode hp hg hc => exact absurd hc (bpSym_hasCode hinv hp hb.mode hg)
  | buNoRoot hp hg hl hk => exact absurd (buBit_rootInternal hinv hp hg hl) hk
  | buMissing hp hk hi bit hd => exact absurd hd (buBit_hasChild hinv hp hk bit)
  | ccWrhFull | ccRdhShort | bpSymFull | bpFlushFull | buRunFull | buTruncated | buLeafFull =>
    simp [Unreachable]
  | ccWrh _ u hu _ => rw [hu.frame]; exact hkept rfl
  | bpSym _ _ _ _ u hu _ => rw [hu.frame]; exact hkept rfl
  | buInner | buLeaf => rw [advanceBit_eq]; exact hkept rfl
  | _ => exact hkept rfl

/-! ### The core turn -/

/-- A core turn of a run completes with none of those errors. -/
theorem coreTurn_completes {s : State} (hs : RunInv s) (hr : s.run = .busy) :
    ∃ t, coreTurn s = .next t ∧ ¬ Unreachable t.err := by
  have hbusy := hs.toMachineInv.busyOk hr
  have hinv := hs.busyPhase hr
  obtain ⟨i, hi⟩ := exists_selected hs.toMachineInv hr
  obtain ⟨t, hexec⟩ := hi.completes hbusy hinv
  have hnext : coreTurn s = .next t := by
    rw [coreTurn_busy s hr, execSelection, decode_of_selected hr hi]
    exact hexec
  exact ⟨t, hnext, (coreTurn_next hr hnext).not_unreachable (hs.statusOk.err_busy hr) hbusy hinv⟩

/-- Settles O60: the invariant of a run does not look at the turn taken off the schedule. -/
theorem busyCoreTurnsNeverStop : Obligations.BusyCoreTurnsNeverStop := by
  intro s hs hr hturn
  rw [step_core hturn]
  exact coreTurn_completes (hs.withHost s.schedule.tail s.hostData s.freeReads) hr

end Sys2Proof.Machine
end

section
/-! PROOF. The commands (O8, O9, O10, O12; 40_commands_and_sequencing.md rules R135 to R140): what each does
in the run states in which it acts, and that it is dropped in the others. -/

namespace Sys2Proof.Machine

/-! ### What a command does -/

/-- The next state of a command in a run state in which it acts (R136 to R139). -/
inductive CommandEffect (s : State) : Instr → State → Prop where
  | encode (hr : s.run = .idle) : CommandEffect s .cmdEncode (startRun .encode Phase.pFc s)
  | decode (hr : s.run = .idle) : CommandEffect s .cmdDecode (startRun .decode Phase.pRdh s)
  | clear (hr : s.run = .done ∨ s.run = .error) :
      CommandEffect s .cmdClear { initWork s with run := .idle, phase := Phase.pNone }
  | reserved (code : Byte) (hr : s.run = .idle) :
      CommandEffect s (.cmdRsvd code) (raise .badCommand (code.setWidth 64) s)

theorem exec_of_effect {i : Instr} {s t : State} (h : CommandEffect s i t) : exec i s = .next t := by
  cases h with
  | encode hr => simp only [exec, execCmdEncode, hr]
  | decode hr => simp only [exec, execCmdDecode, hr]
  | clear hr => rcases hr with hr | hr <;> simp only [exec, execCmdClear, hr]
  | reserved code hr => simp only [exec, execCmdRsvd, hr]

/-- Where the table of R140 lets a command act, it has its effect. -/
theorem effect_of_acts {i : Instr} {s : State} (h : commandActs i s.run = true) :
    ∃ t, CommandEffect s i t := by
  cases i with
  | cmdEncode => exact ⟨_, .encode (of_decide_eq_true h)⟩
  | cmdDecode => exact ⟨_, .decode (of_decide_eq_true h)⟩
  | cmdClear => exact ⟨_, .clear (by simpa [commandActs] using h)⟩
  | cmdRsvd code => exact ⟨_, .reserved code (of_decide_eq_true h)⟩
  | _ => cases h

/-- Where it does not, the command is dropped. -/
theorem exec_dropped {i : Instr} {s : State} (hi : isCommand i = true)
    (h : commandActs i s.run = false) : exec i s = .next s := by
  cases i with
  | cmdNop => rfl
  | cmdEncode | cmdDecode | cmdRsvd =>
    have hr : s.run ≠ .idle := of_decide_eq_false h
    simp only [exec, execCmdEncode, execCmdDecode, execCmdRsvd]
    split
    · exact absurd ‹s.run = .idle› hr
    all_goals rfl
  | cmdClear =>
    obtain ⟨hdone, herror⟩ : s.run ≠ .done ∧ s.run ≠ .error := by simpa [commandActs] using h
    simp only [exec, execCmdClear]
    split
    · exact absurd ‹s.run = .done› hdone
    · exact absurd ‹s.run = .error› herror
    all_goals rfl
  | _ => cases hi

/-- A run start leaves `IDLE`, for a run or for an error. -/
theorem startRun_run_ne_idle (m : Mode) (first : Phase) (s : State) :
    (startRun m first s).run ≠ .idle := by
  by_cases hfit : s.inLen.toNat ≤ s.ibufCap
  · simp [startRun_fits m first s hfit]
  · simp [startRun_tooLong m first s (Nat.lt_of_not_le hfit)]

/-- A command that acts leaves the run state it acts in. -/
theorem CommandEffect.run_ne {i : Instr} {s t : State} (h : CommandEffect s i t) : t.run ≠ s.run := by
  cases h with
  | encode hr | decode hr => rw [hr]; exact startRun_run_ne_idle _ _ s
  | clear hr => rcases hr with hr | hr <;> simp [hr]
  | reserved code hr => simp [hr]

/-- Settles O8: dropped outside the table of R140, and its effect where the table lets it act. -/
theorem commandsActOnlyWhereAccepted : Obligations.CommandsActOnlyWhereAccepted := by
  intro i s hi
  refine ⟨exec_dropped hi, fun hact => ?_⟩
  obtain ⟨t, heffect⟩ := effect_of_acts hact
  exact ⟨t, exec_of_effect heffect, heffect.run_ne⟩

/-! ### The state a run starts in, and the one `CLEAR` leaves -/

/-- The registers a command writes after `InitWork` are none of those `InitWork` clears (10 R41). -/
theorem initWork_command_cleared (s : State) (m : Mode) (r : Run) (p : Phase) :
    WorkCleared { initWork s with mode := m, run := r, phase := p } :=
  (initWork_cleared s).congr rfl

/-- Nor are they the buffers, `IN_LEN` or the model's own fields. -/
theorem initWork_command_kept (s : State) (m : Mode) (r : Run) (p : Phase) :
    BuffersKept s { initWork s with mode := m, run := r, phase := p } :=
  ⟨rfl, rfl, rfl, rfl, rfl, rfl, rfl, rfl, rfl⟩

/-- Settles O9: the input fits, so `ENCODE` starts the run. -/
theorem encodeStartsARun : Obligations.EncodeStartsARun := by
  intro s hr hfit
  have hexec := exec_of_effect (.encode hr)
  rw [startRun_fits _ _ s hfit] at hexec
  exact ⟨_, hexec, rfl, rfl, rfl, rfl, rfl, initWork_command_cleared s _ _ _,
    initWork_command_kept s _ _ _⟩

/-- Settles O10: the input fits, so `DECODE` starts the run. -/
theorem decodeStartsARun : Obligations.DecodeStartsARun := by
  intro s hr hfit
  have hexec := exec_of_effect (.decode hr)
  rw [startRun_fits _ _ s hfit] at hexec
  exact ⟨_, hexec, rfl, rfl, rfl, rfl, rfl, initWork_command_cleared s _ _ _,
    initWork_command_kept s _ _ _⟩

/-- Settles O12: the effect of `CLEAR`, which leaves `MODE` as it was. -/
theorem clearReturnsToIdle : Obligations.ClearReturnsToIdle := by
  intro s hr
  exact ⟨_, exec_of_effect (.clear hr), rfl, rfl, rfl, rfl, rfl, rfl,
    initWork_command_cleared s s.mode _ _, initWork_command_kept s s.mode _ _⟩

end Sys2Proof.Machine
end

section
/-! PROOF. Sequencing (O5, O48, O52; 40_commands_and_sequencing.md rules R132, R133 and R141): a core turn
runs what is selected, every turn follows the phase graph, and only `CLEAR` and reset leave `DONE` and
`ERROR`. -/

namespace Sys2Proof.Machine

/-! ### Core turns -/

/-- A core turn of a run is the operation its selection decodes to (R133). -/
theorem coreTurn_decoded {s : State} {i : Instr} (hr : s.run = .busy) (hi : decode s.selection = .ok i) :
    coreTurn s = exec i s := by
  simp only [coreTurn_busy s hr, execSelection, hi]

/-- Settles O5: the selection does not look at the schedule. -/
theorem coreTurnRunsTheSelectedOperation : Obligations.CoreTurnRunsTheSelectedOperation := by
  intro s i hturn hr hi
  rw [step_core hturn]
  exact coreTurn_decoded (s := s.popTurn) hr hi

/-- The phase and the guards select one operation only. -/
theorem Selected.unique {s : State} {i k : Instr} (hr : s.run = .busy) (hi : Selected s i)
    (hk : Selected s k) : i = k :=
  Except.ok.inj ((decode_of_selected hr hi).symm.trans (decode_of_selected hr hk))

/-- The tree built, an encode run goes on to its codes and a decode run to its stream (R132). -/
theorem coreEdge_tbFin (m : Mode) : CoreEdge .tbFin Phase.pTbm m .busy (phaseAfterTree m) := by
  cases m
  · exact .tbFinEncode
  · exact .tbFinDecode

/-- Every next state of a run is the end of an edge of the phase graph: that of an operation selected, or
error entry, which every operation may make (R132). -/
theorem CoreNext.edge {s t : State} (h : CoreNext s t) (hr : s.run = .busy) :
    (t.run = .error ∧ t.phase = Phase.pNone) ∨
      ∃ i, Selected s i ∧ CoreEdge i s.phase s.mode t.run t.phase := by
  cases h with
  | fcCnt hp hg => exact .inr ⟨_, .fcCnt hp hg, by simp only [hp, hr]; exact .fcCnt _⟩
  | fcEnd hp hg => exact .inr ⟨_, .fcEnd hp hg, by simp only [hp, hr]; exact .fcEnd _⟩
  | tbInit hp => exact .inr ⟨_, .tbInit hp, by simp only [hp, hr]; exact .tbInit _⟩
  | tbMerge hp hg => exact .inr ⟨_, .tbMerge hp hg, by simp only [makeNode, hp, hr]; exact .tbMerge _⟩
  | tbFinEmpty hp hq =>
    exact .inr ⟨_, .tbFin hp (by simp [hq]), by simp only [hp, hr]; exact coreEdge_tbFin _⟩
  | tbFin hp r hq =>
    exact .inr ⟨_, .tbFin hp (by simp [hq]), by simp only [hp, hr]; exact coreEdge_tbFin _⟩
  | cgGen hp => exact .inr ⟨_, .cgGen hp, by simp only [hp, hr]; exact .cgGen _⟩
  | ccWrh hp u hu _ =>
    rw [hu.frame]
    exact .inr ⟨_, .ccWrh hp, by simp only [hp, hr]; exact .ccWrh _⟩
  | ccRdh hp => exact .inr ⟨_, .ccRdh hp, by simp only [hp, hr]; exact .ccRdh _⟩
  | bpSym hp hg _ _ u hu _ =>
    rw [hu.frame]
    exact .inr ⟨_, .bpSym hp hg, by simp only [hp, hr]; exact .bpSym _⟩
  | bpFlushNone hp hg | bpFlush hp hg => exact .inr ⟨_, .bpFlush hp hg, by rw [hp]; exact .bpFlush _⟩
  | buDone hp hg => exact .inr ⟨_, .buDone hp hg, by rw [hp]; exact .buDone _⟩
  | buRun hp hg hk => exact .inr ⟨_, .buRun hp hg hk, by simp only [hp, hr]; exact .buRun _⟩
  | buInner hp hg hk | buLeaf hp hg hk =>
    rw [advanceBit_eq]
    exact .inr ⟨_, .buBit hp hg (by simp [hk]), by simp only [hp, hr]; exact .buBit _⟩
  | _ => exact .inl ⟨rfl, rfl⟩

/-- A core turn of a run moves along the edge of the operation selected. -/
theorem coreTurn_coreEdge {s t : State} {i : Instr} (hr : s.run = .busy) (hi : decode s.selection = .ok i)
    (h : coreTurn s = .next t) : CoreEdge i s.phase s.mode t.run t.phase := by
  rcases (coreTurn_next hr h).edge hr with ⟨hrun, hphase⟩ | ⟨k, hk, hedge⟩
  · rw [hrun, hphase]
    exact .raises _ _ _
  · rwa [(selected_of_decode hr hi).unique hr hk]

/-! ### Host moves -/

/-- The table of R140 by code is the table by command. -/
theorem codeActs_eq (code : Byte) (r : Run) : codeActs code r = commandActs (decodeCommand code) r := by
  cases hi : decodeCommand code
  all_goals obtain ⟨hwf, hcode⟩ := (decodeCommand_eq_iff code _).mp hi
  all_goals cases hcode
  case cmdRsvd =>
    simp only [wellFormed, decide_eq_true_eq] at hwf
    unfold codeActs
    rw [if_neg (by bv_omega), if_neg (by bv_omega)]
    rfl
  all_goals rfl

/-- The code in the word that selects a command is that of its row (R97, R101). -/
theorem rowCode_decodeCommand (w : BitVec 32) :
    rowCode (decodeCommand (commandCode w)) = some (w.extractLsb' 0 8) := by
  obtain ⟨-, hcode⟩ := (decodeCommand_eq_iff (commandCode w) _).mp rfl
  rwa [commandCode_eq_extract] at hcode ⊢

/-- A run start goes to its first phase or to error entry. -/
theorem startRun_hostEdge {w : BitVec 32} {m : Mode} {first : Phase} {s : State}
    (hstart : HostEdge (.writeReg 0 w) .idle s.phase .busy first)
    (hact : codeActs (w.extractLsb' 0 8) .idle = true) :
    HostEdge (.writeReg 0 w) .idle s.phase (startRun m first s).run (startRun m first s).phase := by
  by_cases hfit : s.inLen.toNat ≤ s.ibufCap
  · rw [startRun_fits m first s hfit]
    exact hstart
  · rw [startRun_tooLong m first s (Nat.lt_of_not_le hfit)]
    exact .commandRaises _ _ hact

/-- A command that acts moves along the edge of its code. -/
theorem CommandEffect.hostEdge {i : Instr} {s t : State} (h : CommandEffect s i t) {w : BitVec 32}
    (hcode : rowCode i = some (w.extractLsb' 0 8)) (hact : codeActs (w.extractLsb' 0 8) s.run = true) :
    HostEdge (.writeReg 0 w) s.run s.phase t.run t.phase := by
  have hcode := hcode.symm
  cases h with
  | encode hr => rw [hr] at hact ⊢; exact startRun_hostEdge (.encode _ _ (Option.some.inj hcode)) hact
  | decode hr => rw [hr] at hact ⊢; exact startRun_hostEdge (.decode _ _ (Option.some.inj hcode)) hact
  | clear hr => exact .clear _ _ _ (Option.some.inj hcode) hr
  | reserved code hr => rw [hr] at hact ⊢; exact .commandRaises _ _ hact

/-- A write of `CMD` moves along the edge of its code, or stays where that code is dropped. -/
theorem command_hostEdge {w : BitVec 32} {s t : State}
    (h : exec (decodeCommand (commandCode w)) s = .next t) :
    HostEdge (.writeReg 0 w) s.run s.phase t.run t.phase := by
  have hacts := codeActs_eq (commandCode w) s.run
  cases hact : commandActs (decodeCommand (commandCode w)) s.run with
  | false =>
    rw [exec_dropped (decodeCommand_isCommand _) hact] at h
    cases h
    refine .stays _ _ _ ?_
    rw [moveActs, ← commandCode_eq_extract, hacts, hact]
    rfl
  | true =>
    obtain ⟨u, heffect⟩ := effect_of_acts hact
    rw [exec_of_effect heffect] at h
    cases h
    exact heffect.hostEdge (rowCode_decodeCommand w) (by rw [← commandCode_eq_extract, hacts, hact])

/-- A host move that is no command and no reset keeps `RUN` and `PHASE`. -/
theorem hostMove_hostEdge_stays {m : HostMove} {s t : State} (h : hostMove m s = .next t)
    (hacts : moveActs m s.run = false) (hcmd : ∀ w, m ≠ .writeReg 0 w) :
    HostEdge m s.run s.phase t.run t.phase := by
  rcases hostMove_cases m s t h with ⟨w, rfl, -⟩ | ⟨rfl, -⟩ | ⟨hframe, -, -⟩
  · exact absurd rfl (hcmd w)
  · cases hacts
  · rw [hframe]
    exact .stays _ _ _ hacts

/-- A host move moves along an edge of the phase graph (R132). -/
theorem hostMove_hostEdge {m : HostMove} {s t : State} (h : hostMove m s = .next t) :
    HostEdge m s.run s.phase t.run t.phase := by
  cases m with
  | reset => cases h; exact .reset _ _
  | writeReg off w =>
    by_cases h0 : off = 0
    · subst h0
      exact command_hostEdge h
    · exact hostMove_hostEdge_stays h (by simp [moveActs, h0]) (by rintro _ ⟨⟩; exact h0 rfl)
  | readReg | writeIbuf | readIbuf | readObuf => exact hostMove_hostEdge_stays h rfl nofun

/-- Settles O48: the edges of the operations and those of the host moves. -/
theorem phaseGraphIsFollowed : Obligations.PhaseGraphIsFollowed :=
  ⟨fun _ _ _ hr hi h => coreTurn_coreEdge hr hi h, fun _ _ _ h => hostMove_hostEdge h⟩

/-! ### Outcomes -/

/-- In `DONE` or `ERROR` a command word changes nothing, or is `CLEAR` and leads to `IDLE` (R140). -/
theorem command_after_run {w : BitVec 32} {s t : State} (hr : s.run = .done ∨ s.run = .error)
    (h : exec (decodeCommand (commandCode w)) s = .next t) :
    t = s ∨ (t.run = .idle ∧ w.extractLsb' 0 8 = 0x03#8) := by
  have hcode := (rowCode_decodeCommand w).symm
  cases hact : commandActs (decodeCommand (commandCode w)) s.run with
  | false =>
    rw [exec_dropped (decodeCommand_isCommand _) hact] at h
    cases h
    exact .inl rfl
  | true =>
    obtain ⟨u, heffect⟩ := effect_of_acts hact
    rw [exec_of_effect heffect] at h
    cases h
    generalize decodeCommand (commandCode w) = i at hcode heffect
    cases heffect with
    | clear => exact .inr ⟨rfl, Option.some.inj hcode⟩
    | encode hidle | decode hidle | reserved _ hidle => rw [hidle] at hr; simp at hr

/-- A host turn with the turn off the schedule (log 4). -/
theorem step_host {s : State} {m : HostMove} (h : s.turn = .host m) : step s = hostMove m s.popTurn := by
  rw [step, h, takeTurn]

/-- Settles O52: the core does nothing, a command is dropped or is `CLEAR`, and every other host move but
reset leaves the registers of the outcome alone. -/
theorem outcomesAreStable : Obligations.OutcomesAreStable := by
  intro s t hr h
  cases hturn : s.turn with
  | core =>
    have hquiet : s.popTurn.run ≠ .busy := by rcases hr with hr | hr <;> simp [hr]
    rw [step_core hturn, coreTurn_idle _ hquiet] at h
    cases h
    exact .inl ⟨rfl, rfl, rfl, rfl, rfl, rfl, rfl, rfl, rfl⟩
  | host m =>
    rw [step_host hturn] at h
    rcases hostMove_cases m _ t h with ⟨w, rfl, hcmd⟩ | ⟨rfl, rfl⟩ | ⟨hframe, -, -⟩
    · rcases command_after_run (s := s.popTurn) hr hcmd with rfl | ⟨hidle, hcode⟩
      · exact .inl ⟨rfl, rfl, rfl, rfl, rfl, rfl, rfl, rfl, rfl⟩
      · exact .inr ⟨hidle, .inr ⟨w, hcode, rfl⟩⟩
    · exact .inr ⟨rfl, .inl rfl⟩
    · rw [hframe]
      exact .inl ⟨rfl, rfl, rfl, rfl, rfl, rfl, rfl, rfl, rfl⟩

end Sys2Proof.Machine
end

section
/-! PROOF. Every run ends (O53; 40_commands_and_sequencing.md rule R142): a core turn goes on to a later
phase, or leaves less to do in its own. -/

namespace Sys2Proof.Machine

/-! ### Less to do within a phase -/

/-- One byte of the input less to scan or to pack. -/
theorem variantLess_scan {s t : State} (hp : s.phase = Phase.pFc ∨ s.phase = Phase.pBp)
    (hg : s.inPos.toNat < s.inLen.toNat) (hphase : t.phase = s.phase) (hlen : t.inLen = s.inLen)
    (hpos : t.inPos = s.inPos + 1#32) : VariantLess t s := by
  have hs : phaseLeft s = s.inLen.toNat - s.inPos.toNat := if_pos hp
  have ht : phaseLeft t = t.inLen.toNat - t.inPos.toNat := if_pos (by rwa [hphase])
  refine .inr ⟨by rw [hphase], .inl ?_⟩
  rw [hs, ht, hlen, hpos, inPos_succ hg]
  omega

theorem phaseLeft_merge {s : State} (hp : s.phase = Phase.pTbm) : phaseLeft s = s.pq.length := by
  simp [phaseLeft, hp]

/-- Two members less in `PQ` and at most one more (42 R163). -/
theorem variantLess_merge {s : State} (hp : s.phase = Phase.pTbm) {a b : NodeId} (w : Weight)
    (ha : a ∈ s.pq) (hb : b ∈ s.pq.erase a) :
    VariantLess (makeNode a b w ((s.pq.erase a).erase b) s) s := by
  refine .inr ⟨rfl, .inl ?_⟩
  rw [phaseLeft_merge hp, phaseLeft_merge (s := makeNode _ _ _ _ _) hp]
  have hins := insertMember_length_le (BitVec.ofNat 9 (256 + s.nint.toNat)) ((s.pq.erase a).erase b)
  have hla := List.length_erase_of_mem ha
  have hlb := List.length_erase_of_mem hb
  have hposa := List.length_pos_of_mem ha
  have hposb := List.length_pos_of_mem hb
  show (insertMember _ _).length < _
  omega

theorem phaseLeft_unpack {s : State} (hp : s.phase = Phase.pBu) :
    phaseLeft s = s.nsym.toNat - s.emitted.toNat := by
  simp [phaseLeft, hp]

/-- One symbol less to emit. -/
theorem variantLess_emit {s t : State} (hp : s.phase = Phase.pBu) (hg : s.emitted.toNat < s.nsym.toNat)
    (hphase : t.phase = s.phase) (hnsym : t.nsym = s.nsym) (hemitted : t.emitted = s.emitted + 1#40) :
    VariantLess t s := by
  refine .inr ⟨by rw [hphase], .inl ?_⟩
  rw [phaseLeft_unpack hp, phaseLeft_unpack (hphase.trans hp), hnsym, hemitted, emitted_succ hg]
  omega

/-- A bit consumed leaves one bit less unread. -/
theorem unreadBits_advanceBit {s : State} (hp : s.phase = Phase.pBu)
    (hg : s.inPos.toNat < s.inLen.toNat) : unreadBits (advanceBit s) < unreadBits s := by
  have hbit := s.bitPos.isLt
  have hsucc := inPos_succ hg
  rw [advanceBit_eq]
  simp only [unreadBits, hp, if_true]
  by_cases h7 : s.bitPos = 7#3
  · simp only [h7, if_true, hsucc, BitVec.toNat_ofNat]
    omega
  · have hne : s.bitPos.toNat ≠ 7 := fun e => h7 (BitVec.eq_of_toNat_eq e)
    have hbits : (s.bitPos + 1#3).toNat = s.bitPos.toNat + 1 := by rw [BitVec.toNat_add]; simp; omega
    simp only [h7, if_false, hbits]
    omega

/-- One bit less to read, and as many symbols to emit. -/
theorem variantLess_bit {s : State} (hp : s.phase = Phase.pBu) (hg : s.inPos.toNat < s.inLen.toNat)
    (d : NodeId) : VariantLess { advanceBit s with cur := some d } s := by
  have hphase : (advanceBit s).phase = s.phase := by rw [advanceBit_eq]
  have hleft : phaseLeft (advanceBit s) = phaseLeft s := by
    rw [phaseLeft_unpack (hphase.trans hp), phaseLeft_unpack hp, advanceBit_eq]
  exact .inr ⟨congrArg phaseRank hphase, .inr ⟨hleft, unreadBits_advanceBit hp hg⟩⟩

/-! ### The core turn -/

/-- A next state of a run is outside it, or has less to do. -/
theorem CoreNext.variantLess {s t : State} (h : CoreNext s t) : t.run ≠ .busy ∨ VariantLess t s := by
  cases h with
  | fcCnt hp hg => exact .inr (variantLess_scan (.inl hp) hg rfl rfl rfl)
  | bpSym hp hg _ _ u hu _ => rw [hu.frame]; exact .inr (variantLess_scan (.inr hp) hg rfl rfl rfl)
  | tbMerge hp _ _ a b wa wb ha hb => exact .inr (variantLess_merge hp _ ha hb)
  | buRun hp hg => exact .inr (variantLess_emit hp hg rfl rfl rfl)
  | buLeaf hp hg => rw [advanceBit_eq]; exact .inr (variantLess_emit hp hg rfl rfl rfl)
  | buInner hp _ _ hi _ d => exact .inr (variantLess_bit hp hi d)
  | fcEnd hp | tbInit hp | cgGen hp | ccWrh hp | ccRdh hp =>
    exact .inr (.inl (by simp [phaseRank, hp]))
  | tbFinEmpty hp | tbFin hp =>
    refine .inr (.inl ?_)
    cases s.mode <;> simp [phaseRank, phaseAfterTree, hp]
  | _ => exact .inl nofun

/-- Settles O53, next state by next state. -/
theorem coreTurnsDecreaseTheVariant : Obligations.CoreTurnsDecreaseTheVariant :=
  fun _ _ hr h => (coreTurn_next hr h).variantLess

end Sys2Proof.Machine
end

section
/-! PROOF. The Frequency Counter counts the byte at the cursor (O15, 41 R151); `FC.END` and
`BU.DONE` complete in every state (O17; 41 R152, 45 R201). -/

namespace Sys2Proof.Machine

/-- The next state of `FC.CNT` when the byte is readable and its count is not yet the greatest. -/
theorem execFcCnt_eq {s : State} (hlen : s.inPos.toNat < s.inLen.toNat)
    (hcap : s.inPos.toNat < s.ibufCap)
    (hn : byteEntry s.freq (s.inputByte s.inPos.toNat) ≠ 0xFFFFFFFF#32) :
    execFcCnt s = .next { s with
      freq := s.freq.set (s.inputByte s.inPos.toNat).toNat
        (byteEntry s.freq (s.inputByte s.inPos.toNat) + 1#32)
      inPos := s.inPos + 1#32 } := by
  simp only [execFcCnt, loadInput_eq hlen hcap, if_neg hn]

/-- A count below the greatest grows without wrapping (60 R239). -/
theorem count_succ_toNat {c : Count} (h : c ≠ 0xFFFFFFFF#32) : (c + 1#32).toNat = c.toNat + 1 := by
  bv_omega

/-- Counting a byte adds one to its entry and to no other. -/
theorem byteEntry_count_toNat (freq : Table Count Config.freqEntries) {b : Byte}
    (h : byteEntry freq b ≠ 0xFFFFFFFF#32) (v : Byte) :
    (byteEntry (freq.set b.toNat (byteEntry freq b + 1#32)) v).toNat =
      (byteEntry freq v).toNat + (if v = b then 1 else 0) := by
  rw [byteEntry_set]
  by_cases hv : v = b
  · subst hv
    rw [if_pos rfl, if_pos rfl, count_succ_toNat h]
  · rw [if_neg (Ne.symm hv), if_neg hv, Nat.add_zero]

/-- Settles O15: the byte is readable and its count not the greatest, so `FC.CNT` counts it. -/
theorem fcCntCountsTheByte : Obligations.FcCntCountsTheByte :=
  fun s hlen hcap hn =>
    ⟨_, execFcCnt_eq hlen hcap hn, byteEntry_count_toNat s.freq hn, inPos_succ hlen, rfl⟩

/-- The output of a run that ended well is all of what it wrote (10 R34). -/
theorem outLen_of_done {s : State} (h : s.run = .done) : s.outLen = s.outPos :=
  if_pos h

/-- Settles O17: neither operation has a condition, and `BU.DONE` leaves `RUN` at `DONE`. -/
theorem fcEndAndBuDoneComplete : Obligations.FcEndAndBuDoneComplete :=
  fun _ => ⟨rfl, _, rfl, rfl, outLen_of_done rfl⟩

end Sys2Proof.Machine
end

section
/-! PROOF. The Tree Builder (42_tree_builder.md): `TB.INIT` inserts the leaves (O18; R160, R162),
`TB.MERGE` joins the two members with the least keys (O19; R161, R163) and stops outside its guard or
with no id left (O38; 10_state.md R23), `TB.FIN` records the root (O20; R164). -/

namespace Sys2Proof.Machine

/-! ### The leaves -/

/-- A node that is no leaf of nonzero count keeps its weight (R162). -/
theorem leafWeights_other {s : State} {id : NodeId}
    (h : isLeaf id = false ∨ byteEntry s.freq (leafByte id) = 0#32) :
    ((leafWeights s).get? id.toNat).join = s.weight id := by
  rw [leafWeights_get?, if_neg]
  rintro ⟨hleaf, hcount⟩
  rcases h with h | h
  · simp [h] at hleaf
  · exact hcount h

/-- The leaf of a byte that occurs weighs its count (R162). -/
theorem leafWeights_leafId {s : State} {b : Byte} (h : byteEntry s.freq b ≠ 0#32) :
    ((leafWeights s).get? (leafId b).toNat).join = some ((byteEntry s.freq b).setWidth 40) := by
  rw [leafWeights_get?, leafByte_leafId, if_pos ⟨isLeaf_leafId b, h⟩]

/-- A count keeps its value as a weight (R162). -/
theorem count_weight_toNat (c : Count) : (c.setWidth 40).toNat = c.toNat :=
  BitVec.toNat_setWidth_of_le (by decide)

/-- Settles O18, by what `TB.INIT` writes into `PQ` and `NODE_W`. -/
theorem tbInitInsertsTheLeaves : Obligations.TbInitInsertsTheLeaves :=
  fun _ =>
    ⟨_, rfl, mem_leavesOf _ _, leavesOf_rising _ _,
      fun _ hcount => ⟨_, leafWeights_leafId hcount, count_weight_toNat _⟩,
      fun _ => leafWeights_other, rfl⟩

/-! ### The new node of a merge -/

section
variable {s : State}

/-- With an id left, counting the new node does not wrap (10 R23). -/
theorem nint_succ_toNat (hn : s.nint.toNat ≤ 254) : (s.nint + 1#9).toNat = s.nint.toNat + 1 := by
  bv_omega

/-- Another id than the new one is another number. -/
theorem toNat_ne_new {c : NodeId} (hn : s.nint.toNat ≤ 254)
    (hc : c ≠ BitVec.ofNat 9 (256 + s.nint.toNat)) :
    c.toNat ≠ 256 + s.nint.toNat :=
  fun e => hc (BitVec.eq_of_toNat_eq (e.trans (newId_toNat s hn).symm))

/-- Making a node leaves the fields of every other node as they were (R163). -/
theorem makeNode_other (a b : NodeId) (w : Weight) (pq : List NodeId) (hn : s.nint.toNat ≤ 254)
    {c : NodeId} (hc : c ≠ BitVec.ofNat 9 (256 + s.nint.toNat)) :
    (makeNode a b w pq s).weight c = s.weight c ∧
      (makeNode a b w pq s).leftChild c = s.leftChild c ∧
      (makeNode a b w pq s).rightChild c = s.rightChild c := by
  have hne := toNat_ne_new hn hc
  rw [makeNode_weight _ _ _ _ _ hn, makeNode_leftChild _ _ _ _ _ hn, makeNode_rightChild _ _ _ _ _ hn,
    if_neg hne, if_neg hne, if_neg hne]
  exact ⟨rfl, rfl, rfl⟩

/-- The fields of the node made (R163). -/
theorem makeNode_new (a b : NodeId) (w : Weight) (pq : List NodeId) (hn : s.nint.toNat ≤ 254) :
    (makeNode a b w pq s).weight (BitVec.ofNat 9 (256 + s.nint.toNat)) = some w ∧
      (makeNode a b w pq s).leftChild (BitVec.ofNat 9 (256 + s.nint.toNat)) = some a ∧
      (makeNode a b w pq s).rightChild (BitVec.ofNat 9 (256 + s.nint.toNat)) = some b := by
  have hid := newId_toNat s hn
  rw [makeNode_weight _ _ _ _ _ hn, makeNode_leftChild _ _ _ _ _ hn, makeNode_rightChild _ _ _ _ _ hn,
    if_pos hid, if_pos hid, if_pos hid]
  exact ⟨rfl, rfl, rfl⟩

end

/-- `PQ` after a merge: the new node for the two extracted ones (R163). -/
theorem mem_merged {q : List NodeId} (hq : q.Pairwise fun a b => a.toNat < b.toNat)
    (a b i c : NodeId) :
    c ∈ insertMember i ((q.erase a).erase b) ↔ (c = i ∨ (c ∈ q ∧ c ≠ a ∧ c ≠ b)) := by
  have hnd := rising_nodup hq
  rw [mem_insertMember, (hnd.erase a).mem_erase_iff, hnd.mem_erase_iff]
  tauto

/-- Settles O19, by what the two extractions answer and what making the node writes. -/
theorem tbMergeJoinsTheTwoLeast : Obligations.TbMergeJoinsTheTwoLeast := by
  intro s hq hw h2 hn
  obtain ⟨a, b, wa, wb, hnext, ha, hb, hwa, hwb, hleast, hleast'⟩ := tbMerge_spec s hw h2 hn
  have hne : a ≠ b := by
    rintro rfl
    exact (rising_nodup hq).not_mem_erase hb
  obtain ⟨hweight, hleft, hright⟩ := makeNode_new a b (wa + wb) ((s.pq.erase a).erase b) hn
  exact ⟨a, b, BitVec.ofNat 9 (256 + s.nint.toNat), wa, wb, _, hnext, ha, List.mem_of_mem_erase hb, hne,
    newId_toNat s hn, hleast, hleast', hwa, hwb, hweight, hleft, hright, mem_merged hq a b _,
    insertMember_rising _ _ (erase_rising (erase_rising hq a) b),
    fun _ hc => makeNode_other a b (wa + wb) _ hn hc, nint_succ_toNat hn, rfl⟩

/-! ### Where a merge stops -/

/-- extract-min has nothing to answer on an empty queue (R161, log 10). -/
theorem extractMin_empty {s : State} (hq : s.pq = []) : extractMin s = .error .emptyQueue := by
  simp only [extractMin, hq]

/-- On at most one member the first or the second extraction meets an empty queue (R161). -/
theorem execTbMerge_emptyQueue {s : State} (h : s.pq.length ≤ 1) :
    execTbMerge s = .fault .emptyQueue := by
  match hq : s.pq with
  | [] => exact execTbMerge_fault (extractMin_empty hq)
  | [r] =>
    have hsecond : extractMin { s with pq := [] } = .error .emptyQueue := extractMin_empty rfl
    simp only [execTbMerge, extractMin_single s r hq, hsecond]
  | _ :: _ :: _ => simp [hq] at h

/-- Two extractions succeed on two members or more, all with weights (R161). -/
theorem extractMin_twice {s : State} (hw : ∀ id ∈ s.pq, ∃ w, s.weight id = some w)
    (h2 : 2 ≤ s.pq.length) :
    ∃ a b q, extractMin s = .ok (a, s.pq.erase a) ∧
      extractMin { s with pq := s.pq.erase a } = .ok (b, q) := by
  obtain ⟨a, ha, ham, -⟩ := extractMin_spec s (List.ne_nil_of_length_pos (by omega)) hw
  have hlen : 0 < (s.pq.erase a).length := by
    rw [List.length_erase_of_mem ham]
    omega
  obtain ⟨b, hb, -⟩ := extractMin_spec { s with pq := s.pq.erase a } (List.ne_nil_of_length_pos hlen)
    fun id hid => hw id (List.mem_of_mem_erase hid)
  exact ⟨a, b, _, ha, hb⟩

/-- Id 511 is never used (10 R23). -/
theorem execTbMerge_nodeMemoryFull {s : State} (hw : ∀ id ∈ s.pq, ∃ w, s.weight id = some w)
    (h2 : 2 ≤ s.pq.length) (hn : 255 ≤ s.nint.toNat) :
    execTbMerge s = .fault .nodeMemoryFull := by
  obtain ⟨a, b, q, ha, hb⟩ := extractMin_twice hw h2
  have hfull : s.config.maxNodes ≤ 256 + s.nint.toNat := by
    rw [config_maxNodes]
    omega
  simp only [execTbMerge, ha, hb, if_pos hfull]

/-- Settles O38: an extraction meets an empty queue, or the new id would be above 510. -/
theorem mergeWithoutTwoMembersStops : Obligations.MergeWithoutTwoMembersStops :=
  fun _ => ⟨execTbMerge_emptyQueue, fun h2 hw hn => execTbMerge_nodeMemoryFull hw h2 hn⟩

/-! ### The root -/

/-- The next phase is that of the mode (R164). -/
theorem phaseAfterTree_eq (m : Mode) :
    phaseAfterTree m = if m = .encode then Phase.pCg else Phase.pBu := by
  cases m <;> rfl

/-- `TB.FIN` on an empty `PQ` (R164). -/
theorem execTbFin_empty {s : State} (hq : s.pq = []) :
    execTbFin s = .next { s with rootKind := .empty, phase := phaseAfterTree s.mode } := by
  simp only [execTbFin, hq]

/-- `TB.FIN` on one member (R164). -/
theorem execTbFin_single {s : State} {r : NodeId} (hq : s.pq = [r]) :
    execTbFin s = .next { s with
      root := some r, cur := some r
      rootKind := if r.toNat < 256 then .leaf else .internal
      pq := [], phase := phaseAfterTree s.mode } := by
  simp only [execTbFin, hq, extractMin_single s r hq, isLeaf_iff]

/-- Settles O20, by the number of members. -/
theorem tbFinRecordsTheRoot : Obligations.TbFinRecordsTheRoot := by
  intro s
  rw [← phaseAfterTree_eq]
  exact ⟨execTbFin_empty, fun _ => execTbFin_single⟩

end Sys2Proof.Machine
end

section
/-! PROOF. What `CG.GEN` records (O21 to O24; 43_code_table_generator.md rules R180 to R182): the code
table of each kind of root, whose codes are the paths from the root to the leaves. -/

namespace Sys2Proof.Machine

/-- `CG.GEN` completes only where the code table is found. -/
theorem codeTable_of_execCgGen {s t : State} (h : execCgGen s = .next t) :
    codeTable s = .ok t.code := by
  cases htable : codeTable s with
  | error f =>
    rw [execCgGen_fault htable] at h
    cases h
  | ok u =>
    rw [execCgGen_ok htable] at h
    cases h
    rfl

/-- The code recorded for the byte of a single-leaf root (R181 (a)). -/
theorem codeTable_leaf_entry {s : State} {u : Table (Option Code) Config.freqEntries}
    (hk : s.rootKind = .leaf) (hu : codeTable s = .ok u) (b : Byte) :
    byteEntry u b =
      if leafByte s.rootId = b then some Config.singleCode else byteEntry s.code b := by
  rw [codeTable_leaf s hk] at hu
  cases hu
  exact byteEntry_set _ _ _ _

/-- Settles O21: the code table is as it was, or has the one code of a single leaf. -/
theorem cgGenDegenerateTrees : Obligations.CgGenDegenerateTrees := by
  refine fun s => ⟨fun hk => execCgGen_ok (codeTable_empty s (.inl hk)), ?_⟩
  rintro b hk rfl
  have hentry := codeTable_leaf_entry hk (codeTable_leaf s hk)
  exact ⟨_, execCgGen_ok (codeTable_leaf s hk), (hentry _).trans (if_pos rfl),
    fun v hv => (hentry v).trans (if_neg hv.symm), rfl⟩

/-- Settles O22: a tree has a code table, and it is complete. -/
theorem cgGenCodesExactlyTheSymbols : Obligations.CgGenCodesExactlyTheSymbols := by
  intro s ht hfresh
  obtain ⟨u, hu⟩ := ht.codeTable_total
  have hcomplete := codeTable_complete ht hfresh hu
  exact ⟨_, execCgGen_ok hu, hcomplete, rfl⟩

/-! ### Codes as paths -/

section
variable {s : State} {u : Table (Option Code) Config.freqEntries} (hfresh : CodeFresh s)
  (hu : codeTable s = .ok u)
include hfresh hu

/-- Under an internal root the code of a byte value is a path from the root to its leaf (R180). -/
theorem codeTable_internal_path (hk : s.rootKind = .internal) {b : Byte} {p : Code}
    (hp : byteEntry u b = some p) : follow s s.rootId p = some (leafId b) := by
  rw [codeTable_internal s hk] at hu
  rcases (visit_spec hu).1 b with hkept | ⟨q, hq, hpath, -⟩
  · rw [hkept, hfresh b] at hp
    cases hp
  · rw [hq, List.nil_append] at hp
    cases hp
    exact hpath

/-- A byte value whose code is a prefix of the code of another is that other: both are the single leaf,
or their paths end at one leaf (R182 (b)). -/
theorem codeTable_prefix_eq {b c : Byte} {p q : Code} (hp : byteEntry u b = some p)
    (hq : byteEntry u c = some q) (hpre : p <+: q) : b = c := by
  have hnoTree (hk : s.rootKind = .empty ∨ s.rootKind = .none) : b = c := by
    rw [codeTable_empty s hk] at hu
    cases hu
    rw [hfresh b] at hp
    cases hp
  match hk : s.rootKind with
  | .empty => exact hnoTree (.inl hk)
  | .none => exact hnoTree (.inr hk)
  | .leaf =>
    have honly {v : Byte} {x : Code} (hx : byteEntry u v = some x) : leafByte s.rootId = v := by
      by_contra hne
      rw [codeTable_leaf_entry hk hu, if_neg hne, hfresh v] at hx
      cases hx
    exact (honly hp).symm.trans (honly hq)
  | .internal =>
    exact leafId_inj (follow_prefix (isLeaf_leafId b) (codeTable_internal_path hfresh hu hk hp)
      (codeTable_internal_path hfresh hu hk hq) hpre)

end

/-- Settles O23: `ROOT` is written, so the root that is read is `r`. -/
theorem cgGenCodesAreRootToLeafPaths : Obligations.CgGenCodesAreRootToLeafPaths := by
  intro s t r hk hroot hfresh hnext b p hp
  rw [← rootId_some hroot]
  exact codeTable_internal_path hfresh (codeTable_of_execCgGen hnext) hk hp

/-- Settles O24, by the kind of the root. -/
theorem cgGenCodesArePrefixFree : Obligations.CgGenCodesArePrefixFree :=
  fun _ _ hfresh hnext _ _ _ _ hne hp hq hpre =>
    hne (codeTable_prefix_eq hfresh (codeTable_of_execCgGen hnext) hp hq hpre)

end Sys2Proof.Machine
end

section
/-! PROOF. The Bit Packer (44_bit_packer.md): `BP.SYM` with and without room for the bytes of the code
(O29, O30; R191, 60 R233), `BP.FLUSH` in its three cases (O32; R192). -/

namespace Sys2Proof.Machine

/-! ### `BP.SYM` -/

section
variable {s : State} {p : Code} (hlen : s.inPos.toNat < s.inLen.toNat)
  (hcap : s.inPos.toNat < s.ibufCap) (hcode : byteEntry s.code (s.inputByte s.inPos.toNat) = some p)
include hlen hcap hcode

/-- `BP.SYM` on a byte with a code whose bits are all placed: the cursor goes on (R191). -/
theorem execBpSym_cont {u : State} (hu : packBits p s = .cont u) :
    execBpSym s = .next { u with inPos := u.inPos + 1#32 } := by
  simp only [execBpSym, loadInput_eq hlen hcap, hcode, hu, Flow.andThen_cont, Flow.finish_cont]

/-- `BP.SYM` on a byte with a code that ends within its loop: the cursor stays (R191). -/
theorem execBpSym_halt {r : Result} (hr : packBits p s = .halt r) : execBpSym s = r := by
  simp only [execBpSym, loadInput_eq hlen hcap, hcode, hr, Flow.andThen_halt, Flow.finish_halt]

end

/-- Settles O29: there is room, so the loop places every bit, and only the cursor changes after it. -/
theorem bpSymAppendsTheCode : Obligations.BpSymAppendsTheCode := by
  intro s p hlen hcap hcode hroom hbound
  obtain ⟨u, hu, hpacked⟩ := packBits_room p s hroom (hroom.trans_lt hbound)
  refine ⟨_, execBpSym_cont hlen hcap hcode hu, hpacked.nacc, hpacked.bits, hpacked.clear,
    hpacked.written, hpacked.kept, hpacked.outPos, hpacked.total, ?_⟩
  rw [hpacked.frame]

/-- Settles O30: there is no room, so the loop ends at the first byte that does not fit. -/
theorem bpSymRaisesWhenFull : Obligations.BpSymRaisesWhenFull := by
  intro s p hlen hcap hcode hfits hfull hbound
  obtain ⟨t, ht, hpacked⟩ := packBits_full p s hfits hfull hbound
  exact ⟨t, execBpSym_halt hlen hcap hcode ht, hpacked.err, hpacked.errInfo, hpacked.outPos,
    hpacked.nacc, hpacked.total, hpacked.written, hpacked.acc, hpacked.kept, hpacked.frame⟩

/-! ### `BP.FLUSH` -/

/-- `BP.FLUSH` with no bits held (R192). -/
theorem execBpFlush_none {s : State} (hn : s.nacc = 0#3) :
    execBpFlush s = .next { s with run := .done, phase := Phase.pNone } := by
  simp only [execBpFlush, flushAcc, if_pos hn, Flow.andThen_cont, Flow.finish_cont]

/-- `BP.FLUSH` with bits held writes `ACC` as it is, since the pad bit is 0 (R192). -/
theorem execBpFlush_held {s : State} (hn : s.nacc ≠ 0#3) :
    execBpFlush s = ((emitAcc s).andThen fun u =>
      .cont { u with run := .done, phase := Phase.pNone }).finish := by
  simp only [execBpFlush, flushAcc, if_neg hn, padAcc_eq]

/-- Settles O32, by whether bits are held and whether there is room for their byte. -/
theorem bpFlushEndsTheRun : Obligations.BpFlushEndsTheRun := by
  refine fun s => ⟨execBpFlush_none, fun hn hroom => ?_, fun hn hfull => ?_⟩
  · refine (execBpFlush_held hn).trans ?_
    rw [emitAcc, outByte_room _ _ hroom]
    rfl
  · refine (execBpFlush_held hn).trans ?_
    rw [emitAcc, outByte_full _ _ hfull]
    rfl

end Sys2Proof.Machine
end

section
/-! PROOF. The Bit Unpacker (45_bit_unpacker.md): `BU.BIT` walks one edge (O34; R203) and `BU.RUN` emits
the only symbol (O33; R202), each with and without room for its byte (60 R233). -/

namespace Sys2Proof.Machine

/-! ### `BU.BIT` -/

/-- Where an edge leads does not depend on the cursor, so it may be read off before the bit is consumed. -/
theorem advanceBit_child (s : State) (bit : Bool) :
    (advanceBit s).child bit (advanceBit s).curId =
      if bit then s.rightChild s.curId else s.leftChild s.curId := by
  rw [advanceBit_eq]
  exact State.child_eq s bit s.curId

/-- Settles O34: the bit is consumed first (`execBuBit_walks`), and the four clauses are the four ends of
the walk along it. -/
theorem buBitWalksOneEdge : Obligations.BuBitWalksOneEdge := by
  rintro s c bit inPos bitPos hk hlen hcap rfl hbit hinPos hbitPos
  have hwalk : exec .buBit s = walkBit bit (advanceBit s) :=
    (execBuBit_walks s hk hlen hcap).trans (by rw [streamBit_eq, ← hbit])
  have hchild := advanceBit_child s bit
  rw [advanceBit_eq, ← hinPos, ← hbitPos] at hwalk hchild
  rw [hwalk]
  refine ⟨fun d hd hinner => ?_, fun b r hd hr hroom => ?_, fun b hd hfull => ?_, fun hd => ?_⟩
  · exact walkBit_inner (hchild.trans hd) ((isLeaf_false_iff d).mpr hinner)
  · rw [hr]
    exact walkBit_leaf (hchild.trans hd) hroom
  · exact walkBit_leaf_full (hchild.trans hd) hfull
  · exact walkBit_missing (hchild.trans hd)

/-! ### `BU.RUN` -/

/-- Settles O33, by whether `OutByte` has room for the symbol. -/
theorem buRunEmitsTheOnlySymbol : Obligations.BuRunEmitsTheOnlySymbol := by
  rintro s b rfl
  refine ⟨fun hroom => ?_, fun hfull => ?_⟩
  · show execBuRun s = _
    rw [execBuRun, outByte_room _ _ hroom, Flow.andThen_cont, Flow.finish_cont]
  · show execBuRun s = _
    rw [execBuRun, outByte_full _ _ hfull, Flow.andThen_halt, Flow.finish_halt, raise]

end Sys2Proof.Machine
end

section
/-! PROOF. The Container Codec (46_container_codec.md): `CC.WRH` with and without room for the header
(O25, O26; R216, 60 R233), `CC.RDH` on a whole header (O27; R217). -/

namespace Sys2Proof.Machine

/-! ### Reading a list of bytes back -/

/-- A byte of the list written reads back. -/
theorem Memory.read_writeList_inside (m : Memory) (a : Nat) {vs : List Byte} {k : Nat} (h : k < vs.length) :
    (m.writeList a vs).read (a + k) = vs[k]? := by
  rw [Memory.read_writeList, if_pos (by omega), Nat.add_sub_cancel_left]

/-- An address below the list written, or past its end, reads as before. -/
theorem Memory.read_writeList_outside (m : Memory) {a : Nat} {vs : List Byte} {c : Nat}
    (h : c < a ∨ a + vs.length ≤ c) : (m.writeList a vs).read c = m.read c := by
  rw [Memory.read_writeList, if_neg (by omega)]

/-- The header written from an address on holds byte `j` of each count at that count's place (20 R62). -/
theorem Memory.read_writeList_header (m : Memory) (a : Nat) (order : Config.ByteOrder)
    (freq : Table Count Config.freqEntries) (b : Byte) {j : Nat} (hj : j < 4) :
    (m.writeList a (headerBytes order freq)).read (a + 4 * b.toNat + j) =
      (countBytes order (byteEntry freq b))[j]? := by
  have hb := b.isLt
  rw [Nat.add_assoc, Memory.read_writeList_inside m a (by rw [headerBytes_length]; omega),
    headerBytes_getElem? order freq b j hj]

/-! ### `CC.WRH` -/

/-- `CC.WRH` with room for the header (46 R216). -/
theorem execCcWrh_room {s : State} (hroom : s.outPos.toNat + 1024 ≤ s.obufCap)
    (hbound : s.obufCap < 2 ^ 64) :
    execCcWrh s = .next { s with
      obuf := s.obuf.writeList s.outPos.toNat (headerBytes s.config.hdrByteOrder s.freq)
      outPos := s.outPos + 1024#64, phase := Phase.pBp } := by
  rw [execCcWrh, outBytes_room _ s (by rwa [headerBytes_length])
    (by rw [headerBytes_length]; omega), headerBytes_length, Flow.andThen_cont, Flow.finish_cont]

/-- `CC.WRH` without room for the header (46 R216, 60 R233). -/
theorem execCcWrh_full {s : State} (hfits : s.outPos.toNat ≤ s.obufCap)
    (hfull : s.obufCap < s.outPos.toNat + 1024) (hbound : s.obufCap < 2 ^ 64) :
    execCcWrh s = .next (raise .outputUnwritable (BitVec.ofNat 64 s.obufCap) { s with
      obuf := s.obuf.writeList s.outPos.toNat
        ((headerBytes s.config.hdrByteOrder s.freq).take (s.obufCap - s.outPos.toNat))
      outPos := BitVec.ofNat 64 s.obufCap }) := by
  rw [execCcWrh, outBytes_full _ s hfits (by rwa [headerBytes_length]) hbound, Flow.andThen_halt,
    Flow.finish_halt]

/-- Settles O25: `OutByte` of the 1024 header bytes goes through, and each of them reads back. -/
theorem ccWrhAppendsTheHeader : Obligations.CcWrhAppendsTheHeader := by
  intro s hroom hbound
  refine ⟨_, execCcWrh_room hroom hbound, fun b => ?_, fun a ha => ?_, ?_, rfl⟩
  · have hread {j : Nat} (hj : j < 4) :=
      s.obuf.read_writeList_header s.outPos.toNat s.config.hdrByteOrder s.freq b hj
    exact ⟨hread (j := 0) (by decide), hread (j := 1) (by decide), hread (j := 2) (by decide),
      hread (j := 3) (by decide)⟩
  · exact s.obuf.read_writeList_outside (by rwa [headerBytes_length])
  · exact BitVec.toNat_add_of_lt (by simpa using hroom.trans_lt hbound)

/-- Settles O26: what `OutByte` has written when it raises is the header cut off at the room left. -/
theorem ccWrhRaisesWhenFull : Obligations.CcWrhRaisesWhenFull := by
  intro s hfits hfull hbound
  have hcap : (BitVec.ofNat 64 s.obufCap).toNat = s.obufCap := by
    rw [BitVec.toNat_ofNat, Nat.mod_eq_of_lt hbound]
  have hlen : ((headerBytes s.config.hdrByteOrder s.freq).take (s.obufCap - s.outPos.toNat)).length =
      s.obufCap - s.outPos.toNat := by
    rw [List.length_take, headerBytes_length]
    omega
  refine ⟨_, execCcWrh_full hfits hfull hbound, rfl, hcap, hcap, fun k hk => ?_, fun a ha => ?_, rfl⟩
  · exact (s.obuf.read_writeList_inside _ (by omega)).trans (List.getElem?_take_of_lt (by omega))
  · exact s.obuf.read_writeList_outside (by omega)

/-! ### `CC.RDH` -/

/-- Each entry of the frequency table of a header is the count at that entry's place (46 R217). -/
@[simp] theorem byteEntry_headerCounts (s : State) (b : Byte) :
    byteEntry (headerCounts s) b = headerCount s b.toNat := by
  rw [headerCounts, byteEntry_tabulate]

/-- Settles O27: each entry is its big-endian count, and 256 counts of 32 bits do not wrap `N`. -/
theorem ccRdhLoadsTheHeader : Obligations.CcRdhLoadsTheHeader := by
  intro s hlen hcap
  refine ⟨_, execCcRdh_ok s hlen hcap, fun b => ?_, nsym_freqSum (by dsimp only), by dsimp only⟩
  rw [byteEntry_headerCounts, headerCount_toNat]

end Sys2Proof.Machine
end

section
/-! PROOF. What an operation that raises leaves as it was (O51; 60_exceptions.md rule R240): the tables, and
the registers that describe the tree and count the symbols. -/

namespace Sys2Proof.Machine

/-- The tables, and the registers beside them that no raising operation writes, are as they were. -/
structure TablesKept (s t : State) : Prop where
  rootKind : t.rootKind = s.rootKind
  nsym : t.nsym = s.nsym
  freq : t.freq = s.freq
  nodeW : t.nodeW = s.nodeW
  nodeL : t.nodeL = s.nodeL
  nodeR : t.nodeR = s.nodeR
  pq : t.pq = s.pq
  code : t.code = s.code
  nint : t.nint = s.nint
  root : t.root = s.root
  emitted : t.emitted = s.emitted

theorem TablesKept.refl (s : State) : TablesKept s s :=
  ⟨rfl, rfl, rfl, rfl, rfl, rfl, rfl, rfl, rfl, rfl, rfl⟩

/-- The bytes `CC.WRH` writes before it raises leave the tables alone. -/
theorem Appended.tablesKept {s t : State} (h : Appended s t) : TablesKept s t := by
  rw [h.frame]
  constructor <;> rfl

/-- So do the bits `BP.SYM` places before it raises. -/
theorem PackedOnly.tablesKept {s t : State} (h : PackedOnly s t) : TablesKept s t := by
  rw [h.frame]
  constructor <;> rfl

/-- So does the bit `BU.BIT` consumes before it raises. -/
theorem advanceBit_tablesKept (s : State) : TablesKept s (advanceBit s) := by
  rw [advanceBit_eq]
  constructor <;> rfl

/-- Error entry itself writes none of them, whatever the operation wrote before it. -/
theorem TablesKept.raise {s u : State} (h : TablesKept s u) (e : ErrKind) (info : BitVec 64) :
    TablesKept s (raise e info u) := { h with }

/-- The next states of a run that have `RUN = ERROR` are those of error entry; in every other one `RUN` is
`BUSY` or `DONE`. -/
theorem CoreNext.tablesKept {s t : State} (h : CoreNext s t) (hr : s.run = .busy)
    (he : t.run = .error) : TablesKept s t := by
  cases h with
  | fcOverflow | ccRdhShort | bpNoCode | bpFlushFull | buRunFull | buNoRoot | buTruncated =>
    exact (TablesKept.refl s).raise _ _
  | ccWrhFull _ u hu _ => exact hu.tablesKept.raise _ _
  | bpSymFull _ _ u hu _ => exact hu.tablesKept.raise _ _
  | buMissing => exact (advanceBit_tablesKept s).raise _ _
  | buLeafFull _ _ d _ =>
    have hcur : TablesKept s { advanceBit s with cur := some d } := { advanceBit_tablesKept s with }
    exact hcur.raise _ _
  | bpFlushNone | bpFlush | buDone => cases he
  | ccWrh _ u hu _ => rw [hu.frame] at he; cases hr.symm.trans he
  | bpSym _ _ _ _ u hu _ => rw [hu.frame] at he; cases hr.symm.trans he
  | buInner | buLeaf => rw [advanceBit_eq] at he; cases hr.symm.trans he
  | _ => cases hr.symm.trans he

/-- A turn of a run that ends in `ERROR` has raised: it ends outside every phase, with an error. -/
theorem Ending.raised_status {s t : State} (h : Ending s t) (hr : s.run = .busy) (he : t.run = .error) :
    t.phase = Phase.pNone ∧ t.err ≠ .none := by
  cases h with
  | busy hr' => cases (hr'.trans hr).symm.trans he
  | done hr' => cases hr'.symm.trans he
  | raised e info u hne ht => rw [ht]; exact ⟨rfl, hne⟩

/-- Outside `DONE` no output is declared (10 R34). -/
theorem outLen_of_not_done {s : State} (h : s.run ≠ .done) : s.outLen = 0#64 := if_neg h

/-- Settles O51: how the turn ended, what it kept of the host's side, and what it kept of the tables. -/
theorem raisingLeavesTheTables : Obligations.RaisingLeavesTheTables := by
  intro s t hr h he
  have hnext := coreTurn_next hr h
  have hhost := hnext.hostSideKept
  obtain ⟨hphase, herr⟩ := hnext.ending.raised_status hr he
  obtain ⟨h1, h2, h3, h4, h5, h6, h7, h8, h9, h10, h11⟩ := hnext.tablesKept hr he
  exact ⟨hphase, herr, outLen_of_not_done (by simp [he]), hhost.mode, h1, h2, h3, h4, h5, h6, h7, h8, h9,
    h10, h11, hhost.ibuf, hhost.inLen⟩

end Sys2Proof.Machine
end

section
/-! PROOF. Where an operation raises before it has written anything of its own (60_exceptions.md rules R232
to R239): the commands (O11, O13), and `FC.CNT`, `CC.RDH`, `BP.SYM` and `BU.BIT` (O16, O28, O31, O35). -/

namespace Sys2Proof.Machine

/-! ### The commands -/

/-- What the start of a run whose input does not fit leaves: the error, and below it `InitWork` and `MODE`
(60 R232, 40 R136, R137). -/
theorem startRun_tooLong_effect (m : Mode) (p : Phase) {s : State} (h : s.ibufCap < s.inLen.toNat) :
    (startRun m p s).mode = m ∧ (startRun m p s).run = .error ∧ (startRun m p s).phase = Phase.pNone ∧
      (startRun m p s).err = .inputUnavailable ∧ (startRun m p s).errInfo.toNat = s.inLen.toNat ∧
      WorkCleared (startRun m p s) ∧ BuffersKept s (startRun m p s) := by
  have hinfo : (s.inLen.setWidth 64).toNat = s.inLen.toNat :=
    BitVec.toNat_setWidth_of_le (by decide)
  rw [startRun_tooLong m p s h]
  exact ⟨rfl, rfl, rfl, rfl, hinfo, (initWork_cleared s).congr rfl,
    ⟨rfl, rfl, rfl, rfl, rfl, rfl, rfl, rfl, rfl⟩⟩

/-- Settles O11: both commands start a run, and the input fits neither. -/
theorem startRaisesInputUnavailable : Obligations.StartRaisesInputUnavailable := fun _ hr hlong =>
  ⟨⟨_, exec_of_effect (.encode hr), startRun_tooLong_effect _ _ hlong⟩,
    ⟨_, exec_of_effect (.decode hr), startRun_tooLong_effect _ _ hlong⟩⟩

/-- Settles O13: in `IDLE` a reserved command acts, and its effect is the error entry. -/
theorem reservedCommandRaisesBadCommand : Obligations.ReservedCommandRaisesBadCommand :=
  fun _ code hr _ => exec_of_effect (.reserved code hr)

/-! ### The operations of a run -/

section
variable {s : State} (hlen : s.inPos.toNat < s.inLen.toNat) (hcap : s.inPos.toNat < s.ibufCap)
include hlen hcap

/-- `FC.CNT` on a byte whose count is the greatest (41 R151, 60 R239). -/
theorem execFcCnt_overflow (hn : byteEntry s.freq (s.inputByte s.inPos.toNat) = 0xFFFFFFFF#32) :
    execFcCnt s = .next (raise .countOverflow (s.inPos.setWidth 64) s) := by
  simp only [execFcCnt, loadInput_eq hlen hcap, if_pos hn]

/-- `BP.SYM` on a byte without a code (44 R191, 60 R237). -/
theorem execBpSym_noCode (hc : byteEntry s.code (s.inputByte s.inPos.toNat) = none) :
    execBpSym s = .next (raise .internalConsistency (s.inPos.setWidth 64) s) := by
  simp only [execBpSym, loadInput_eq hlen hcap, hc]

end

/-- The first test of `BU.BIT`: the root is internal (45 R203, 60 R236). -/
theorem execBuBit_noRoot {s : State} (hk : s.rootKind ≠ .internal) :
    execBuBit s = .next (raise .streamCorrupt (s.inPos.setWidth 64) s) := if_pos hk

/-- The second test of `BU.BIT`: a bit is left (45 R203, 60 R235). -/
theorem execBuBit_truncated {s : State} (hk : s.rootKind = .internal) (hend : s.inPos = s.inLen) :
    execBuBit s = .next (raise .streamTruncated (s.inPos.setWidth 64) s) := by
  rw [execBuBit, if_neg (not_not_intro hk), if_pos hend]

/-- Settles O16. -/
theorem fcCntRaisesCountOverflow : Obligations.FcCntRaisesCountOverflow := fun _ => execFcCnt_overflow

/-- Settles O28. -/
theorem ccRdhRaisesMalformedContainer : Obligations.CcRdhRaisesMalformedContainer := fun _ =>
  execCcRdh_short

/-- Settles O31. -/
theorem bpSymRaisesInternalConsistency : Obligations.BpSymRaisesInternalConsistency := fun _ =>
  execBpSym_noCode

/-- Settles O35, by the two tests before the load. -/
theorem buBitRaisesBeforeTheWalk : Obligations.BuBitRaisesBeforeTheWalk := fun _ =>
  ⟨execBuBit_noRoot, execBuBit_truncated⟩

end Sys2Proof.Machine
end

section
/-! PROOF. The host beside a run (70_reset_and_hazards.md): its writes while the core owns the input (O43;
R266), its reads of `OBUF` (O45; R267), and `RST` (O46; R260, R261). -/

namespace Sys2Proof.Machine

/-! ### Writes that are ignored -/

/-- An aligned write of a register other than `CMD` (10 R28). -/
theorem hostWriteReg_aligned (s : State) {off : Nat} (v : BitVec 32) (h : off % 4 = 0) (h0 : off ≠ 0) :
    hostWriteReg off v s = .next (s.writeRegister off v) := by
  rw [hostWriteReg, if_neg (not_not_intro h), if_neg h0]

/-- Only `IN_LEN` takes a write (10 R28). -/
theorem writeRegister_readOnly (s : State) {off : Nat} (v : BitVec 32) (h : off ≠ 0x14) :
    s.writeRegister off v = s := if_neg h

/-- While the core owns `IN_LEN` it takes none either (70 R266). -/
theorem writeRegister_busy {s : State} (off : Nat) (v : BitVec 32) (hr : s.run = .busy) :
    s.writeRegister off v = s := by
  by_cases hoff : off = 0x14
  · rw [State.writeRegister, if_pos hoff, if_pos hr]
  · exact writeRegister_readOnly s v hoff

/-- While the core owns `IBUF` a write is discarded, before its address is tested (70 R266, log 9). -/
theorem hostWriteIbuf_busy {s : State} (a : Nat) (b : Byte) (hr : s.run = .busy) :
    hostWriteIbuf a b s = .next s := if_pos hr

/-- Settles O43: each write is one of an input the core owns, or of a register that takes none. -/
theorem busyInputIsTheCores : Obligations.BusyInputIsTheCores := by
  refine ⟨fun s v a b hr => ⟨?_, hostWriteIbuf_busy a b hr⟩, fun s off v haligned hcmd hlen => ?_⟩
  · have hwrite := hostWriteReg_aligned s v (off := 0x14) (by decide) (by decide)
    rwa [writeRegister_busy _ v hr] at hwrite
  · have hwrite := hostWriteReg_aligned s v haligned hcmd
    rwa [writeRegister_readOnly s v hlen] at hwrite

/-! ### Reads of the output -/

/-- In `DONE`, below `OUT_LEN`, the byte written (70 R267). -/
theorem hostReadObuf_declared {s : State} {a : Nat} {b : Byte} (hr : s.run = .done)
    (ha : a < s.outPos.toNat) (hb : s.obuf.read a = some b) :
    hostReadObuf a s = .next { s with hostData := b.setWidth 32 } := by
  unfold hostReadObuf
  rw [outLen_of_done hr, if_pos ha, hb]

/-- No address lies below `OUT_LEN` outside `DONE`, nor one at or above `OUT_POS` in it (10 R34). -/
theorem outLen_le {s : State} {a : Nat} (h : s.run ≠ .done ∨ s.outPos.toNat ≤ a) :
    s.outLen.toNat ≤ a := by
  by_cases hr : s.run = .done
  · rw [outLen_of_done hr]
    exact h.resolve_left (not_not_intro hr)
  · rw [outLen_of_not_done hr]
    exact Nat.zero_le a

/-- Elsewhere an unspecified byte (70 R267, log 5). -/
theorem hostReadObuf_undeclared {s : State} {a : Nat} (h : s.run ≠ .done ∨ s.outPos.toNat ≤ a) :
    hostReadObuf a s = .next (hostFreeByte s) := if_neg (Nat.not_lt.mpr (outLen_le h))

/-- Settles O45: the invariant has a byte written at every address below `OUT_POS`. -/
theorem obufReadsAreDefinedWhenDone : Obligations.ObufReadsAreDefinedWhenDone := by
  refine fun s a => ⟨fun b => hostReadObuf_declared, fun hinv hr ha => ?_, fun h => ?_⟩
  · obtain ⟨b, hb⟩ := hinv.obufFilled a ha
    exact ⟨b, hb, hostReadObuf_declared hr ha hb⟩
  · exact ⟨_, hostReadObuf_undeclared h, rfl⟩

/-! ### Reset -/

/-- Reset clears the working registers and tables; what it keeps is none of them (10 R40). -/
theorem hostReset_cleared (s : State) : WorkCleared (hostReset s) :=
  (resetWith_cleared s.ibufCap s.obufCap).congr rfl

/-- Settles O46: reset looks at no field of the state but those it keeps. -/
theorem resetMoveFromAnyState : Obligations.ResetMoveFromAnyState := fun s =>
  ⟨hostReset s, rfl, rfl, rfl, rfl, rfl, rfl, rfl, hostReset_cleared s, rfl, rfl, rfl, rfl⟩

end Sys2Proof.Machine
end
